-- ==== Sys2Proof/Word.lean ====
section
/-! DEFINITION. The two words of the block's interface: a 32-bit operand or result word (00_scope R9, R11)
and a 100-bit request (30_encoding R64). -/

namespace Sys2Proof

/-- A 32-bit operand or result: a binary32 pattern, or an int32 in two's complement (00_scope R9, R11). -/
abbrev Word := BitVec 32

/-- A request, `REQ[99:0]` (30_encoding R64). -/
abbrev Request := BitVec 100

end Sys2Proof
end

