-- ==== Sys2Proof/Syntax.lean ====
section
/-! DEFINITION. The sixteen operations of the block, one constructor for each row of the opcode table
(30_encoding R66), with the operand fields each one reads (30_encoding R67). -/

namespace Sys2Proof

/-- An operation with the operand words it reads. A field of the request that the operation does not read is
no part of it (30_encoding R67; 92_eei_decisions D22). -/
inductive Instr where
  /-- 0x0 PACK (R101): sign in bit 0 of `a`, exponent in the low 8 bits of `b`, fraction in the low 23 of `c`. -/
  | pack (a b c : Word)
  /-- 0x1 UNPACK (R102). -/
  | unpack (a : Word)
  /-- 0x2 ADD (R170). -/
  | add (a b : Word)
  /-- 0x3 SUB (R171). -/
  | sub (a b : Word)
  /-- 0x4 MUL (R190). -/
  | mul (a b : Word)
  /-- 0x5 DIV (R200): `a` the dividend, `b` the divisor. -/
  | div (a b : Word)
  /-- 0x6 SQRT (R215). -/
  | sqrt (a : Word)
  /-- 0x7 EQ (R232). -/
  | eq (a b : Word)
  /-- 0x8 NE (R233). -/
  | ne (a b : Word)
  /-- 0x9 LT (R234). -/
  | lt (a b : Word)
  /-- 0xA LE (R235). -/
  | le (a b : Word)
  /-- 0xB GT (R236). -/
  | gt (a b : Word)
  /-- 0xC GE (R237). -/
  | ge (a b : Word)
  /-- 0xD IS_NAN (R103). -/
  | isNan (a : Word)
  /-- 0xE TO_INT32 (R250). -/
  | toInt32 (a : Word)
  /-- 0xF FROM_INT32 (R255): `a` read in two's complement. -/
  | fromInt32 (a : Word)
  deriving DecidableEq, Repr

/-- A line of the spec's assembler (30_encoding R71): the operation, by its number in R66, and the operands
as integers, a 32-bit hex word or a signed decimal. -/
structure AsmLine where
  op : BitVec 4
  operands : List Int
  deriving DecidableEq, Repr

end Sys2Proof
end

