-- ==== Sys2Proof/WellFormed.lean ====
section
/-! DEFINITION. Which terms of the syntax stand for a request. Every operation with every operand does
(30_encoding R62, R69); a line of the assembler does when it has the operands its operation takes, each of
them a 32-bit value (30_encoding R71). -/

namespace Sys2Proof

/-- Every value of every operand field is a valid operand, and no request encoding is reserved or illegal
(30_encoding R62, R69). One line for each constructor, so that a new one must be considered here. -/
def Instr.wellFormed : Instr → Bool
  | .pack _ _ _ => true
  | .unpack _ => true
  | .add _ _ => true
  | .sub _ _ => true
  | .mul _ _ => true
  | .div _ _ => true
  | .sqrt _ => true
  | .eq _ _ => true
  | .ne _ _ => true
  | .lt _ _ => true
  | .le _ _ => true
  | .gt _ _ => true
  | .ge _ _ => true
  | .isNan _ => true
  | .toInt32 _ => true
  | .fromInt32 _ => true

/-- How many operands a line of the assembler has for each operation number (30_encoding R71): PACK three,
UNPACK, SQRT, IS_NAN, TO_INT32 and FROM_INT32 one, the others two. -/
def asmArity (op : BitVec 4) : Nat :=
  if op = 0x0#4 then 3
  else if op = 0x1#4 ∨ op = 0x6#4 ∨ op = 0xD#4 ∨ op = 0xE#4 ∨ op = 0xF#4 then 1
  else 2

/-- An operand of the assembler is a 32-bit hex word or a signed decimal of 32 bits (30_encoding R71). -/
def asmOperandInRange (v : Int) : Bool := decide (-2 ^ 31 ≤ v) && decide (v < 2 ^ 32)

/-- A line of the assembler that stands for a request: the right number of operands, each in range.
PACK's sign word is any 32-bit word (log 18). -/
def AsmLine.wellFormed (l : AsmLine) : Bool :=
  l.operands.length == asmArity l.op && l.operands.all asmOperandInRange

end Sys2Proof
end

