-- ==== Sys2Proof/Decode.lean ====
section
/-! DEFINITION. The request format (30_encoding R64), the decoder of every request (R66, R69), the encoder
written from the same tables, and the assembler (R71). A request is 100 bits, not a sequence of bytes
(20_memory R42); a wider number is no request and is rejected by name (log 16). -/

namespace Sys2Proof

/-- `REQ[31:0]` (30_encoding R64). -/
def aField (w : Request) : Word := w.extractLsb' 0 32

/-- `REQ[63:32]` (30_encoding R64). -/
def bField (w : Request) : Word := w.extractLsb' 32 32

/-- `REQ[95:64]` (30_encoding R64). -/
def cField (w : Request) : Word := w.extractLsb' 64 32

/-- `REQ[99:96]` (30_encoding R64). -/
def opField (w : Request) : BitVec 4 := w.extractLsb' 96 4

/-- The request `{op, c, b, a}`, with `a` in the low bits (30_encoding R64; 92_eei_decisions D4). -/
def requestBits (op : BitVec 4) (a b c : Word) : Request := op ++ (c ++ (b ++ a))

/-- The operation a request selects, with the fields it reads: the map of 30_encoding R66 read on the four
bits of `op`, most significant first. Total: no request is reserved or illegal (R69). -/
def decode (w : Request) : Instr :=
  match w.getLsbD 99, w.getLsbD 98, w.getLsbD 97, w.getLsbD 96 with
  | false, false, false, false => .pack (aField w) (bField w) (cField w)
  | false, false, false, true => .unpack (aField w)
  | false, false, true, false => .add (aField w) (bField w)
  | false, false, true, true => .sub (aField w) (bField w)
  | false, true, false, false => .mul (aField w) (bField w)
  | false, true, false, true => .div (aField w) (bField w)
  | false, true, true, false => .sqrt (aField w)
  | false, true, true, true => .eq (aField w) (bField w)
  | true, false, false, false => .ne (aField w) (bField w)
  | true, false, false, true => .lt (aField w) (bField w)
  | true, false, true, false => .le (aField w) (bField w)
  | true, false, true, true => .gt (aField w) (bField w)
  | true, true, false, false => .ge (aField w) (bField w)
  | true, true, false, true => .isNan (aField w)
  | true, true, true, false => .toInt32 (aField w)
  | true, true, true, true => .fromInt32 (aField w)

/-- The operation number of each operation (30_encoding R66). -/
def Instr.op : Instr → BitVec 4
  | .pack _ _ _ => 0x0#4
  | .unpack _ => 0x1#4
  | .add _ _ => 0x2#4
  | .sub _ _ => 0x3#4
  | .mul _ _ => 0x4#4
  | .div _ _ => 0x5#4
  | .sqrt _ => 0x6#4
  | .eq _ _ => 0x7#4
  | .ne _ _ => 0x8#4
  | .lt _ _ => 0x9#4
  | .le _ _ => 0xA#4
  | .gt _ _ => 0xB#4
  | .ge _ _ => 0xC#4
  | .isNan _ => 0xD#4
  | .toInt32 _ => 0xE#4
  | .fromInt32 _ => 0xF#4

/-- The request that carries an operation, its unused fields 0 (30_encoding R64, R66, R71). -/
def encode : Instr → Request
  | .pack a b c => requestBits 0x0#4 a b c
  | .unpack a => requestBits 0x1#4 a 0 0
  | .add a b => requestBits 0x2#4 a b 0
  | .sub a b => requestBits 0x3#4 a b 0
  | .mul a b => requestBits 0x4#4 a b 0
  | .div a b => requestBits 0x5#4 a b 0
  | .sqrt a => requestBits 0x6#4 a 0 0
  | .eq a b => requestBits 0x7#4 a b 0
  | .ne a b => requestBits 0x8#4 a b 0
  | .lt a b => requestBits 0x9#4 a b 0
  | .le a b => requestBits 0xA#4 a b 0
  | .gt a b => requestBits 0xB#4 a b 0
  | .ge a b => requestBits 0xC#4 a b 0
  | .isNan a => requestBits 0xD#4 a 0 0
  | .toInt32 a => requestBits 0xE#4 a 0 0
  | .fromInt32 a => requestBits 0xF#4 a 0 0

/-- Why a number or a line is no request. -/
inductive DecodeError where
  /-- the number has a bit above bit 99: there is one request format, of 100 bits (30_encoding R64, R70) -/
  | notARequest
  /-- the line has not the operands its operation takes (30_encoding R71) -/
  | operandCount
  /-- an operand is no 32-bit value (30_encoding R71) -/
  | operandRange
  deriving DecidableEq, Repr

/-- Decoding of any number: the request it is, or the reason it is none. -/
def decodeNat (w : Nat) : Except DecodeError Instr :=
  if w < 2 ^ 100 then .ok (decode (BitVec.ofNat 100 w)) else .error .notARequest

/-- The number that an instruction's table bits stand for: every bit above `nbits` is 0. -/
def tableNumber (nbits w : Nat) : Nat := w % 2 ^ nbits

/-- The operation the decoder reads from an instruction whose bits are `w`, bit 0 the least significant. The
table's 100 bits fill 13 bytes less four bits, which no request has (log 16). -/
def decodeTableWord (nbits w : Nat) : Option Instr := (decodeNat (tableNumber nbits w)).toOption

/-- The request that a line of the assembler stands for: unused fields are 0 (30_encoding R71), a negative
operand contributes its two's complement (30_encoding R68). -/
def assemble (l : AsmLine) : Except DecodeError Request :=
  if l.operands.length ≠ asmArity l.op then .error .operandCount
  else if l.operands.all asmOperandInRange then
    .ok (requestBits l.op (BitVec.ofInt 32 (l.operands.getD 0 0)) (BitVec.ofInt 32 (l.operands.getD 1 0))
      (BitVec.ofInt 32 (l.operands.getD 2 0)))
  else .error .operandRange

end Sys2Proof
end

