-- ==== Sys2Proof/Config.lean ====
section
/-! DEFINITION. What an implementation fixes and the spec leaves open: the two OPEN parameters of the block
(00_scope R9), and the free values of the response fields an operation does not drive (10_state R23).
Every constant here that is `opaque` has no body: nothing can be proved about its value. -/

namespace Sys2Proof.Config

/-- Bit 31 of `DEFAULT_NAN`, unconstrained (00_scope R10; log 1). -/
opaque defaultNanSign : BitVec 1

/-- Bits 21..0 of `DEFAULT_NAN`, unconstrained (00_scope R10; log 1). -/
opaque defaultNanPayload : BitVec 22

/-- The OPEN parameter `DEFAULT_NAN`: any pattern whose bits 30..22 are all ones (00_scope R10; log 1). -/
def defaultNan : Word := defaultNanSign ++ (0x1FF#9 ++ defaultNanPayload)

/-- The OPEN parameter `LATENCY`: finite, possibly different per operation select, the same for all operand
values (70_reset R310). The model has no time, so nothing reads it (log 2). -/
opaque latency : BitVec 4 → Nat

/-- The free draw of the response field `r`, for the draw of the given number (10_state R23; log 3). -/
opaque freeR : Nat → Word

/-- The free draw of the response field `t` (10_state R23; log 3). -/
opaque freeT : Nat → BitVec 1

/-- The free draw of the response field `us` (10_state R23; log 3). -/
opaque freeUs : Nat → BitVec 1

/-- The free draw of the response field `ue` (10_state R23; log 3). -/
opaque freeUe : Nat → BitVec 8

/-- The free draw of the response field `uf` (10_state R23; log 3). -/
opaque freeUf : Nat → BitVec 23

end Sys2Proof.Config
end

