-- ==== Sys2Proof/Machine/State.lean ====
section
/-! DEFINITION. What the machine holds. The block itself holds nothing from one request to the next
(10_state R20): State holds its interface (the requests in flight and the response fields, R22, R23), the
requesters that use it (60_exceptions R283, R286), and two fields of the model's own: which agent moves next
and how many free draws have been taken. All of it is plain data. -/

namespace Sys2Proof.Machine

/-- The block has no fault state and raises no exception (60_exceptions R270, R273): there is no fault. -/
inductive Fault
  deriving DecidableEq, Repr

/-- Why a call has no meaning. Apart from `notModelled`, these are the refusals that 60_exceptions R273 and
92_eei_decisions D29 name, raised by an internal unit called outside its precondition. Every one is safe (the
call has no result), and no operation makes such a call. -/
inductive Refusal where
  /-- Raised by an arm of `exec` whose instruction has no meaning yet; safe. No arm raises it. -/
  | notModelled (mnemonic : String)
  /-- Raised by `packRaw` for fields out of range (40_codec R106); safe. -/
  | packRawFieldsOutOfRange
  /-- Raised by `normSubnormal` for a fraction that is 0 or has more than 23 bits (41_rounding R122); safe. -/
  | normSubnormalOutOfRange
  /-- Raised by `roundAndPack` outside P1 or P2 (41_rounding R124); safe. -/
  | roundAndPackPrecondition
  /-- Raised by `normRoundAndPack` for a significand that is 0 or at least 2^31 (41_rounding R131); safe. -/
  | normRoundAndPackPrecondition
  /-- Raised by `propagateNan` for two operands that are not NaNs (41_rounding R141); safe. -/
  | propagateNanWithoutNan
  deriving DecidableEq, Repr

/-- The names of the five response fields (10_state R23). -/
inductive ResponseField where
  | r
  | t
  | us
  | ue
  | uf
  deriving DecidableEq, Repr

/-- The response fields, with the widths of 10_state R23. -/
structure Response where
  r : Word
  t : BitVec 1
  us : BitVec 1
  ue : BitVec 8
  uf : BitVec 23
  deriving DecidableEq, Repr

/-- The response of draw number `k`, every field a free value (10_state R23, R32; log 3). -/
def drawResponse (k : Nat) : Response where
  r := Config.freeR k
  t := Config.freeT k
  us := Config.freeUs k
  ue := Config.freeUe k
  uf := Config.freeUf k

/-- An operand of a requester's step (60_exceptions R283: "constants or earlier responses"): a constant word,
or the value bound to a name plus a constant (the requester's own arithmetic, as in program P5; log 8). -/
inductive StepOperand where
  | word (w : Word)
  | bound (name : Nat) (plus : Word)
  deriving DecidableEq, Repr

/-- One step of a requester's program (60_exceptions R283; log 8). -/
inductive RequesterStep where
  /-- Issue the request `{op, c, b, a}` and bind each listed name to the listed field of its response. -/
  | issue (op : BitVec 4) (a b c : StepOperand) (into : List (ResponseField × Nat))
  /-- Bind a name to a value the requester already has. -/
  | assign (name : Nat) (v : StepOperand)
  /-- Go to step `target` if the value equals `is`, else to the next step. -/
  | branch (v : StepOperand) (is : Word) (target : Nat)
  /-- Reset the block. -/
  | reset
  /-- The program's end. -/
  | stop
  deriving DecidableEq, Repr

/-- A requester: whoever issues requests (60_exceptions R283). -/
structure Requester where
  /-- its program -/
  program : List RequesterStep
  /-- the step it is at; at or past the end, it has stopped -/
  pos : Nat
  /-- the names it has bound, with their values, names strictly rising -/
  names : List (Nat × Word)
  /-- the responses it has received, oldest first (70_reset R312) -/
  received : List Response
  deriving DecidableEq, Repr

/-- A request in flight (60_exceptions R283, 70_reset R301): who issued it (`none`: a requester whose program the
model does not hold), which names its response binds, and the request itself. -/
structure Pending where
  requester : Option Nat
  into : List (ResponseField × Nat)
  bits : Request
  deriving DecidableEq, Repr

/-- Whose move it is (log 6): the block's, requester `k`'s, or a reset from outside (70_reset R300). -/
inductive Turn where
  | block
  | requester (k : Nat)
  | reset
  deriving DecidableEq, Repr

/-- The state of the machine. -/
structure State where
  /-- requests issued and not answered, oldest first (60_exceptions R283, 20_memory R50) -/
  inFlight : List Pending
  /-- the response fields as last driven (10_state R23). The spec does not say how long they stay: DESIGN CHOICE, they
  stay until the next response or reset, whoever else moves (log 22) -/
  response : Response
  /-- the requesters (60_exceptions R283, R286) -/
  requesters : List Requester
  /-- the model's own: the agents that move next, in order; when empty, the default order of log 6 -/
  turns : List Turn
  /-- the model's own: the number of free draws taken so far (log 3) -/
  draws : Nat
  deriving DecidableEq, Repr

/-- The machine right after reset: nothing in flight (70_reset R305), no requester program (log 8), the response
fields unspecified (10_state R32, 70_reset R303; log 4). -/
def State.reset : State where
  inFlight := []
  response := drawResponse 0
  requesters := []
  turns := []
  draws := 1

end Sys2Proof.Machine
end

