-- ==== Sys2Proof/Machine/Operands.lean ====
section
/-! DEFINITION. How operands are read: the fields and the class of a binary32 pattern (30_encoding R60, R61;
40_codec R100, R104, R105), its exact value (40_codec R108), an int32 (30_encoding R68), and which response
fields each operation drives (30_encoding R67). -/

namespace Sys2Proof.Machine

/-- `s(x)`, bit 31 (30_encoding R60). -/
def signOf (x : Word) : BitVec 1 := x.extractLsb' 31 1

/-- `e(x)`, bits 30..23 (30_encoding R60). -/
def expOf (x : Word) : BitVec 8 := x.extractLsb' 23 8

/-- `f(x)`, bits 22..0 (30_encoding R60). -/
def fracOf (x : Word) : BitVec 23 := x.extractLsb' 0 23

/-- `e(x)` as a number. -/
def expNat (x : Word) : Nat := (expOf x).toNat

/-- `f(x)` as a number. -/
def fracNat (x : Word) : Nat := (fracOf x).toNat

/-- 40_codec R100: the three fields of a pattern. -/
def unpackFields (x : Word) : BitVec 1 × BitVec 8 × BitVec 23 := (signOf x, expOf x, fracOf x)

/-- 40_codec R105. -/
def isZero (x : Word) : Bool := expNat x == 0 && fracNat x == 0

/-- 40_codec R105. -/
def isSubnormal (x : Word) : Bool := expNat x == 0 && fracNat x != 0

/-- 40_codec R105. -/
def isNormal (x : Word) : Bool := decide (0 < expNat x) && decide (expNat x < 0xFF)

/-- 40_codec R105. -/
def isInf (x : Word) : Bool := expNat x == 0xFF && fracNat x == 0

/-- 40_codec R105. -/
def isNaN (x : Word) : Bool := expNat x == 0xFF && fracNat x != 0

/-- 40_codec R105. -/
def isFinite (x : Word) : Bool := expNat x != 0xFF

/-- 40_codec R104: exponent all ones, quiet bit clear, a bit of 21..0 set. -/
def isSignaling (x : Word) : Bool :=
  expNat x == 0xFF && !x.getLsbD 22 && x.extractLsb' 0 22 != 0#22

/-- The classes of 30_encoding R61. -/
inductive FloatClass where
  | zero
  | subnormal
  | normal
  | infinity
  | quietNaN
  | signalingNaN
  deriving DecidableEq, Repr

/-- The one class of a pattern (30_encoding R61). -/
def classify (x : Word) : FloatClass :=
  if expNat x = 0 then (if fracNat x = 0 then .zero else .subnormal)
  else if expNat x < 0xFF then .normal
  else if fracNat x = 0 then .infinity
  else if x.getLsbD 22 then .quietNaN
  else .signalingNaN

/-- `|val(x)|` of a finite pattern, in units of 2^-149, in which every finite binary32 value is a whole number
(40_codec R108: f × 2^-149 for a zero or a subnormal, (2^23 + f) × 2^(e-150) for a normal; log 12). -/
def magUnits (x : Word) : Nat :=
  if expNat x = 0 then fracNat x else (2 ^ 23 + fracNat x) * 2 ^ (expNat x - 1)

/-- `val(x)` of a finite pattern, in units of 2^-149 (40_codec R108; log 12). -/
def units (x : Word) : Int := if signOf x = 1#1 then -(magUnits x : Int) else magUnits x

/-- How many units of 2^-149 make 1. -/
def unitsPerOne : Nat := 2 ^ 149

/-- FROM_INT32's operand, `n = a - 2^32 × a[31]` (30_encoding R68). -/
def int32Of (a : Word) : Int := (a.toNat : Int) - 2 ^ 32 * (if a.getLsbD 31 then 1 else 0)

/-- TO_INT32's result, `r = n mod 2^32` (30_encoding R68). -/
def int32Word (n : Int) : Word := BitVec.ofInt 32 n

/-- The response fields an operation drives (30_encoding R67). -/
def drives : Instr → List ResponseField
  | .pack _ _ _ => [.r]
  | .unpack _ => [.us, .ue, .uf]
  | .add _ _ => [.r]
  | .sub _ _ => [.r]
  | .mul _ _ => [.r]
  | .div _ _ => [.r]
  | .sqrt _ => [.r]
  | .eq _ _ => [.t]
  | .ne _ _ => [.t]
  | .lt _ _ => [.t]
  | .le _ _ => [.t]
  | .gt _ _ => [.t]
  | .ge _ _ => [.t]
  | .isNan _ => [.t]
  | .toInt32 _ => [.r]
  | .fromInt32 _ => [.r]

/-- Whether an operation, by its number, reads the request field `b` (30_encoding R67). -/
def readsB (op : BitVec 4) : Bool :=
  op != 0x1#4 && op != 0x6#4 && op != 0xD#4 && op != 0xE#4 && op != 0xF#4

/-- Whether an operation, by its number, reads the request field `c`: only PACK does (10_state R22, 30_encoding R67). -/
def readsC (op : BitVec 4) : Bool := op == 0x0#4

/-- A response field as the word a requester reads: a field narrower than 32 bits is zero-extended (log 20). -/
def Response.get (x : Response) : ResponseField → Word
  | .r => x.r
  | .t => x.t.zeroExtend 32
  | .us => x.us.zeroExtend 32
  | .ue => x.ue.zeroExtend 32
  | .uf => x.uf.zeroExtend 32

/-- The response vector `RSP[64:0]` (30_encoding R65). -/
def Response.toBits (x : Response) : BitVec 65 := x.uf ++ (x.ue ++ (x.us ++ (x.t ++ x.r)))

end Sys2Proof.Machine
end

