-- ==== Sys2Proof/Machine/Ops.lean ====
section
/-! DEFINITION. The operations the meanings share: building a pattern (40_codec R106, R107), rounding an exact
magnitude to nearest even (41_rounding R126), choosing a NaN result (R140, R141), the invalid operation (R143),
and driving the response fields (10_state R23). Exact magnitudes are fractions of two naturals (log 12). -/

namespace Sys2Proof.Machine

/-! ### Patterns -/

/-- `s << 31`: the zero of sign `s`. -/
def signedZero (s : BitVec 1) : Word := s.zeroExtend 32 <<< 31

/-- `(s << 31) | 0x7F800000`: the infinity of sign `s`. -/
def signedInf (s : BitVec 1) : Word := signedZero s ||| 0x7F800000#32

/-- The OR of three fields already in range (40_codec R106). -/
def pattern (s : BitVec 1) (E F : Nat) : Word :=
  signedZero s ||| (BitVec.ofNat 32 E <<< 23) ||| BitVec.ofNat 32 F

/-- `pack_masked(s, E, F)` (40_codec R107). -/
def packMasked (s E F : Word) : Word :=
  ((s &&& 1#32) <<< 31) ||| ((E &&& 0xFF#32) <<< 23) ||| (F &&& 0x7FFFFF#32)

/-! ### Rounding an exact magnitude -/

/-- `floor(log2(num / den))`, for `num` and `den` above 0. -/
def floorLog2 (num den : Nat) : Int :=
  let k : Int := (Nat.log2 num : Int) - (Nat.log2 den : Int)
  if den * 2 ^ k.toNat ≤ num * 2 ^ (-k).toNat then k else k - 1

/-- The numerator of `(num / den) / 2^t`, whose denominator is `scaledDen den t`. -/
def scaledNum (num : Nat) (t : Int) : Nat := num * 2 ^ (-t).toNat

/-- The denominator of `(num / den) / 2^t`. -/
def scaledDen (den : Nat) (t : Int) : Nat := den * 2 ^ t.toNat

/-- `rne_int(num / den)` of a magnitude, `den` above 0 (41_rounding R126). -/
def rneNat (num den : Nat) : Nat :=
  if 2 * (num % den) < den then num / den
  else if den < 2 * (num % den) then num / den + 1
  else if num / den % 2 = 0 then num / den
  else num / den + 1

/-- `rne_int(num / den)` of a signed rational, `den` above 0 (41_rounding R126): `/` here is the floor. -/
def rneInt (num : Int) (den : Nat) : Int :=
  if 2 * (num - num / den * den) < den then num / den
  else if den < 2 * (num - num / den * den) then num / den + 1
  else if num / den % 2 = 0 then num / den
  else num / den + 1

/-- The last four lines of `RoundRNE` (41_rounding R126): the pattern of `n × 2^(E-23)`. -/
def assembleRounded (s : BitVec 1) (E : Int) (n : Nat) : Word :=
  if n = 0 then signedZero s
  else if n = 2 ^ 24 then pattern s (E + 1 + 127).toNat 0
  else if n < 2 ^ 23 then pattern s 0 n
  else pattern s (E + 127).toNat (n - 2 ^ 23)

/-- The overflow threshold `2^128 - 2^103` (41_rounding R126). -/
def overflowThreshold : Nat := 2 ^ 128 - 2 ^ 103

/-- `RoundRNE(s, num / den)`, `den` above 0 (41_rounding R126). -/
def roundRNE (s : BitVec 1) (num den : Nat) : Word :=
  if num = 0 then signedZero s
  else if overflowThreshold * den ≤ num then signedInf s
  else
    let E := max (floorLog2 num den) (-126)
    assembleRounded s E (rneNat (scaledNum num (E - 23)) (scaledDen den (E - 23)))

/-! ### The exact square root -/

/-- The greatest integer whose square is at most `x`, found bit by bit: `k` bits are still to be decided and
`acc` is the root so far. -/
def isqrtBits (x : Nat) : Nat → Nat → Nat
  | 0, acc => acc
  | k + 1, acc => if (acc + 2 ^ k) * (acc + 2 ^ k) ≤ x then isqrtBits x k (acc + 2 ^ k) else isqrtBits x k acc

/-- `isqrt(x)`, the greatest integer q with q × q at most x (45_fp_sqrt R216). -/
def isqrt (x : Nat) : Nat := isqrtBits x (Nat.log2 x / 2 + 1) 0

/-- `rne_int(sqrt(num / den))`, exact, `den` above 0: the root `m` rounded down, and the comparison of
`num / den` with `(m + 1/2)^2` (41_rounding R126; log 13). -/
def rneSqrt (num den : Nat) : Nat :=
  let m := isqrt (num / den)
  if 4 * num < (2 * m + 1) * (2 * m + 1) * den then m
  else if (2 * m + 1) * (2 * m + 1) * den < 4 * num then m + 1
  else if m % 2 = 0 then m
  else m + 1

/-- `RoundRNE(s, sqrt(num / den))`, the exact real root rounded once, `den` above 0 (41_rounding R126,
45_fp_sqrt R215; log 13). -/
def roundSqrtRNE (s : BitVec 1) (num den : Nat) : Word :=
  if num = 0 then signedZero s
  else if overflowThreshold * overflowThreshold * den ≤ num then signedInf s
  else
    let E := max (floorLog2 num den / 2) (-126)
    assembleRounded s E (rneSqrt (scaledNum num (2 * (E - 23))) (scaledDen den (2 * (E - 23))))

/-! ### NaN results -/

/-- `quiet(x) = x | 0x00400000` (41_rounding R140). -/
def quiet (x : Word) : Word := x ||| 0x00400000#32

/-- `x & 0x7FFFFFFF`, the 31 non-sign bits as an unsigned number (41_rounding R141, 46_fp_comparator R231). -/
def mag (x : Word) : Nat := (x &&& 0x7FFFFFFF#32).toNat

/-- The choice that `propagate_nan(a, b)` makes (41_rounding R141); its callers have seen that `a` or `b` is a
NaN. The unit with its precondition is `propagateNan` (log 14). -/
def nanChoice (a b : Word) : Word :=
  if isSignaling a && !isSignaling b then quiet a
  else if isSignaling b && !isSignaling a then quiet b
  else if mag (quiet b) < mag (quiet a) then quiet a
  else if mag (quiet a) < mag (quiet b) then quiet b
  else if (quiet a).toNat ≤ (quiet b).toNat then quiet a
  else quiet b

/-- The response of every invalid operation (41_rounding R143, 60_exceptions R271): the block traps nowhere, saves
nothing and goes nowhere (R270, R276); the default NaN is all that happens. -/
def invalidResult : Word := Config.defaultNan

/-! ### Driving the response -/

/-- Answer with the field `r`. Every field not driven is a fresh free draw (10_state R23; log 3). -/
def driveR (w : Word) (s : State) : Host.Outcome State Fault Refusal :=
  .next { s with response := { drawResponse s.draws with r := w }, draws := s.draws + 1 }

/-- Answer with the field `t`, 1 for true (10_state R23; 92_eei_decisions D23). -/
def driveT (v : Bool) (s : State) : Host.Outcome State Fault Refusal :=
  .next { s with response := { drawResponse s.draws with t := BitVec.ofBool v }, draws := s.draws + 1 }

/-- Answer with the fields `us`, `ue` and `uf` (10_state R23; 92_eei_decisions D25). -/
def driveFields (us : BitVec 1) (ue : BitVec 8) (uf : BitVec 23) (s : State) : Host.Outcome State Fault Refusal :=
  .next { s with response := { drawResponse s.draws with us := us, ue := ue, uf := uf }, draws := s.draws + 1 }

end Sys2Proof.Machine
end

