-- ==== Sys2Proof/Machine/Adder.lean ====
section
/-! DEFINITION. The fp_adder unit: ADD and SUB by their value rules, which are normative (42_fp_adder R170, R171;
00_scope R6; log 11). The reference datapath is in Machine/Datapath.lean. -/

namespace Sys2Proof.Machine

/-- `RoundRNE(1 if q < 0 else 0, |q|)`, for `q` units of 2^-149 (42_fp_adder R170). -/
def roundUnits (q : Int) : Word := roundRNE (if q < 0 then 1#1 else 0#1) q.natAbs unitsPerOne

/-- The value rule of ADD (42_fp_adder R170). -/
def addValue (a b : Word) : Word :=
  if isNaN a || isNaN b then nanChoice a b
  else if isInf a && isInf b then (if signOf a = signOf b then a else invalidResult)
  else if isInf a then a
  else if isInf b then b
  else if units a + units b = 0 then
    (if signOf a = 1#1 ∧ signOf b = 1#1 then 0x80000000#32 else 0x00000000#32)
  else roundUnits (units a + units b)

/-- The value rule of SUB; a NaN `b` propagates as given (42_fp_adder R171). -/
def subValue (a b : Word) : Word :=
  if isNaN a || isNaN b then nanChoice a b
  else if isInf a && isInf b then (if signOf a ≠ signOf b then a else invalidResult)
  else if isInf a then a
  else if isInf b then b ^^^ 0x80000000#32
  else if units a - units b = 0 then
    (if signOf a = 1#1 ∧ signOf b = 0#1 then 0x80000000#32 else 0x00000000#32)
  else roundUnits (units a - units b)

/-- ADD (42_fp_adder R170). -/
def execAdd (a b : Word) (s : State) : Host.Outcome State Fault Refusal := driveR (addValue a b) s

/-- SUB (42_fp_adder R171). -/
def execSub (a b : Word) (s : State) : Host.Outcome State Fault Refusal := driveR (subValue a b) s

end Sys2Proof.Machine
end

