-- ==== Sys2Proof/Machine/Codec.lean ====
section
/-! DEFINITION. The bit-field codec and classifier: PACK, UNPACK, IS_NAN (40_codec R101, R102, R103). -/

namespace Sys2Proof.Machine

/-- PACK (40_codec R101): `r <- pack_masked(a[0], b, c)`. -/
def execPack (a b c : Word) (s : State) : Host.Outcome State Fault Refusal := driveR (packMasked a b c) s

/-- UNPACK (40_codec R102): the three fields of `a`, payload and sign unchanged. -/
def execUnpack (a : Word) (s : State) : Host.Outcome State Fault Refusal :=
  driveFields (signOf a) (expOf a) (fracOf a) s

/-- IS_NAN (40_codec R103): exponent all ones and fraction nonzero. -/
def execIsNan (a : Word) (s : State) : Host.Outcome State Fault Refusal := driveT (isNaN a) s

end Sys2Proof.Machine
end

