-- ==== Sys2Proof/Machine/Divider.lean ====
section
/-! DEFINITION. The fp_divider unit: DIV by its value rule (44_fp_divider R200; 00_scope R6; log 11). -/

namespace Sys2Proof.Machine

/-- The value rule of DIV (44_fp_divider R200); the quotient of two magnitudes in the same units is exact. -/
def divValue (a b : Word) : Word :=
  if isNaN a || isNaN b then nanChoice a b
  else if isInf a && isInf b then invalidResult
  else if isInf a then signedInf (signOf a ^^^ signOf b)
  else if isInf b then signedZero (signOf a ^^^ signOf b)
  else if isZero b then (if isZero a then invalidResult else signedInf (signOf a ^^^ signOf b))
  else if isZero a then signedZero (signOf a ^^^ signOf b)
  else roundRNE (signOf a ^^^ signOf b) (magUnits a) (magUnits b)

/-- DIV (44_fp_divider R200). -/
def execDiv (a b : Word) (s : State) : Host.Outcome State Fault Refusal := driveR (divValue a b) s

end Sys2Proof.Machine
end

