-- ==== Sys2Proof/Machine/Multiplier.lean ====
section
/-! DEFINITION. The fp_multiplier unit: MUL by its value rule (43_fp_multiplier R190; 00_scope R6; log 11). -/

namespace Sys2Proof.Machine

/-- The value rule of MUL (43_fp_multiplier R190); the product is exact, in units of 2^-298. -/
def mulValue (a b : Word) : Word :=
  if isNaN a || isNaN b then nanChoice a b
  else if isInf a || isInf b then
    (if isZero a || isZero b then invalidResult else signedInf (signOf a ^^^ signOf b))
  else if isZero a || isZero b then signedZero (signOf a ^^^ signOf b)
  else roundRNE (signOf a ^^^ signOf b) (magUnits a * magUnits b) (unitsPerOne * unitsPerOne)

/-- MUL (43_fp_multiplier R190). -/
def execMul (a b : Word) (s : State) : Host.Outcome State Fault Refusal := driveR (mulValue a b) s

end Sys2Proof.Machine
end

