-- ==== Sys2Proof/Machine/Sqrt.lean ====
section
/-! DEFINITION. The fp_sqrt unit: SQRT by its value rule (45_fp_sqrt R215; 00_scope R6; log 11). -/

namespace Sys2Proof.Machine

/-- The value rule of SQRT (45_fp_sqrt R215): the exact real square root, rounded once. -/
def sqrtValue (a : Word) : Word :=
  if isNaN a then quiet a
  else if isZero a then a
  else if signOf a = 1#1 then invalidResult
  else if isInf a then a
  else roundSqrtRNE 0#1 (magUnits a) unitsPerOne

/-- SQRT (45_fp_sqrt R215). -/
def execSqrt (a : Word) (s : State) : Host.Outcome State Fault Refusal := driveR (sqrtValue a) s

end Sys2Proof.Machine
end

