-- ==== Sys2Proof/Machine/Flags.lean ====
section
/-! DEFINITION. The block keeps no flags (10_state R27). What it computes of the kind is here: the boolean
relations of the comparator (46_fp_comparator R230 to R237), and the IEEE conditions of 60_exceptions R271, which
arise in a request, shape its response and are reported nowhere. -/

namespace Sys2Proof.Machine

/-! ### The comparator's relations -/

/-- `((a | b) << 1) mod 2^32 = 0`: each of `a` and `b` is a zero (46_fp_comparator R231). -/
def bothZero (a b : Word) : Bool := (a ||| b) <<< 1 == 0#32

/-- `before(a, b)`, for `a` and `b` of equal sign (46_fp_comparator R231). -/
def before (a b : Word) : Bool :=
  if signOf a = 0#1 then decide (mag a < mag b) else decide (mag b < mag a)

/-- EQ without its NaN branch (46_fp_comparator R232). -/
def eqBits (a b : Word) : Bool := a == b || bothZero a b

/-- LT without its NaN branch (46_fp_comparator R234). -/
def ltBits (a b : Word) : Bool :=
  if signOf a ≠ signOf b then decide (signOf a = 1#1) && !bothZero a b else before a b

/-- LE without its NaN branch (46_fp_comparator R235). -/
def leBits (a b : Word) : Bool :=
  if signOf a ≠ signOf b then decide (signOf a = 1#1) || bothZero a b
  else decide (mag a = mag b) || before a b

/-- Every comparison is false when an operand is a NaN; that test comes first (46_fp_comparator R230). -/
def unlessNaN (a b : Word) (v : Bool) : Bool := if isNaN a || isNaN b then false else v

/-! ### The conditions of 60_exceptions R271 -/

/-- The rows of the table of 60_exceptions R271. -/
inductive Condition where
  | invalidOperation
  | invalidConversion
  | signalingOperand
  | divisionByZero
  | overflow
  | underflow
  | inexact
  | nanComparison
  deriving DecidableEq, Repr

/-- The operands of an operation that are binary32 patterns (30_encoding R67). -/
def floatOperands : Instr → List Word
  | .pack _ _ _ => []
  | .unpack a => [a]
  | .add a b => [a, b]
  | .sub a b => [a, b]
  | .mul a b => [a, b]
  | .div a b => [a, b]
  | .sqrt a => [a]
  | .eq a b => [a, b]
  | .ne a b => [a, b]
  | .lt a b => [a, b]
  | .le a b => [a, b]
  | .gt a b => [a, b]
  | .ge a b => [a, b]
  | .isNan a => [a]
  | .toInt32 a => [a]
  | .fromInt32 _ => []

/-- The operations of arithmetic: those whose NaN results the block makes itself (41_rounding R140). -/
def isArithmetic : Instr → Bool
  | .pack _ _ _ => false
  | .unpack _ => false
  | .add _ _ => true
  | .sub _ _ => true
  | .mul _ _ => true
  | .div _ _ => true
  | .sqrt _ => true
  | .eq _ _ => false
  | .ne _ _ => false
  | .lt _ _ => false
  | .le _ _ => false
  | .gt _ _ => false
  | .ge _ _ => false
  | .isNan _ => false
  | .toInt32 _ => false
  | .fromInt32 _ => false

/-- The six comparisons. -/
def isComparison : Instr → Bool
  | .pack _ _ _ => false
  | .unpack _ => false
  | .add _ _ => false
  | .sub _ _ => false
  | .mul _ _ => false
  | .div _ _ => false
  | .sqrt _ => false
  | .eq _ _ => true
  | .ne _ _ => true
  | .lt _ _ => true
  | .le _ _ => true
  | .gt _ _ => true
  | .ge _ _ => true
  | .isNan _ => false
  | .toInt32 _ => false
  | .fromInt32 _ => false

/-- Some operand of the operation is a NaN. -/
def hasNaNOperand (i : Instr) : Bool := (floatOperands i).any isNaN

/-- The invalid operations of 41_rounding R143: effective subtraction of two infinities, infinity times zero, 0/0,
infinity over infinity, and the root of a value below zero other than -0. A NaN operand is never one of them. -/
def invalidOperation : Instr → Bool
  | .pack _ _ _ => false
  | .unpack _ => false
  | .add a b => isInf a && isInf b && signOf a != signOf b
  | .sub a b => isInf a && isInf b && signOf a == signOf b
  | .mul a b => (isInf a && isZero b) || (isZero a && isInf b)
  | .div a b => (isInf a && isInf b) || (isZero a && isZero b)
  | .sqrt a => signOf a == 1#1 && !isNaN a && !isZero a
  | .eq _ _ => false
  | .ne _ _ => false
  | .lt _ _ => false
  | .le _ _ => false
  | .gt _ _ => false
  | .ge _ _ => false
  | .isNan _ => false
  | .toInt32 _ => false
  | .fromInt32 _ => false

/-- The exact magnitude that an operation rounds with `RoundRNE`, as a fraction, when it reaches that step
(42_fp_adder R170, R171, 43_fp_multiplier R190, 44_fp_divider R200, 47_int_conversion R255). SQRT, whose exact
result is no fraction, never overflows or underflows (45_fp_sqrt R215). -/
def exactMagnitude : Instr → Option (Nat × Nat)
  | .pack _ _ _ => none
  | .unpack _ => none
  | .add a b => if isFinite a && isFinite b then some ((units a + units b).natAbs, unitsPerOne) else none
  | .sub a b => if isFinite a && isFinite b then some ((units a - units b).natAbs, unitsPerOne) else none
  | .mul a b =>
    if isFinite a && isFinite b then some (magUnits a * magUnits b, unitsPerOne * unitsPerOne) else none
  | .div a b =>
    if isFinite a && isFinite b && !isZero b then some (magUnits a, magUnits b) else none
  | .sqrt _ => none
  | .eq _ _ => none
  | .ne _ _ => none
  | .lt _ _ => none
  | .le _ _ => none
  | .gt _ _ => none
  | .ge _ _ => none
  | .isNan _ => none
  | .toInt32 _ => none
  | .fromInt32 a => some ((int32Of a).natAbs, 1)

/-- `num / den` is at least the overflow threshold (60_exceptions R271). -/
def overflows (num den : Nat) : Bool := decide (overflowThreshold * den ≤ num)

/-- The exponent of `num / den`, not 0, rounded to the nearest even significand of 24 bits with no bound on the exponent;
the significand `2^24` is a rounding that carried out (41_rounding R126). -/
def roundedExponent (num den : Nat) : Int :=
  let E := floorLog2 num den
  if rneNat (scaledNum num (E - 23)) (scaledDen den (E - 23)) = 2 ^ 24 then E + 1 else E

/-- `num / den` is not 0, and rounded it is below 2^-126 (60_exceptions R271): tininess is detected after rounding
(10_state R21, 00_scope R9). PRESUMED: "after rounding" is IEEE-754's, with no bound on the exponent (log 25). -/
def underflows (num den : Nat) : Bool := decide (num ≠ 0) && decide (roundedExponent num den < -126)

/-- The rounded result is not `num / den` itself: it overflows, or no binary32 magnitude is equal to it
(60_exceptions R271). -/
def roundsInexactly (num den : Nat) : Bool :=
  overflows num den || decide (magUnits (roundRNE 0#1 num den) * den ≠ num * unitsPerOne)

/-- Whether a condition arises in an operation (60_exceptions R271). -/
def arises (i : Instr) : Condition → Bool
  | .invalidOperation => invalidOperation i
  | .invalidConversion =>
    match i with
    | .toInt32 a =>
      isNaN a || isInf a || decide (rneInt (units a) unitsPerOne < -2 ^ 31)
        || decide (2 ^ 31 ≤ rneInt (units a) unitsPerOne)
    | _ => false
  | .signalingOperand => isArithmetic i && (floatOperands i).any isSignaling
  | .divisionByZero =>
    match i with
    | .div a b => isFinite a && !isZero a && isZero b
    | _ => false
  | .overflow => (exactMagnitude i).any fun q => overflows q.1 q.2
  | .underflow => (exactMagnitude i).any fun q => underflows q.1 q.2
  | .inexact =>
    match i with
    | .sqrt a =>
      isFinite a && !isZero a && signOf a == 0#1
        && decide (magUnits (sqrtValue a) * magUnits (sqrtValue a) ≠ magUnits a * unitsPerOne)
    | .toInt32 a =>
      isFinite a && decide (rneInt (units a) unitsPerOne * unitsPerOne ≠ units a)
    | _ => (exactMagnitude i).any fun q => roundsInexactly q.1 q.2
  | .nanComparison => isComparison i && hasNaNOperand i

end Sys2Proof.Machine
end

