-- ==== Sys2Proof/Machine/Comparator.lean ====
section
/-! DEFINITION. The fp_comparator unit: EQ, NE, LT, LE, GT, GE (46_fp_comparator R232 to R237). The bit-level rule
is the source's own. -/

namespace Sys2Proof.Machine

/-- EQ (46_fp_comparator R232). -/
def execEq (a b : Word) (s : State) : Host.Outcome State Fault Refusal := driveT (unlessNaN a b (eqBits a b)) s

/-- NE (46_fp_comparator R233): false under a NaN, so not the negation of EQ there. -/
def execNe (a b : Word) (s : State) : Host.Outcome State Fault Refusal := driveT (unlessNaN a b (!eqBits a b)) s

/-- LT (46_fp_comparator R234). -/
def execLt (a b : Word) (s : State) : Host.Outcome State Fault Refusal := driveT (unlessNaN a b (ltBits a b)) s

/-- LE (46_fp_comparator R235). -/
def execLe (a b : Word) (s : State) : Host.Outcome State Fault Refusal := driveT (unlessNaN a b (leBits a b)) s

/-- GT (46_fp_comparator R236): not LE, the NaN test first. -/
def execGt (a b : Word) (s : State) : Host.Outcome State Fault Refusal := driveT (unlessNaN a b (!leBits a b)) s

/-- GE (46_fp_comparator R237): not LT, the NaN test first. -/
def execGe (a b : Word) (s : State) : Host.Outcome State Fault Refusal := driveT (unlessNaN a b (!ltBits a b)) s

end Sys2Proof.Machine
end

