-- ==== Sys2Proof/Machine/IntConvert.lean ====
section
/-! DEFINITION. The fp_to_int_converter and the int_to_fp_converter: TO_INT32 and FROM_INT32 by their value rules
(47_int_conversion R250, R255; 00_scope R6; log 11). -/

namespace Sys2Proof.Machine

/-- `clamp(x, lo, hi)` (47_int_conversion R250). -/
def clampInt (x lo hi : Int) : Int := if x < lo then lo else if hi < x then hi else x

/-- The integer of TO_INT32's value rule (47_int_conversion R250). -/
def toInt32Int (a : Word) : Int :=
  if isNaN a then 2 ^ 31 - 1
  else if isInf a then (if signOf a = 1#1 then -2 ^ 31 else 2 ^ 31 - 1)
  else clampInt (rneInt (units a) unitsPerOne) (-2 ^ 31) (2 ^ 31 - 1)

/-- The value rule of TO_INT32 (47_int_conversion R250). -/
def toInt32Value (a : Word) : Word := int32Word (toInt32Int a)

/-- The value rule of FROM_INT32 (47_int_conversion R255). -/
def fromInt32Value (a : Word) : Word :=
  if int32Of a = 0 then 0x00000000#32
  else roundRNE (if int32Of a < 0 then 1#1 else 0#1) (int32Of a).natAbs 1

/-- TO_INT32 (47_int_conversion R250). -/
def execToInt32 (a : Word) (s : State) : Host.Outcome State Fault Refusal := driveR (toInt32Value a) s

/-- FROM_INT32 (47_int_conversion R255). -/
def execFromInt32 (a : Word) (s : State) : Host.Outcome State Fault Refusal := driveR (fromInt32Value a) s

end Sys2Proof.Machine
end

