-- ==== Sys2Proof/Machine/Dispatch.lean ====
section
/-! DEFINITION. The meaning of each operation: one arm for each constructor, in the order of 30_encoding R66. -/

namespace Sys2Proof.Machine

def exec (i : Instr) (s : State) : Host.Outcome State Fault Refusal :=
  match i with
  | .pack a b c => Sys2Proof.Machine.execPack a b c s
  | .unpack a => Sys2Proof.Machine.execUnpack a s
  | .add a b => Sys2Proof.Machine.execAdd a b s
  | .sub a b => Sys2Proof.Machine.execSub a b s
  | .mul a b => Sys2Proof.Machine.execMul a b s
  | .div a b => Sys2Proof.Machine.execDiv a b s
  | .sqrt a => Sys2Proof.Machine.execSqrt a s
  | .eq a b => Sys2Proof.Machine.execEq a b s
  | .ne a b => Sys2Proof.Machine.execNe a b s
  | .lt a b => Sys2Proof.Machine.execLt a b s
  | .le a b => Sys2Proof.Machine.execLe a b s
  | .gt a b => Sys2Proof.Machine.execGt a b s
  | .ge a b => Sys2Proof.Machine.execGe a b s
  | .isNan a => Sys2Proof.Machine.execIsNan a s
  | .toInt32 a => Sys2Proof.Machine.execToInt32 a s
  | .fromInt32 a => Sys2Proof.Machine.execFromInt32 a s

end Sys2Proof.Machine
end

