-- ==== Sys2Proof/Machine/System.lean ====
section
/-! DEFINITION. The turns of the machine's agents (60_exceptions R283): the block answers the oldest request in
flight, a requester takes one step of its program, or a reset comes from outside. -/

namespace Sys2Proof.Machine

/-! ### A requester's names -/

/-- The word bound to a name. -/
def lookupName (n : Nat) : List (Nat × Word) → Option Word
  | [] => none
  | (m, w) :: rest => if m = n then some w else lookupName n rest

/-- Bind a name, names strictly rising. -/
def bindName (n : Nat) (w : Word) : List (Nat × Word) → List (Nat × Word)
  | [] => [(n, w)]
  | (m, v) :: rest =>
    if n < m then (n, w) :: (m, v) :: rest
    else if n = m then (n, w) :: rest
    else (m, v) :: bindName n w rest

/-- Unbind a name: its response has not arrived yet (70_reset R306; log 9). -/
def unbindName (n : Nat) (names : List (Nat × Word)) : List (Nat × Word) := names.filter fun b => b.1 != n

/-- Unbind every name a request will bind (log 9). -/
def unbindAll (into : List (ResponseField × Nat)) (names : List (Nat × Word)) : List (Nat × Word) :=
  into.foldl (fun ns d => unbindName d.2 ns) names

/-- Bind names to fields of a response (30_encoding R71). -/
def bindAll (x : Response) (into : List (ResponseField × Nat)) (names : List (Nat × Word)) : List (Nat × Word) :=
  into.foldl (fun ns d => bindName d.2 (x.get d.1) ns) names

/-- The value of an operand, `none` while a name it uses is not bound (70_reset R306; log 9). -/
def evalOperand (names : List (Nat × Word)) : StepOperand → Option Word
  | .word w => some w
  | .bound n plus => (lookupName n names).map (· + plus)

/-! ### The block's turn -/

/-- A younger request in flight of requester `k` binds the same name, so this response does not (log 9). -/
def supersededBy (younger : List Pending) (k n : Nat) : Bool :=
  younger.any fun p => p.requester == some k && p.into.any fun d => d.2 == n

/-- A requester takes a response: it holds it, and its names are bound (60_exceptions R283, 20_memory R50), but for a
name that a younger request in flight binds (log 9). DESIGN CHOICE: a value assigned to the name since the request was
issued is overwritten (log 23). -/
def receive (younger : List Pending) (k : Nat) (into : List (ResponseField × Nat)) (x : Response) (q : Requester) :
    Requester :=
  { q with
    names := bindAll x (into.filter fun d => !supersededBy younger k d.2) q.names
    received := q.received ++ [x] }

/-- Give the response fields to the requester of the request they answer (20_memory R50). -/
def deliver (p : Pending) (s : State) : State :=
  match p.requester with
  | none => s
  | some k => { s with requesters := s.requesters.modify k (receive s.inFlight k p.into s.response) }

/-- The outcome with the response delivered. -/
def delivered (p : Pending) : Host.Outcome State Fault Refusal → Host.Outcome State Fault Refusal
  | .next s => .next (deliver p s)
  | .fault r => .fault r
  | .refused r => .refused r

/-- The block's turn: it answers the oldest request in flight (20_memory R50; log 5), and does nothing when there
is none (10_state R20; log 7). -/
def blockTurn (s : State) : Host.Outcome State Fault Refusal :=
  match s.inFlight with
  | [] => .next s
  | p :: rest => delivered p (exec (decode p.bits) { s with inFlight := rest })

/-! ### Reset -/

/-- Reset of the block (70_reset R300, R301, R303; log 10): no request in flight gets a response, and the response
fields are unspecified again. The requesters keep what they hold. -/
def resetBlock (s : State) : State :=
  { s with inFlight := [], response := drawResponse s.draws, draws := s.draws + 1 }

/-! ### A requester's turn -/

/-- The state with requester `k` replaced. -/
def setRequester (k : Nat) (q : Requester) (s : State) : State := { s with requesters := s.requesters.set k q }

/-- Issue a request: all four fields together (20_memory R45), behind those in flight; the names it will bind are
unbound until then (log 9). DESIGN CHOICE: the response fields keep what they hold (log 22). -/
def issueRequest (k : Nat) (q : Requester) (bits : Request) (into : List (ResponseField × Nat)) (s : State) : State :=
  setRequester k { q with pos := q.pos + 1, names := unbindAll into q.names }
    { s with inFlight := s.inFlight ++ [{ requester := some k, into := into, bits := bits }] }

/-- The step that requester `q`, number `k`, takes; `none` when it cannot move: it has stopped, or it waits for the
response that will bind a name it uses (60_exceptions R283, 70_reset R306). DESIGN CHOICE: but for a reset, a move leaves
the response fields what they hold (log 22). DESIGN CHOICE: an assignment binds its name at once, also when a request in
flight will bind the same name, whose response then overwrites it (log 23). -/
def requesterMove (k : Nat) (q : Requester) (s : State) : Option State :=
  match q.program[q.pos]? with
  | none => none
  | some (.issue op a b c into) =>
    match evalOperand q.names a, evalOperand q.names b, evalOperand q.names c with
    | some va, some vb, some vc => some (issueRequest k q (requestBits op va vb vc) into s)
    | _, _, _ => none
  | some (.assign n v) =>
    match evalOperand q.names v with
    | some w => some (setRequester k { q with pos := q.pos + 1, names := bindName n w q.names } s)
    | none => none
  | some (.branch v is target) =>
    match evalOperand q.names v with
    | some w => some (setRequester k { q with pos := if w = is then target else q.pos + 1 } s)
    | none => none
  | some .reset => some (setRequester k { q with pos := q.pos + 1 } (resetBlock s))
  | some .stop => some (setRequester k { q with pos := q.program.length } s)

/-- A requester's turn: nothing happens when there is none of that number or it cannot move (log 7). -/
def requesterTurn (k : Nat) (s : State) : State :=
  match s.requesters[k]? with
  | none => s
  | some q => (requesterMove k q s).getD s

/-- The move of the first requester, from number `k` on, that can move. -/
def firstMove (s : State) : Nat → List Requester → Option State
  | _, [] => none
  | k, q :: rest =>
    match requesterMove k q s with
    | some t => some t
    | none => firstMove s (k + 1) rest

/-! ### The machine's step -/

/-- One agent's turn. -/
def takeTurn (s : State) : Turn → Host.Outcome State Fault Refusal
  | .block => blockTurn s
  | .requester k => .next (requesterTurn k s)
  | .reset => .next (resetBlock s)

/-- With no turn laid down: the block while a request is in flight, so every response arrives (70_reset R310), else
the first requester that can move, else nothing (log 6, log 7). -/
def defaultTurn (s : State) : Host.Outcome State Fault Refusal :=
  if s.inFlight.isEmpty then .next ((firstMove s 0 s.requesters).getD s) else blockTurn s

/-- One step of the machine: the next turn laid down, or the default one (20_memory R49; log 6). -/
def systemStep (s : State) : Host.Outcome State Fault Refusal :=
  match s.turns with
  | [] => defaultTurn s
  | t :: rest => takeTurn { s with turns := rest } t

/-- The state with a request in front of all others in flight, from a requester the model holds no program of, and
the block to move (log 16, log 17). -/
def placeRequest (bits : Request) (s : State) : State :=
  { s with
    inFlight := { requester := none, into := [], bits := bits } :: s.inFlight
    turns := .block :: s.turns }

/-! ### The end of a run -/

/-- Requester `k` has stopped and none of its requests is in flight (70_reset R312). R312 says nothing of requests in
flight at a reset: DESIGN CHOICE, a request that a reset cancelled is not waited for, so a requester that stops after one
counts as done (log 24). -/
def requesterDone (s : State) (k : Nat) (q : Requester) : Bool :=
  decide (q.program.length ≤ q.pos) && !(s.inFlight.any fun p => p.requester == some k)

/-- Every requester, from number `k` on, is done. -/
def allDone (s : State) : Nat → List Requester → Bool
  | _, [] => true
  | k, q :: rest => requesterDone s k q && allDone s (k + 1) rest

/-- The run has ended: every requester has stopped and has its responses (70_reset R312). DESIGN CHOICE: a request in
flight of a requester the model does not hold keeps the run from having ended, since it has no response yet (log 24). -/
def runEnded (s : State) : Bool := allDone s 0 s.requesters && s.inFlight.isEmpty

/-- No agent can move and the run has not ended: a requester waits for a response that a reset cancelled, or for a
name nothing binds (70_reset R301; 93_implementation_defined "stuck"; log 10). -/
def isStuck (s : State) : Bool :=
  s.inFlight.isEmpty && (firstMove s 0 s.requesters).isNone && !runEnded s

end Sys2Proof.Machine
end

