-- ==== Sys2Proof/Machine/Step.lean ====
section
/-! DEFINITION. One step of the machine, and how a request is placed for the very next step. -/

namespace Sys2Proof.Machine

/-- One step: the turn of one agent. -/
def step (s : State) : Host.Outcome State Fault Refusal := systemStep s

/-- `s` with the request whose bits are `w` placed so that the very next step answers it (log 16, log 17). -/
def State.withFetchWord (s : State) (nbits w : Nat) : State :=
  placeRequest (BitVec.ofNat 100 (tableNumber nbits w)) s

end Sys2Proof.Machine
end

