-- ==== Sys2Proof/Machine/Datapath.lean ====
section
/-! DEFINITION. The internal units and the reference datapaths, as 41_rounding to 47_int_conversion write them, each
unit refused outside its precondition (60_exceptions R273; 92_eei_decisions D29). The meanings of Dispatch.lean are
the value rules, which win where the two differ (00_scope R6; log 11). Variables are unbounded integers (00_scope R12);
`& 0x7F`, `>> 7` and the like on them are written as remainders and quotients by powers of two (log 15). -/

namespace Sys2Proof.Machine

/-! ### Shared primitives -/

/-- `clz32(x)`, for `x` below 2^32 (41_rounding R120). -/
def clz32 (x : Nat) : Nat := if x = 0 then 32 else 31 - Nat.log2 x

/-- `jam_W(x, n)`, shift right and jam, for `x` below 2^W (41_rounding R121). -/
def jam (W x n : Nat) : Nat :=
  if n = 0 then x else (x / 2 ^ n) ||| (if x % 2 ^ min n W ≠ 0 then 1 else 0)

/-- `pack_raw(s, E, F)` (40_codec R106). -/
def packRaw (s : BitVec 1) (E : Int) (F : Nat) : Except Refusal Word :=
  if 0 ≤ E ∧ E ≤ 0xFF ∧ F < 2 ^ 23 then .ok (pattern s E.toNat F) else .error .packRawFieldsOutOfRange

/-! ### fp_normalizer -/

/-- `norm_subnormal(f)`: the exponent and the 24-bit significand (41_rounding R122). -/
def normSubnormal (f : Nat) : Except Refusal (Int × Nat) :=
  if 0 < f ∧ f < 2 ^ 23 then .ok (1 - ((clz32 f - 8 : Nat) : Int), f * 2 ^ (clz32 f - 8))
  else .error .normSubnormalOutOfRange

/-- The exponent and significand a datapath starts from: a subnormal normalized, a normal with its implicit bit
(43_fp_multiplier R191, 44_fp_divider R201, 45_fp_sqrt R216). -/
def significandOf (x : Word) : Except Refusal (Int × Nat) :=
  if expNat x = 0 then normSubnormal (fracNat x) else .ok (expNat x, 2 ^ 23 + fracNat x)

/-! ### fp_rounding_engine -/

/-- Steps 3 to 5 of `round_and_pack` (41_rounding R124, R127, R130). -/
def roundAndPackTail (s : BitVec 1) (e : Int) (sig : Nat) : Except Refusal Word :=
  let rr := if sig % 128 = 64 then (sig + 64) / 128 / 2 * 2 else (sig + 64) / 128
  packRaw s ((if rr = 0 then 0 else e) + (rr / 2 ^ 23 : Nat)) (rr % 2 ^ 23)

/-- `round_and_pack(s, e, sig)` (41_rounding R124). -/
def roundAndPack (s : BitVec 1) (e : Int) (sig : Nat) : Except Refusal Word :=
  if ¬ sig < 2 ^ 31 ∨ (1 ≤ e ∧ sig < 2 ^ 30) then .error .roundAndPackPrecondition
  else if e < 0 then roundAndPackTail s 0 (jam 32 sig (-e).toNat)
  else if 0xFD < e ∨ (e = 0xFD ∧ 0x80000000 ≤ sig + 0x40) then .ok (signedInf s)
  else roundAndPackTail s e sig

/-- `norm_round_and_pack(s, e, sig)` (41_rounding R131). -/
def normRoundAndPack (s : BitVec 1) (e : Int) (sig : Nat) : Except Refusal Word :=
  if 0 < sig ∧ sig < 2 ^ 31 then
    let sh := clz32 sig - 1
    let e' := e - sh
    if 7 ≤ sh ∧ 0 ≤ e' ∧ e' < 0xFD then
      packRaw s (e' + (sig * 2 ^ (sh - 7) / 2 ^ 23 : Nat)) (sig * 2 ^ (sh - 7) % 2 ^ 23)
    else roundAndPack s e' (sig * 2 ^ sh)
  else .error .normRoundAndPackPrecondition

/-! ### nan_propagator -/

/-- `propagate_nan(a, b)` (41_rounding R141). -/
def propagateNan (a b : Word) : Except Refusal Word :=
  if isNaN a || isNaN b then .ok (nanChoice a b) else .error .propagateNanWithoutNan

/-! ### fp_adder -/

/-- The last two lines of `add_mags`: renormalize by one bit, then round (42_fp_adder R161). -/
def addMagsTail (s : BitVec 1) (eZ : Int) (z : Nat) : Except Refusal Word :=
  if z < 0x40000000 then roundAndPack s (eZ - 1) (z * 2) else roundAndPack s eZ z

/-- The operand of smaller exponent in `add_mags`: its implicit bit, or the fraction doubled (42_fp_adder R161). -/
def addAligned (e f : Nat) : Nat := f * 2 ^ 6 + (if e ≠ 0 then 0x20000000 else f * 2 ^ 6)

/-- `add_mags(a, b, s)` (42_fp_adder R161). -/
def addMags (a b : Word) (s : BitVec 1) : Except Refusal Word :=
  if expNat a = expNat b then
    if expNat a = 0 then packRaw s ((fracNat a + fracNat b) / 2 ^ 23 : Nat) ((fracNat a + fracNat b) % 2 ^ 23)
    else if expNat a = 0xFF then
      if fracNat a ≠ 0 ∨ fracNat b ≠ 0 then propagateNan a b else .ok (signedInf s)
    else
      let z := 0x01000000 + fracNat a + fracNat b
      if z % 2 = 0 ∧ expNat a < 0xFE then packRaw s (expNat a + 1) (z / 2 % 2 ^ 23)
      else roundAndPack s (expNat a) (z * 2 ^ 6)
  else if expNat a < expNat b then
    if expNat b = 0xFF then
      if fracNat b ≠ 0 then propagateNan a b else .ok (signedInf s)
    else
      addMagsTail s (expNat b)
        (0x20000000 + jam 32 (addAligned (expNat a) (fracNat a)) (expNat b - expNat a) + fracNat b * 2 ^ 6)
  else if expNat a = 0xFF then
    if fracNat a ≠ 0 then propagateNan a b else .ok (signedInf s)
  else
    addMagsTail s (expNat a)
      (0x20000000 + fracNat a * 2 ^ 6 + jam 32 (addAligned (expNat b) (fracNat b)) (expNat a - expNat b))

/-- The operand of smaller exponent in `sub_mags` (42_fp_adder R162). -/
def subAligned (e f : Nat) : Nat := f * 2 ^ 7 + (if e ≠ 0 then 0x40000000 else f * 2 ^ 7)

/-- The operand of larger exponent in `sub_mags`; its two parts share no bit (42_fp_adder R162). -/
def subLarger (f : Nat) : Nat := (f * 2 ^ 7) ||| 0x40000000

/-- `sub_mags(a, b, s)` (42_fp_adder R162). -/
def subMags (a b : Word) (s : BitVec 1) : Except Refusal Word :=
  if expNat a = expNat b then
    if expNat a = 0xFF then
      if fracNat a ≠ 0 ∨ fracNat b ≠ 0 then propagateNan a b else .ok invalidResult
    else if fracNat a = fracNat b then .ok 0x00000000#32
    else if fracNat b < fracNat a then
      normRoundAndPack s (max (expNat a : Int) 1) ((fracNat a - fracNat b) * 2 ^ 6)
    else normRoundAndPack (~~~s) (max (expNat a : Int) 1) ((fracNat b - fracNat a) * 2 ^ 6)
  else if expNat a < expNat b then
    if expNat b = 0xFF then
      if fracNat b ≠ 0 then propagateNan a b else .ok (signedInf (~~~s))
    else
      normRoundAndPack (~~~s) ((expNat b : Int) - 1)
        (subLarger (fracNat b) - jam 32 (subAligned (expNat a) (fracNat a)) (expNat b - expNat a))
  else if expNat a = 0xFF then
    if fracNat a ≠ 0 then propagateNan a b else .ok (signedInf s)
  else
    normRoundAndPack s ((expNat a : Int) - 1)
      (subLarger (fracNat a) - jam 32 (subAligned (expNat b) (fracNat b)) (expNat a - expNat b))

/-- ADD's datapath: the dispatch by effective sign (42_fp_adder R160). -/
def addDatapath (a b : Word) : Except Refusal Word :=
  if signOf a = signOf b then addMags a b (signOf a) else subMags a b (signOf a)

/-- SUB's datapath: the dispatch by effective sign (42_fp_adder R160). -/
def subDatapath (a b : Word) : Except Refusal Word :=
  if signOf a = signOf b then subMags a b (signOf a) else addMags a b (signOf a)

/-! ### fp_multiplier, fp_divider, fp_sqrt -/

/-- The last two lines of `mul_core` (43_fp_multiplier R191). -/
def mulCoreTail (s : BitVec 1) (eZ : Int) (z : Nat) : Except Refusal Word :=
  if z < 0x40000000 then roundAndPack s (eZ - 1) (z * 2) else roundAndPack s eZ z

/-- `mul_core(a, b)`, for finite nonzero operands (43_fp_multiplier R191). -/
def mulCore (a b : Word) : Except Refusal Word :=
  match significandOf a, significandOf b with
  | .ok (eA, mA), .ok (eB, mB) =>
    mulCoreTail (signOf a ^^^ signOf b) (eA + eB - 127) (jam 64 (mA * 2 ^ 7 * (mB * 2 ^ 8)) 32)
  | .error r, _ => .error r
  | .ok _, .error r => .error r

/-- `div_core(a, b)`, for finite nonzero operands: exact wide division (44_fp_divider R201). -/
def divCore (a b : Word) : Except Refusal Word :=
  match significandOf a, significandOf b with
  | .ok (eA, mA), .ok (eB, mB) =>
    let eZ := if mA < mB then eA - eB + 126 - 1 else eA - eB + 126
    let N := if mA < mB then mA * 2 ^ 31 else mA * 2 ^ 30
    roundAndPack (signOf a ^^^ signOf b) eZ ((N / mB) ||| (if N % mB ≠ 0 then 1 else 0))
  | .error r, _ => .error r
  | .ok _, .error r => .error r

/-- `sqrt_core(a)`, for a positive finite nonzero operand: exact integer square root (45_fp_sqrt R216). -/
def sqrtCore (a : Word) : Except Refusal Word :=
  match significandOf a with
  | .ok (eA, m) =>
    let X := (if eA % 2 = 1 then m else m * 2) * 2 ^ 37
    let q := isqrt X
    roundAndPack 0#1 ((eA - 127) / 2 + 126) (q ||| (if X - q * q ≠ 0 then 1 else 0))
  | .error r => .error r

/-- MUL's datapath: the special cases of 43_fp_multiplier R190, then `mul_core`. -/
def mulDatapath (a b : Word) : Except Refusal Word :=
  if isNaN a || isNaN b then propagateNan a b
  else if isInf a || isInf b then
    (if isZero a || isZero b then .ok invalidResult else .ok (signedInf (signOf a ^^^ signOf b)))
  else if isZero a || isZero b then .ok (signedZero (signOf a ^^^ signOf b))
  else mulCore a b

/-- DIV's datapath: the special cases of 44_fp_divider R200, then `div_core`. -/
def divDatapath (a b : Word) : Except Refusal Word :=
  if isNaN a || isNaN b then propagateNan a b
  else if isInf a && isInf b then .ok invalidResult
  else if isInf a then .ok (signedInf (signOf a ^^^ signOf b))
  else if isInf b then .ok (signedZero (signOf a ^^^ signOf b))
  else if isZero b then (if isZero a then .ok invalidResult else .ok (signedInf (signOf a ^^^ signOf b)))
  else if isZero a then .ok (signedZero (signOf a ^^^ signOf b))
  else divCore a b

/-- SQRT's datapath: the special cases of 45_fp_sqrt R215, then `sqrt_core`. -/
def sqrtDatapath (a : Word) : Except Refusal Word :=
  if isNaN a then .ok (quiet a)
  else if isZero a then .ok a
  else if signOf a = 1#1 then .ok invalidResult
  else if isInf a then .ok a
  else sqrtCore a

/-! ### The integer converters -/

/-- The rounding to an integer inside `to_int32_core`, of `m × 2^(e - 150)` (47_int_conversion R251). -/
def roundToIntegral (e m : Nat) : Nat :=
  if 150 ≤ e then m * 2 ^ (e - 150)
  else
    let d := 150 - e
    let q := m / 2 ^ d
    let rem := m % 2 ^ d
    let half := 2 ^ (d - 1)
    if half < rem ∨ (rem = half ∧ q % 2 = 1) then q + 1 else q

/-- `to_int32_core(a)` (47_int_conversion R251). -/
def toInt32Core (a : Word) : Word :=
  if isNaN a then 0x7FFFFFFF#32
  else if expNat a = 0xFF then (if signOf a = 1#1 then 0x80000000#32 else 0x7FFFFFFF#32)
  else
    let n := if expNat a = 0 then 0 else roundToIntegral (expNat a) (2 ^ 23 + fracNat a)
    if signOf a = 1#1 then (if 2 ^ 31 ≤ n then 0x80000000#32 else int32Word (-(n : Int)))
    else if 2 ^ 31 - 1 < n then 0x7FFFFFFF#32
    else BitVec.ofNat 32 n

/-- `from_int32_core(a)` (47_int_conversion R256). -/
def fromInt32Core (a : Word) : Except Refusal Word :=
  if a = 0#32 then .ok 0x00000000#32
  else if a = 0x80000000#32 then .ok 0xCF000000#32
  else normRoundAndPack (signOf a) 0x9C (if signOf a = 1#1 then (-a).toNat else a.toNat)

end Sys2Proof.Machine
end

