-- ==== Sys2Proof/Machine/Exact.lean ====
section
/-! DEFINITION. The value rules as the spec writes them, over exact rationals and reals (40_codec R108, 41_rounding R126,
42_fp_adder R170, R171, 43_fp_multiplier R190, 44_fp_divider R200, 47_int_conversion R250, R255). The meanings compute the
same over integers (log 12, log 13); claims are stated with these. -/

namespace Sys2Proof.Machine.Exact

/-- `val(x)` (40_codec R108). It is undefined for infinities and NaNs; the 0 here stands for no value, and every rule
sets those apart first. -/
def val (x : Word) : ℚ :=
  if isZero x then 0
  else if isSubnormal x then (-1) ^ (signOf x).toNat * fracNat x * 2 ^ (-149 : ℤ)
  else if isNormal x then (-1) ^ (signOf x).toNat * (2 ^ 23 + fracNat x) * 2 ^ ((expNat x : ℤ) - 150)
  else 0

/-- `rne_int(y)` (41_rounding R126), of an exact rational or real. -/
def rneInt {K : Type} [Field K] [LinearOrder K] [FloorRing K] (y : K) : ℤ :=
  if y - ⌊y⌋ < 1 / 2 then ⌊y⌋
  else if 1 / 2 < y - ⌊y⌋ then ⌊y⌋ + 1
  else if ⌊y⌋ % 2 = 0 then ⌊y⌋
  else ⌊y⌋ + 1

/-- `RoundRNE(s, q)` (41_rounding R126), of an exact rational or real `q` that is not negative. -/
def roundRNE {K : Type} [Field K] [LinearOrder K] [IsStrictOrderedRing K] [FloorRing K] (s : BitVec 1) (q : K) : Word :=
  if q = 0 then s.zeroExtend 32 <<< 31
  else if 2 ^ 128 - 2 ^ 103 ≤ q then (s.zeroExtend 32 <<< 31) ||| 0x7F800000#32
  else
    let E : ℤ := max (Int.log 2 q) (-126)
    let n : ℤ := rneInt (q / 2 ^ (E - 23))
    if n = 0 then s.zeroExtend 32 <<< 31
    else if n = 2 ^ 24 then
      (s.zeroExtend 32 <<< 31) ||| (BitVec.ofInt 32 (E + 1 + 127) <<< 23) ||| BitVec.ofInt 32 (2 ^ 23 - 2 ^ 23)
    else if n < 2 ^ 23 then (s.zeroExtend 32 <<< 31) ||| BitVec.ofInt 32 n
    else (s.zeroExtend 32 <<< 31) ||| (BitVec.ofInt 32 (E + 127) <<< 23) ||| BitVec.ofInt 32 (n - 2 ^ 23)

/-- A rational above 0 rounded to the nearest even significand of 24 bits, with no bound on the exponent: the value on which
tininess is detected (10_state R21; log 25). -/
def roundUnbounded (q : ℚ) : ℚ := rneInt (q / 2 ^ (Int.log 2 q - 23)) * 2 ^ (Int.log 2 q - 23)

/-- `1 if q < 0 else 0`. -/
def signOfRat (q : ℚ) : BitVec 1 := if q < 0 then 1#1 else 0#1

/-- The value rule of ADD (42_fp_adder R170). -/
def add (a b : Word) : Word :=
  if isNaN a || isNaN b then nanChoice a b
  else if isInf a && isInf b then (if signOf a = signOf b then a else Config.defaultNan)
  else if isInf a then a
  else if isInf b then b
  else if val a + val b = 0 then (if signOf a = 1#1 ∧ signOf b = 1#1 then 0x80000000#32 else 0x00000000#32)
  else roundRNE (signOfRat (val a + val b)) |val a + val b|

/-- The value rule of SUB (42_fp_adder R171). -/
def sub (a b : Word) : Word :=
  if isNaN a || isNaN b then nanChoice a b
  else if isInf a && isInf b then (if signOf a ≠ signOf b then a else Config.defaultNan)
  else if isInf a then a
  else if isInf b then b ^^^ 0x80000000#32
  else if val a - val b = 0 then (if signOf a = 1#1 ∧ signOf b = 0#1 then 0x80000000#32 else 0x00000000#32)
  else roundRNE (signOfRat (val a - val b)) |val a - val b|

/-- The value rule of MUL (43_fp_multiplier R190). -/
def mul (a b : Word) : Word :=
  let sZ := signOf a ^^^ signOf b
  if isNaN a || isNaN b then nanChoice a b
  else if isInf a || isInf b then
    (if isZero a || isZero b then Config.defaultNan else (sZ.zeroExtend 32 <<< 31) ||| 0x7F800000#32)
  else if isZero a || isZero b then sZ.zeroExtend 32 <<< 31
  else roundRNE sZ (|val a| * |val b|)

/-- The value rule of DIV (44_fp_divider R200). -/
def div (a b : Word) : Word :=
  let sZ := signOf a ^^^ signOf b
  if isNaN a || isNaN b then nanChoice a b
  else if isInf a && isInf b then Config.defaultNan
  else if isInf a then (sZ.zeroExtend 32 <<< 31) ||| 0x7F800000#32
  else if isInf b then sZ.zeroExtend 32 <<< 31
  else if isZero b then
    (if isZero a then Config.defaultNan else (sZ.zeroExtend 32 <<< 31) ||| 0x7F800000#32)
  else if isZero a then sZ.zeroExtend 32 <<< 31
  else roundRNE sZ (|val a| / |val b|)

/-- The integer TO_INT32 gives (47_int_conversion R250). -/
def toInt32 (a : Word) : ℤ :=
  if isNaN a then 2 ^ 31 - 1
  else if isInf a then (if signOf a = 1#1 then -2 ^ 31 else 2 ^ 31 - 1)
  else if rneInt (val a) < -2 ^ 31 then -2 ^ 31
  else if 2 ^ 31 - 1 < rneInt (val a) then 2 ^ 31 - 1
  else rneInt (val a)

/-- The value rule of FROM_INT32 (47_int_conversion R255), `a` in two's complement. -/
def fromInt32 (a : Word) : Word :=
  if a.toInt = 0 then 0x00000000#32 else roundRNE (if a.toInt < 0 then 1#1 else 0#1) |(a.toInt : ℚ)|

/-- `xv(x)` of a pattern that is not a NaN: its value, or the infinity of its sign (46_fp_comparator R239). -/
def xv (x : Word) : WithBot (WithTop ℚ) :=
  if isInf x then (if signOf x = 1#1 then ⊥ else ((⊤ : WithTop ℚ) : WithBot (WithTop ℚ)))
  else ((val x : WithTop ℚ) : WithBot (WithTop ℚ))

end Sys2Proof.Machine.Exact
end

