-- ==== Sys2Proof/Safety.lean ====
section
/-! DEFINITION. The terms that claims use: what an operation answers and leaves alone, a safe run, the relations of the
comparator as the spec writes them, what a requester is owed, and the invariant of the machine. -/

namespace Sys2Proof.Machine

/-! ### What an operation answers -/

/-- The frame of every operation: no request in flight, no requester and no turn is touched (20_memory R46). The response
fields it does not drive are free values (10_state R23), and the number of draws is the model's own (log 3). -/
def SameSystem (s t : State) : Prop := t.inFlight = s.inFlight ∧ t.requesters = s.requesters ∧ t.turns = s.turns

/-- The operation completes with `w` in the response field `r`, and leaves the rest alone. -/
def AnswersR (i : Instr) (s : State) (w : Word) : Prop :=
  ∃ t, exec i s = .next t ∧ t.response.r = w ∧ SameSystem s t

/-- The operation completes with the response field `t` at 1 exactly when `P` holds, and leaves the rest alone. -/
def AnswersT (i : Instr) (s : State) (P : Prop) : Prop :=
  ∃ t, exec i s = .next t ∧ (t.response.t = 1#1 ↔ P) ∧ SameSystem s t

/-- The operation completes with the three fields of UNPACK, and leaves the rest alone. -/
def AnswersFields (i : Instr) (s : State) (us : BitVec 1) (ue : BitVec 8) (uf : BitVec 23) : Prop :=
  ∃ t, exec i s = .next t ∧ t.response.us = us ∧ t.response.ue = ue ∧ t.response.uf = uf ∧ SameSystem s t

/-- A run from `s` is safe when no number of steps faults or is refused (60_exceptions R270, R272). -/
def Safe (s : State) : Prop := ∀ n : Nat, ∃ t, Sys2Proof.core.run n s = .next t

/-! ### The comparator's relations, as 46_fp_comparator writes them -/

/-- `((a | b) << 1) mod 2^32 = 0` (46_fp_comparator R231). -/
def BothZeroRule (a b : Word) : Prop := (a ||| b).toNat * 2 % 2 ^ 32 = 0

/-- `before(a, b)` (46_fp_comparator R231). -/
def BeforeRule (a b : Word) : Prop :=
  (signOf a = 0#1 ∧ (a &&& 0x7FFFFFFF#32).toNat < (b &&& 0x7FFFFFFF#32).toNat) ∨
    (signOf a = 1#1 ∧ (b &&& 0x7FFFFFFF#32).toNat < (a &&& 0x7FFFFFFF#32).toNat)

/-- The last branches of LT (46_fp_comparator R234). -/
def LtRule (a b : Word) : Prop :=
  (signOf a ≠ signOf b ∧ signOf a = 1#1 ∧ ¬ BothZeroRule a b) ∨ (signOf a = signOf b ∧ BeforeRule a b)

/-- The last branches of LE (46_fp_comparator R235). -/
def LeRule (a b : Word) : Prop :=
  (signOf a ≠ signOf b ∧ (signOf a = 1#1 ∨ BothZeroRule a b)) ∨
    (signOf a = signOf b ∧ ((a &&& 0x7FFFFFFF#32).toNat = (b &&& 0x7FFFFFFF#32).toNat ∨ BeforeRule a b))

/-- Neither operand is a NaN. -/
def NoNaN (a b : Word) : Prop := isNaN a = false ∧ isNaN b = false

/-! ### Requesters -/

/-- The requests that requester `k` has issued and is still owed a response to, oldest first (20_memory R50). -/
def owed (s : State) (k : Nat) : List Request := (s.inFlight.filter fun p => p.requester == some k).map (·.bits)

/-- The turn laid down next is a reset: one from outside, or that of a requester that stands at a reset step (70_reset R300,
R301). With no turn laid down a requester moves only when nothing is in flight (log 6), and its reset cancels nothing. -/
def ResetIsDue (s : State) : Prop :=
  s.turns.head? = some .reset ∨ ∃ (j : Nat) (q : Requester), s.turns.head? = some (.requester j) ∧
    s.requesters[j]? = some q ∧ q.program[q.pos]? = some .reset

/-- The names of a requester are in their one form: strictly rising. -/
def NamesRising (names : List (Nat × Word)) : Prop := names.Pairwise fun a b => a.1 < b.1

/-- A step of a program of `len` steps that keeps to 60_exceptions R283 and 10_state R23: it reads only response fields
that the operation drives, and branches inside the program. -/
def stepWellFormed (len : Nat) : RequesterStep → Bool
  | .issue op _ _ _ into => into.all fun d => (drives (decode (requestBits op 0#32 0#32 0#32))).contains d.1
  | .assign _ _ => true
  | .branch _ _ target => decide (target ≤ len)
  | .reset => true
  | .stop => true

/-- A requester with a well-formed program, a place in it, and names in their one form. -/
def requesterWellFormed (q : Requester) : Prop :=
  NamesRising q.names ∧ q.pos ≤ q.program.length ∧ q.program.all (stepWellFormed q.program.length) = true

/-- A request in flight, among `n` requesters: whoever issued it exists, and only fields its operation drives are read
("not read an undriven field as a value", 60_exceptions R283). -/
def pendingWellFormed (n : Nat) (p : Pending) : Prop :=
  (∀ k, p.requester = some k → k < n) ∧ p.into.all (fun d => (drives (decode p.bits)).contains d.1) = true

/-- The invariant of the machine: every requester and every request in flight is well-formed, so no requester ever
binds a name to a response field that is unspecified. -/
def Inv (s : State) : Prop :=
  (∀ q ∈ s.requesters, requesterWellFormed q) ∧ ∀ p ∈ s.inFlight, pendingWellFormed s.requesters.length p

end Sys2Proof.Machine
end

