-- ==== Sys2Proof/Certificates/Slice0/Obligations.lean ====
section
/-! DEFINITION. The statements for the provers. `AnswersR i s w` (Safety.lean) says that `exec i s` ANSWERS A NEXT STATE whose
response field `r` is `w`, with every request in flight, every requester and every turn unchanged; `AnswersT` says the same of the
field `t` and `AnswersFields` of UNPACK's three. A field that an operation does not drive is a free value and is in no statement.
`Exact.…` are the value rules as the spec writes them, over the exact rationals (Machine/Exact.lean). -/

open Sys2Proof Sys2Proof.Machine

/-! ### Encoding -/

/-- 30_encoding R64 and R66: the request `op << 96 | c << 64 | b << 32 | a` selects the operation of R66 for each of the sixteen
values of `op`, with its operands from the fields of R64. -/
def Obligations.RequestBitsSelectOperation : Prop :=
  ∀ a b c : Word,
    let req : Nat → Request := fun op =>
      BitVec.ofNat 100 (op * 2 ^ 96 + c.toNat * 2 ^ 64 + b.toNat * 2 ^ 32 + a.toNat)
    decode (req 0x0) = .pack a b c ∧ decode (req 0x1) = .unpack a ∧ decode (req 0x2) = .add a b ∧
      decode (req 0x3) = .sub a b ∧ decode (req 0x4) = .mul a b ∧ decode (req 0x5) = .div a b ∧
      decode (req 0x6) = .sqrt a ∧ decode (req 0x7) = .eq a b ∧ decode (req 0x8) = .ne a b ∧
      decode (req 0x9) = .lt a b ∧ decode (req 0xA) = .le a b ∧ decode (req 0xB) = .gt a b ∧
      decode (req 0xC) = .ge a b ∧ decode (req 0xD) = .isNan a ∧ decode (req 0xE) = .toInt32 a ∧
      decode (req 0xF) = .fromInt32 a

/-- The formats. Requests written out in 95_test_vectors (sections 1.1 and 2.1, and section 3 for LT) decode to the operations they stand
for. The response vector of 30_encoding R65 has its fields at the bits R65 gives. A line of the assembler (R71) stands for the request with
its operands in the fields and the unused fields at 0; a line with a wrong number of operands, or an operand out of range, stands for
none (the range is the model's reading: log 18). -/
def Obligations.FormatsAndWrittenOutRequests : Prop :=
  (decodeTableWord 104 0x0004000000000007F00000001 = some (.pack 0x00000001#32 0x0000007F#32 0x00400000#32) ∧
    decodeTableWord 104 0x10000000000000000C79CB580 = some (.unpack 0xC79CB580#32) ∧
    decodeTableWord 104 0x2000000003E4CCCCD3DCCCCCD = some (.add 0x3DCCCCCD#32 0x3E4CCCCD#32) ∧
    decodeTableWord 104 0x3000000003E4CCCCD3E99999A = some (.sub 0x3E99999A#32 0x3E4CCCCD#32) ∧
    decodeTableWord 104 0x4000000003E4CCCCD3DCCCCCD = some (.mul 0x3DCCCCCD#32 0x3E4CCCCD#32) ∧
    decodeTableWord 104 0x6000000000000000040800000 = some (.sqrt 0x40800000#32) ∧
    decodeTableWord 104 0x9000000003DCCCCCE3DCCCCCD = some (.lt 0x3DCCCCCD#32 0x3DCCCCCE#32) ∧
    decodeTableWord 104 0xD00000000000000007F800001 = some (.isNan 0x7F800001#32) ∧
    decodeTableWord 104 0xE000000000000000043748000 = some (.toInt32 0x43748000#32) ∧
    decodeTableWord 104 0xF0000000000000000FFFEC695 = some (.fromInt32 0xFFFEC695#32)) ∧
  (∀ x : Response, x.toBits.extractLsb' 0 32 = x.r ∧ x.toBits.extractLsb' 32 1 = x.t ∧ x.toBits.extractLsb' 33 1 = x.us ∧
    x.toBits.extractLsb' 34 8 = x.ue ∧ x.toBits.extractLsb' 42 23 = x.uf) ∧
  (∀ x y z : Int, -2 ^ 31 ≤ x → x < 2 ^ 32 → -2 ^ 31 ≤ y → y < 2 ^ 32 → -2 ^ 31 ≤ z → z < 2 ^ 32 →
    assemble ⟨0x0#4, [x, y, z]⟩ = .ok (requestBits 0x0#4 (BitVec.ofInt 32 x) (BitVec.ofInt 32 y) (BitVec.ofInt 32 z)) ∧
    (∀ op ∈ [0x1#4, 0x6#4, 0xD#4, 0xE#4, 0xF#4],
      assemble ⟨op, [x]⟩ = .ok (requestBits op (BitVec.ofInt 32 x) 0#32 0#32)) ∧
    ∀ op ∈ [0x2#4, 0x3#4, 0x4#4, 0x5#4, 0x7#4, 0x8#4, 0x9#4, 0xA#4, 0xB#4, 0xC#4],
      assemble ⟨op, [x, y]⟩ = .ok (requestBits op (BitVec.ofInt 32 x) (BitVec.ofInt 32 y) 0#32)) ∧
  ∀ l : AsmLine, l.wellFormed = false → ∃ e, assemble l = .error e

/-- 30_encoding R64 to R67, R71: decoding what an operation encodes to gives the operation back; encoding what a request decodes to
gives the request back, with the fields the operation does not read at 0. -/
def Obligations.DecodeEncodeRoundTrip : Prop :=
  (∀ i : Instr, i.wellFormed = true → decode (encode i) = i ∧ opField (encode i) = i.op) ∧
    ∀ (op : BitVec 4) (a b c : Word), encode (decode (requestBits op a b c)) =
      requestBits op a (if readsB op = true then b else 0#32) (if readsC op = true then c else 0#32)

/-- 30_encoding R69: every 100-bit number is a valid request; the decoder is total on them, and every operation it gives has a
response in every state. -/
def Obligations.EveryRequestIsValid : Prop :=
  ∀ w : Nat, w < 2 ^ 100 → ∃ i, decodeTableWord 104 w = some i ∧ i.wellFormed = true ∧
    ∀ s : State, ∃ t, exec i s = .next t

/-- 10_state R22, 30_encoding R67 and R68: an operand field that an operation does not read has no effect, and PACK reads bit 0 of `a`,
the low 8 bits of `b` and the low 23 bits of `c` alone. -/
def Obligations.UnreadFieldsHaveNoEffect : Prop :=
  (∀ (op : BitVec 4) (a b c b' c' : Word) (s : State), (readsB op = true → b = b') → (readsC op = true → c = c') →
    exec (decode (requestBits op a b c)) s = exec (decode (requestBits op a b' c')) s) ∧
  ∀ (a b c a' b' c' : Word) (s : State), a.getLsbD 0 = a'.getLsbD 0 → b.toNat % 2 ^ 8 = b'.toNat % 2 ^ 8 →
    c.toNat % 2 ^ 23 = c'.toNat % 2 ^ 23 → exec (.pack a b c) s = exec (.pack a' b' c') s

/-! ### The machine -/

/-- What a step of the block is (60_exceptions R283, 20_memory R45): when it is the block's turn, or no turn is laid down, the oldest
request in flight is decoded and run, and its response delivered, which puts it behind those its requester holds; so a request placed by
`withFetchWord` is run by the very next step, and nothing is added to what `exec` does. (Which names a delivery binds is said by
`Obligations.RequestersStepAndBindNames`. The turns, oldest first over all requesters, and where `withFetchWord` places a request are the
model's choice: logs 6, 5, 16; and so is that a request may belong to no requester, and its response be delivered to nobody: log 19; and
that taking a response leaves the response fields as they are: log 22.) -/
def Obligations.StepRunsTheOldestRequest : Prop :=
  (∀ (s : State) (p : Pending) (rest : List Pending) (turns : List Turn), s.inFlight = p :: rest →
    (s.turns = .block :: turns ∨ (s.turns = [] ∧ turns = [])) →
    step s = match exec (decode p.bits) { s with inFlight := rest, turns := turns } with
      | .next t => .next (deliver p t)
      | .fault r => .fault r
      | .refused r => .refused r) ∧
  (∀ (p : Pending) (s : State), p.requester = none → deliver p s = s) ∧
  (∀ (p : Pending) (s : State) (k : Nat) (q : Requester), p.requester = some k → s.requesters[k]? = some q →
    (deliver p s).inFlight = s.inFlight ∧ (deliver p s).turns = s.turns ∧ (deliver p s).response = s.response ∧
      ∃ q', (deliver p s).requesters = s.requesters.set k q' ∧ q'.program = q.program ∧ q'.pos = q.pos ∧
        q'.received = q.received ++ [s.response]) ∧
  ∀ (s : State) (w : Nat), w < 2 ^ 100 → step (s.withFetchWord 104 w) = exec (decode (BitVec.ofNat 100 w)) s

/-- 60_exceptions R270: no operation ever faults or is refused, from any state. And no step and no run does: a turn in which nothing can be
done, that of a stuck requester among them, is a next state in which nothing changed, which is the model's reading (log 7; the turns are
those of logs 6 and 8). -/
def Obligations.NoStepEverStops : Prop :=
  (∀ (i : Instr) (s : State), ∃ t, exec i s = .next t) ∧ (∀ s : State, ∃ t, step s = .next t) ∧ ∀ s : State, Safe s

/-- 10_state R24: two requests with equal fields get equal responses (in the fields driven), whatever the two states hold, and no request
changes anything that another's response depends on: the requests in flight, the requesters and the turns are as before. -/
def Obligations.ResponseDependsOnRequestAlone : Prop :=
  ∀ (w : Request) (s₁ s₂ : State), ∃ t₁ t₂, exec (decode w) s₁ = .next t₁ ∧ exec (decode w) s₂ = .next t₂ ∧
    (∀ f ∈ drives (decode w), t₁.response.get f = t₂.response.get f) ∧ SameSystem s₁ t₁ ∧ SameSystem s₂ t₂

/-- 20_memory R50 and R49, over every step of the machine from every state: what a requester holds and is owed changes in one of four
ways. Nothing; one more request owed, at the end; the oldest request owed is answered, its response put behind those held, and equal in
the fields driven to the response that the request gets alone, in any state; or, when the turn taken is a reset, nothing is owed any
more. (The turns and that a reset can come at any of them are the model's choice: logs 6, 10; an idle turn is log 7.) -/
def Obligations.ResponsesArriveInIssueOrder : Prop :=
  ∀ (s t : State) (k : Nat) (q : Requester), step s = .next t → s.requesters[k]? = some q →
    ∃ q', t.requesters[k]? = some q' ∧
      ((owed t k = owed s k ∧ q'.received = q.received) ∨
        (∃ w, owed t k = owed s k ++ [w] ∧ q'.received = q.received) ∨
        (∃ w x, owed s k = w :: owed t k ∧ q'.received = q.received ++ [x] ∧
          ∀ u v : State, exec (decode w) u = .next v → ∀ f ∈ drives (decode w), x.get f = v.response.get f) ∨
        (ResetIsDue s ∧ owed t k = [] ∧ q'.received = q.received))

/-- 70_reset R300 and R301: a reset cancels the requests in flight and leaves every requester what it holds; a request run after it gets
the response it would have got before, in the fields driven. (The turns, that the model can be reset from outside and that the queue is then
empty are its choice: logs 6, 10.) -/
def Obligations.ResetCancelsRequestsInFlight : Prop :=
  ∀ (s : State) (turns : List Turn), s.turns = .reset :: turns →
    ∃ t, step s = .next t ∧ t.inFlight = [] ∧ t.requesters = s.requesters ∧ t.turns = turns ∧
      ∀ (i : Instr) (u v : State), exec i s = .next u → exec i t = .next v →
        ∀ f ∈ drives i, u.response.get f = v.response.get f

/-- 60_exceptions R283 and 70_reset R306. The model's form of a requester is its choice (logs 6, 8, 9, 20, 22, 23); that a turn with nothing to
do changes nothing, while a requester waits or past its end, is its reading (log 7); that a reset step empties the queue is its choice (log
10). First, on its turn a
requester takes the step it is at. An issue waits while an operand is a name not bound; once every operand has a value, the request of
those values goes behind all others in flight, and the names its response will bind are unbound. An assignment binds its name, and a
branch goes on by the value, once the value is there. A reset step cancels what is in flight; a stop goes to the program's end; past the
end nothing happens. Then, a response delivered binds each name that its request lists to the last field listed with it, unless a younger
request in flight of the same requester lists that name; it binds no other. -/
def Obligations.RequestersStepAndBindNames : Prop :=
  (∀ (s : State) (k : Nat) (q : Requester) (turns : List Turn), s.turns = .requester k :: turns → s.requesters[k]? = some q →
    (∀ (op : BitVec 4) (a b c : StepOperand) (into : List (ResponseField × Nat)),
      q.program[q.pos]? = some (.issue op a b c into) →
      ((evalOperand q.names a = none ∨ evalOperand q.names b = none ∨ evalOperand q.names c = none) →
        step s = .next { s with turns := turns }) ∧
      ∀ va vb vc : Word, evalOperand q.names a = some va → evalOperand q.names b = some vb →
        evalOperand q.names c = some vc →
        ∃ t, step s = .next t ∧ t.inFlight = s.inFlight ++ [⟨some k, into, requestBits op va vb vc⟩] ∧
          t.response = s.response ∧ t.turns = turns ∧
          ∃ q', t.requesters = s.requesters.set k q' ∧ q'.pos = q.pos + 1 ∧ q'.program = q.program ∧
            q'.received = q.received ∧
            ∀ n, lookupName n q'.names = if n ∈ into.map (·.2) then none else lookupName n q.names) ∧
    (∀ (n : Nat) (v : StepOperand), q.program[q.pos]? = some (.assign n v) →
      (evalOperand q.names v = none → step s = .next { s with turns := turns }) ∧
      ∀ w : Word, evalOperand q.names v = some w →
        ∃ q', step s = .next { s with turns := turns, requesters := s.requesters.set k q' } ∧ q'.pos = q.pos + 1 ∧
          q'.program = q.program ∧ q'.received = q.received ∧
          ∀ m, lookupName m q'.names = if m = n then some w else lookupName m q.names) ∧
    (∀ (v : StepOperand) (is : Word) (target : Nat), q.program[q.pos]? = some (.branch v is target) →
      (evalOperand q.names v = none → step s = .next { s with turns := turns }) ∧
      (evalOperand q.names v = some is →
        step s = .next { s with turns := turns, requesters := s.requesters.set k { q with pos := target } }) ∧
      ∀ w : Word, evalOperand q.names v = some w → w ≠ is →
        step s = .next { s with turns := turns, requesters := s.requesters.set k { q with pos := q.pos + 1 } }) ∧
    (q.program[q.pos]? = some .reset → ∃ t, step s = .next t ∧ t.inFlight = [] ∧ t.turns = turns ∧
      t.requesters = s.requesters.set k { q with pos := q.pos + 1 }) ∧
    (q.program[q.pos]? = some .stop →
      step s = .next { s with turns := turns, requesters := s.requesters.set k { q with pos := q.program.length } }) ∧
    (q.program[q.pos]? = none → step s = .next { s with turns := turns })) ∧
  ∀ (s : State) (p : Pending) (k : Nat) (q : Requester), p.requester = some k → s.requesters[k]? = some q →
    ∃ q', (deliver p s).requesters[k]? = some q' ∧
      ∀ n : Nat,
        let younger := ∃ y ∈ s.inFlight, y.requester = some k ∧ ∃ d ∈ y.into, d.2 = n
        (younger ∨ (∀ d ∈ p.into, d.2 ≠ n) → lookupName n q'.names = lookupName n q.names) ∧
          (¬ younger → ∀ (before after : List (ResponseField × Nat)) (f : ResponseField),
            p.into = before ++ (f, n) :: after → (∀ d ∈ after, d.2 ≠ n) →
            lookupName n q'.names = some (s.response.get f))

/-- 70_reset R305 and R304: right after reset nothing is in flight; and the first request is valid: whatever request is placed, the next
step answers it, with the response in the fields driven that `exec` gives it at `State.reset`, which is the one it gets from any state. (No
turn laid down, no requester and how a request is placed are the model's choice: logs 6, 8, 16.) -/
def Obligations.NothingInFlightAtReset : Prop :=
  State.reset.inFlight = [] ∧ State.reset.turns = [] ∧ State.reset.requesters = [] ∧
    ∀ w : Nat, w < 2 ^ 100 →
      ∃ t u, step (State.reset.withFetchWord 104 w) = .next t ∧ exec (decode (BitVec.ofNat 100 w)) State.reset = .next u ∧
        t.inFlight = [] ∧ (∀ f ∈ drives (decode (BitVec.ofNat 100 w)), t.response.get f = u.response.get f) ∧
        ∀ s v : State, exec (decode (BitVec.ofNat 100 w)) s = .next v →
          ∀ f ∈ drives (decode (BitVec.ofNat 100 w)), t.response.get f = v.response.get f

/-- The invariant holds right after reset (10_state R23, 60_exceptions R283; logs 8, 9). -/
def Obligations.InvariantHoldsAtReset : Prop := Inv State.reset

/-- The invariant is kept by every step from every state that has it: the names of every requester stay in their one form, its place stays
in its program, and every request in flight belongs to a requester that exists and binds names only to response fields its operation
drives, so that no requester ever reads a field that is unspecified (10_state R23, 60_exceptions R283; logs 8, 9). -/
def Obligations.EveryStepKeepsTheInvariant : Prop := ∀ s t : State, Inv s → step s = .next t → Inv t

/-! ### Codec and classes -/

/-- 40_codec R101: PACK is operation 0x0; bit 31 of its result is bit 0 of `a`, bits 30..23 are the low 8 bits of `b` and bits 22..0 the
low 23 bits of `c`. -/
def Obligations.PackComposesMaskedFields : Prop :=
  ∀ (a b c : Word) (s : State), decode (requestBits 0x0#4 a b c) = .pack a b c ∧
    ∃ r, AnswersR (.pack a b c) s r ∧ r.extractLsb' 31 1 = a.extractLsb' 0 1 ∧
      r.extractLsb' 23 8 = b.extractLsb' 0 8 ∧ r.extractLsb' 0 23 = c.extractLsb' 0 23

/-- 40_codec R102: UNPACK is operation 0x1, and gives bit 31, bits 30..23 and bits 22..0 of `a`. -/
def Obligations.UnpackGivesTheFields : Prop :=
  ∀ (a b c : Word) (s : State), decode (requestBits 0x1#4 a b c) = .unpack a ∧
    AnswersFields (.unpack a) s (a.extractLsb' 31 1) (a.extractLsb' 23 8) (a.extractLsb' 0 23)

/-- 40_codec R109: PACK of the fields that UNPACK gives is the pattern again, for every pattern. -/
def Obligations.PackOfUnpackIsIdentity : Prop :=
  ∀ (x : Word) (s : State), ∃ t, exec (.unpack x) s = .next t ∧ SameSystem s t ∧
    AnswersR (.pack (t.response.get .us) (t.response.get .ue) (t.response.get .uf)) t x

/-- 40_codec R103: IS_NAN is operation 0xD, and is true exactly when the exponent field is all ones and the fraction is not 0. -/
def Obligations.IsNanTestsTheFields : Prop :=
  ∀ (a b c : Word) (s : State), decode (requestBits 0xD#4 a b c) = .isNan a ∧
    AnswersT (.isNan a) s (a.extractLsb' 23 8 = 0xFF#8 ∧ a.extractLsb' 0 23 ≠ 0#23)

/-- 30_encoding R61, 40_codec R104 and R105: the class of every pattern and each class predicate, by the exponent and fraction fields. -/
def Obligations.EveryPatternHasOneClass : Prop :=
  ∀ x : Word,
    let e := x.extractLsb' 23 8
    let f := x.extractLsb' 0 23
    (classify x = .zero ↔ e = 0#8 ∧ f = 0#23) ∧ (classify x = .subnormal ↔ e = 0#8 ∧ f ≠ 0#23) ∧
      (classify x = .normal ↔ 0 < e.toNat ∧ e.toNat < 255) ∧ (classify x = .infinity ↔ e = 0xFF#8 ∧ f = 0#23) ∧
      (classify x = .quietNaN ↔ e = 0xFF#8 ∧ f.getLsbD 22 = true) ∧
      (classify x = .signalingNaN ↔ e = 0xFF#8 ∧ f.getLsbD 22 = false ∧ f.extractLsb' 0 22 ≠ 0#22) ∧
      (isZero x = true ↔ e = 0#8 ∧ f = 0#23) ∧ (isSubnormal x = true ↔ e = 0#8 ∧ f ≠ 0#23) ∧
      (isNormal x = true ↔ 0 < e.toNat ∧ e.toNat < 255) ∧ (isInf x = true ↔ e = 0xFF#8 ∧ f = 0#23) ∧
      (isNaN x = true ↔ e = 0xFF#8 ∧ f ≠ 0#23) ∧ (isFinite x = true ↔ e ≠ 0xFF#8) ∧
      (isSignaling x = true ↔ e = 0xFF#8 ∧ x.getLsbD 22 = false ∧ x.extractLsb' 0 22 ≠ 0#22) ∧
      (isFinite x = true ↔ isZero x = true ∨ isSubnormal x = true ∨ isNormal x = true)

/-! ### NaNs -/

/-- 41_rounding R141: which NaN `propagate_nan` gives, when an operand is a NaN. -/
def Obligations.PropagateNanChoosesByRule : Prop :=
  ∀ a b : Word, (isNaN a = true ∨ isNaN b = true) →
    let qa := a ||| 0x00400000#32
    let qb := b ||| 0x00400000#32
    let ma := (qa &&& 0x7FFFFFFF#32).toNat
    let mb := (qb &&& 0x7FFFFFFF#32).toNat
    (isSignaling a = true → isSignaling b = false → propagateNan a b = .ok qa) ∧
      (isSignaling b = true → isSignaling a = false → propagateNan a b = .ok qb) ∧
      (isSignaling a = isSignaling b → mb < ma → propagateNan a b = .ok qa) ∧
      (isSignaling a = isSignaling b → ma < mb → propagateNan a b = .ok qb) ∧
      (isSignaling a = isSignaling b → ma = mb → propagateNan a b = .ok (if qa.toNat ≤ qb.toNat then qa else qb))

/-- 41_rounding R142 (a) to (d): the result is a quiet NaN; the operands may be exchanged; a signaling NaN beside a quiet NaN or a non-NaN
wins; a NaN beside a non-NaN wins, but for the tie of 0x7FC00000 or 0xFFC00000 with a quieted infinity, which the smaller wins; and the
magnitudes of quieted patterns that this comes from. -/
def Obligations.PropagatedNanIsQuietAndSymmetric : Prop :=
  ∀ a b : Word, (isNaN a = true ∨ isNaN b = true) →
    (∃ r, propagateNan a b = .ok r ∧ classify r = .quietNaN) ∧ propagateNan a b = propagateNan b a ∧
      (isSignaling a = true → isSignaling b = false → propagateNan a b = .ok (quiet a)) ∧
      (isNaN a = true → isNaN b = false →
        ((quiet a = 0x7FC00000#32 ∨ quiet a = 0xFFC00000#32) ∧ isInf b = true →
          propagateNan a b = .ok (if (quiet a).toNat ≤ (quiet b).toNat then quiet a else quiet b)) ∧
        (¬ ((quiet a = 0x7FC00000#32 ∨ quiet a = 0xFFC00000#32) ∧ isInf b = true) →
          propagateNan a b = .ok (quiet a))) ∧
      ∀ x : Word, (isNaN x = true → 0x7FC00000 ≤ mag (quiet x)) ∧ (isFinite x = true → mag (quiet x) ≤ 0x7F7FFFFF) ∧
        (isInf x = true → mag (quiet x) = 0x7FC00000 ∧ classify (quiet x) = .quietNaN)

/-- 41_rounding R140: every NaN that ADD, SUB, MUL, DIV or SQRT gives is a quiet NaN, and is `DEFAULT_NAN` or a quieted operand, which is the
operand with bit 22 set; PACK can give a signaling NaN. -/
def Obligations.NanResultsAreQuiet : Prop :=
  ∀ (i : Instr) (s : State), isArithmetic i = true → ∃ r, AnswersR i s r ∧
    (isNaN r = true → classify r = .quietNaN ∧
      (r = Config.defaultNan ∨ ∃ x ∈ floatOperands i, r = x ||| 0x00400000#32)) ∧
    (∀ x : Word, quiet x = x ||| 0x00400000#32) ∧
    ∃ (a b c x : Word), AnswersR (.pack a b c) s x ∧ classify x = .signalingNaN

/-- 41_rounding R143 with the NaN absorption of 42 R172 (f), 43 R192 (c), 44 R203 (c), 45 R218 (c): the result of an arithmetic operation is
a NaN exactly when an operand is one or the operation is invalid; an invalid operation gives `DEFAULT_NAN`; an operation with a NaN operand
is never invalid. -/
def Obligations.NanResultIffNanOperandOrInvalid : Prop :=
  ∀ (i : Instr) (s : State), isArithmetic i = true →
    (∃ r, AnswersR i s r ∧ (isNaN r = true ↔ hasNaNOperand i = true ∨ invalidOperation i = true)) ∧
      (invalidOperation i = true → AnswersR i s Config.defaultNan) ∧
      (hasNaNOperand i = true → invalidOperation i = false)

/-! ### The internal units -/

/-- 92_eei_decisions D29, 60_exceptions R273: each internal unit refuses a call outside its precondition, by name, and only such a call. -/
def Obligations.UnitsRefuseOutsidePreconditions : Prop :=
  (∀ (s : BitVec 1) (E : Int) (F : Nat),
    packRaw s E F = .error .packRawFieldsOutOfRange ↔ ¬ (0 ≤ E ∧ E ≤ 0xFF ∧ F < 2 ^ 23)) ∧
  (∀ f : Nat, normSubnormal f = .error .normSubnormalOutOfRange ↔ ¬ (0 < f ∧ f < 2 ^ 23)) ∧
  (∀ (s : BitVec 1) (e : Int) (sig : Nat),
    (∃ r, roundAndPack s e sig = .error r) ↔ ¬ (sig < 2 ^ 31 ∧ (1 ≤ e → 2 ^ 30 ≤ sig))) ∧
  (∀ (s : BitVec 1) (e : Int) (sig : Nat),
    (∃ r, normRoundAndPack s e sig = .error r) ↔ ¬ (0 < sig ∧ sig < 2 ^ 31)) ∧
  ∀ a b : Word, propagateNan a b = .error .propagateNanWithoutNan ↔ isNaN a = false ∧ isNaN b = false

/-- 41_rounding R122: a subnormal's fraction is normalized to 24 bits by a shift of 1 to 23, with the exponent 1 - shift, and the value
kept. -/
def Obligations.NormSubnormalKeepsTheValue : Prop :=
  ∀ f : Nat, 0 < f → f < 2 ^ 23 → ∃ sh : Nat, sh = clz32 f - 8 ∧ 1 ≤ sh ∧ sh ≤ 23 ∧
    normSubnormal f = .ok (1 - (sh : Int), f * 2 ^ sh) ∧ 2 ^ 23 ≤ f * 2 ^ sh ∧ f * 2 ^ sh < 2 ^ 24 ∧
    ((f * 2 ^ sh : ℕ) : ℚ) * 2 ^ ((1 - (sh : ℤ)) - 150) = f * 2 ^ (-149 : ℤ)

/-- 41_rounding R120 and R121: `clz32` counts the zero bits above the most significant 1 bit, and is 32 for 0; `jam_W` shifts right and
keeps in the low bit whether a 1 bit was shifted out, and for a shift of W or more is 1 or 0 as the operand is not 0 or 0. -/
def Obligations.LeadingZerosAndJam : Prop :=
  clz32 0 = 32 ∧ (∀ x : Nat, 0 < x → x < 2 ^ 32 → clz32 x < 32 ∧ 2 ^ (31 - clz32 x) ≤ x ∧ x < 2 ^ (32 - clz32 x)) ∧
    (∀ W x : Nat, jam W x 0 = x) ∧
    (∀ W x n : Nat, x < 2 ^ W → 1 ≤ n → n < W →
      (∀ j : Nat, 1 ≤ j → (jam W x n).testBit j = x.testBit (n + j)) ∧
        ((jam W x n).testBit 0 = true ↔ x.testBit n = true ∨ ∃ j < n, x.testBit j = true)) ∧
    ∀ W x n : Nat, x < 2 ^ W → 1 ≤ n → W ≤ n → jam W x n = if x = 0 then 0 else 1

/-- 41_rounding R126: the integer arithmetic of the model gives `RoundRNE` of the exact rational, as R126 writes it. -/
def Obligations.IntegerRoundingIsRoundRNE : Prop :=
  ∀ (s : BitVec 1) (num den : Nat), 0 < den → roundRNE s num den = Exact.roundRNE s (num / den : ℚ)

/-- 41_rounding R126, first sentence: below the overflow threshold, `RoundRNE(s, q)` is a finite pattern of sign `s` whose value is at least as
near to `q` as that of every finite pattern, and, where another value is as near, its significand is even. -/
def Obligations.RoundRNEIsNearestEven : Prop :=
  ∀ (s : BitVec 1) (q : ℚ), 0 ≤ q → q < 2 ^ 128 - 2 ^ 103 →
    isFinite (Exact.roundRNE s q) = true ∧ signOf (Exact.roundRNE s q) = s ∧
      ∀ y : Word, isFinite y = true →
        |(|Exact.val (Exact.roundRNE s q)|) - q| ≤ |(|Exact.val y|) - q| ∧
          (|(|Exact.val (Exact.roundRNE s q)|) - q| = |(|Exact.val y|) - q| →
            |Exact.val y| = |Exact.val (Exact.roundRNE s q)| ∨ fracNat (Exact.roundRNE s q) % 2 = 0)

/-- 41_rounding R125: under P1 and P2, `round_and_pack(s, e, sig)` is `RoundRNE(s, sig × 2^(e-156))`. -/
def Obligations.RoundAndPackIsRoundRNE : Prop :=
  ∀ (s : BitVec 1) (e : Int) (sig : Nat), sig < 2 ^ 31 → (1 ≤ e → 2 ^ 30 ≤ sig) →
    roundAndPack s e sig = .ok (Exact.roundRNE s ((sig : ℚ) * 2 ^ (e - 156)))

/-- 41_rounding R132: `norm_round_and_pack(s, e, sig)` is `RoundRNE(s, sig × 2^(e-156))`, for every exponent. -/
def Obligations.NormRoundAndPackIsRoundRNE : Prop :=
  ∀ (s : BitVec 1) (e : Int) (sig : Nat), 0 < sig → sig < 2 ^ 31 →
    normRoundAndPack s e sig = .ok (Exact.roundRNE s ((sig : ℚ) * 2 ^ (e - 156)))

/-- 41_rounding R128, 60_exceptions R271: an operation whose exact magnitude is at or above the overflow threshold gives the signed infinity;
an operation that rounds an exact magnitude below it does not give an infinity. -/
def Obligations.OverflowIsAlwaysInfinity : Prop :=
  (∀ (s : BitVec 1) (num den : Nat), 0 < den → overflowThreshold * den ≤ num → roundRNE s num den = pattern s 0xFF 0) ∧
    ∀ (i : Instr) (s : State) (num den : Nat), exactMagnitude i = some (num, den) →
      ∃ r, AnswersR i s r ∧ (isInf r = true ↔ overflows num den = true)

/-- 41_rounding R129 and R130: a magnitude below 2^-126 is rounded once to a whole number of units of 2^-149, never flushed; the sign stays,
also on a zero. -/
def Obligations.UnderflowIsGradual : Prop :=
  ∀ (s : BitVec 1) (num den : Nat), 0 < den → num * 2 ^ 126 < den →
    signOf (roundRNE s num den) = s ∧
      (magUnits (roundRNE s num den) : ℤ) = Exact.rneInt ((num : ℚ) / den * 2 ^ 149) ∧
      (Exact.rneInt ((num : ℚ) / den * 2 ^ 149) = 0 → roundRNE s num den = s.zeroExtend 32 <<< 31)

/-! ### fp_adder -/

/-- 42_fp_adder R170: ADD is operation 0x2 and gives its value rule, over the exact rationals, for all operands. -/
def Obligations.AddGivesTheRoundedSum : Prop :=
  ∀ (a b c : Word) (s : State), decode (requestBits 0x2#4 a b c) = .add a b ∧ AnswersR (.add a b) s (Exact.add a b)

/-- 42_fp_adder R171: SUB is operation 0x3 and gives its value rule, over the exact rationals, for all operands. -/
def Obligations.SubGivesTheRoundedDifference : Prop :=
  ∀ (a b c : Word) (s : State), decode (requestBits 0x3#4 a b c) = .sub a b ∧ AnswersR (.sub a b) s (Exact.sub a b)

/-- 42_fp_adder R172 (a) to (f), but (e) as R170, R171 and 41_rounding R141 give it: SUB is ADD of the negated `b` whenever `b` is not a NaN,
except for the NaN 0xFFC00000 beside an infinity, whose tie the two operations decide with infinities of opposite sign (log 21). -/
def Obligations.LawsOfAddAndSub : Prop :=
  ∀ (a b : Word) (s : State),
    (∃ r, AnswersR (.add a b) s r ∧ AnswersR (.add b a) s r) ∧
      (isNaN a = false → a ≠ 0x80000000#32 → AnswersR (.add a 0x00000000#32) s a) ∧
      AnswersR (.add 0x80000000#32 0x00000000#32) s 0x00000000#32 ∧
      (isNaN a = false → AnswersR (.add a 0x80000000#32) s a) ∧
      (isFinite a = true → AnswersR (.sub a a) s 0x00000000#32) ∧
      (isNaN b = false → ¬ (a = 0xFFC00000#32 ∧ isInf b = true) →
        ∃ r, AnswersR (.sub a b) s r ∧ AnswersR (.add a (b ^^^ 0x80000000#32)) s r) ∧
      (AnswersR (.sub 0xFFC00000#32 0x7F800000#32) s 0x7FC00000#32 ∧
        AnswersR (.add 0xFFC00000#32 0xFF800000#32) s 0xFFC00000#32) ∧
      (isNaN a = true ∨ isNaN b = true → ∃ r r', AnswersR (.add a b) s r ∧ isNaN r = true ∧
        AnswersR (.sub a b) s r' ∧ isNaN r' = true)

/-- 42_fp_adder R161 and R162, for finite operands: `add_mags(a, b, s)` is the pattern of (-1)^s × (|a| + |b|) and `sub_mags(a, b, s)` that of
(-1)^s × (|a| - |b|), each rounded once; equal magnitudes subtract to +0. -/
def Obligations.MagnitudeUnitsAreExact : Prop :=
  ∀ (a b : Word) (s : BitVec 1), isFinite a = true → isFinite b = true →
    addMags a b s = .ok (Exact.roundRNE s (|Exact.val a| + |Exact.val b|)) ∧
      subMags a b s = .ok (
        if |Exact.val a| = |Exact.val b| then 0x00000000#32
        else if |Exact.val a| < |Exact.val b| then Exact.roundRNE (~~~s) (|Exact.val b| - |Exact.val a|)
        else Exact.roundRNE s (|Exact.val a| - |Exact.val b|))

/-- 42_fp_adder R160 and 00_scope R6: the datapaths of ADD and SUB, dispatched by effective sign, give the value rules for all operands, and so
never call a unit outside its precondition. -/
def Obligations.AdderDatapathGivesTheValueRule : Prop :=
  ∀ a b : Word, addDatapath a b = .ok (Exact.add a b) ∧ subDatapath a b = .ok (Exact.sub a b)

/-! ### fp_multiplier and fp_divider -/

/-- 43_fp_multiplier R190: MUL is operation 0x4 and gives its value rule, over the exact rationals, for all operands. -/
def Obligations.MulGivesTheRoundedProduct : Prop :=
  ∀ (a b c : Word) (s : State), decode (requestBits 0x4#4 a b c) = .mul a b ∧ AnswersR (.mul a b) s (Exact.mul a b)

/-- 43_fp_multiplier R192 (a) to (c). -/
def Obligations.LawsOfMul : Prop :=
  ∀ (a b : Word) (s : State),
    (∃ r, AnswersR (.mul a b) s r ∧ AnswersR (.mul b a) s r) ∧
      (isNaN a = false → AnswersR (.mul a 0x3F800000#32) s a) ∧
      (isNaN a = true ∨ isNaN b = true → ∃ r, AnswersR (.mul a b) s r ∧ isNaN r = true)

/-- 43_fp_multiplier R191 and 00_scope R6: the datapath of MUL gives the value rule for all operands. -/
def Obligations.MultiplierDatapathGivesTheValueRule : Prop := ∀ a b : Word, mulDatapath a b = .ok (Exact.mul a b)

/-- 44_fp_divider R200: DIV is operation 0x5 and gives its value rule, over the exact rationals, for all operands. -/
def Obligations.DivGivesTheRoundedQuotient : Prop :=
  ∀ (a b c : Word) (s : State), decode (requestBits 0x5#4 a b c) = .div a b ∧ AnswersR (.div a b) s (Exact.div a b)

/-- 44_fp_divider R203 (a) to (d). -/
def Obligations.LawsOfDiv : Prop :=
  ∀ (a b : Word) (s : State),
    (isNaN a = false → AnswersR (.div a 0x3F800000#32) s a) ∧
      (isFinite a = true → isZero a = false → AnswersR (.div a a) s 0x3F800000#32) ∧
      (isNaN a = true ∨ isNaN b = true → ∃ r, AnswersR (.div a b) s r ∧ isNaN r = true) ∧
      ∀ y : Word, isFinite a = true → isFinite b = true → isZero b = false → isFinite y = true →
        signOf y = signOf a ^^^ signOf b → Exact.val y = Exact.val a / Exact.val b → AnswersR (.div a b) s y

/-- 44_fp_divider R201 and 00_scope R6: the datapath of DIV, by exact wide division, gives the value rule for all operands. -/
def Obligations.DividerDatapathGivesTheValueRule : Prop := ∀ a b : Word, divDatapath a b = .ok (Exact.div a b)

/-! ### fp_sqrt -/

/-- 45_fp_sqrt R215: SQRT is operation 0x6; a NaN gives itself quieted, a zero itself, a negative value `DEFAULT_NAN`, +infinity itself, and
every other operand `RoundRNE` of its exact real square root, whose exponent field lies in 52..190. -/
def Obligations.SqrtGivesTheRoundedRoot : Prop :=
  ∀ (a b c : Word) (s : State), decode (requestBits 0x6#4 a b c) = .sqrt a ∧
    (isNaN a = true → AnswersR (.sqrt a) s (a ||| 0x00400000#32)) ∧
    (isZero a = true → AnswersR (.sqrt a) s a) ∧
    (isNaN a = false → isZero a = false → signOf a = 1#1 → AnswersR (.sqrt a) s Config.defaultNan) ∧
    (isInf a = true → signOf a = 0#1 → AnswersR (.sqrt a) s a) ∧
    (isFinite a = true → isZero a = false → signOf a = 0#1 →
      AnswersR (.sqrt a) s (Exact.roundRNE 0#1 (Real.sqrt (Exact.val a : ℝ))) ∧
        52 ≤ expNat (Exact.roundRNE 0#1 (Real.sqrt (Exact.val a : ℝ))) ∧
        expNat (Exact.roundRNE 0#1 (Real.sqrt (Exact.val a : ℝ))) ≤ 190)

/-- 45_fp_sqrt R218 (b) and (c): SQRT is exact when the root is a binary32 value; it is a NaN for a NaN and for every negative operand other
than -0. -/
def Obligations.SqrtIsExactWhereItCanBe : Prop :=
  ∀ (a : Word) (s : State),
    (∀ y : Word, isFinite a = true → signOf a = 0#1 → isFinite y = true → signOf y = 0#1 →
      Exact.val y * Exact.val y = Exact.val a → AnswersR (.sqrt a) s y) ∧
    (isNaN a = true ∨ (signOf a = 1#1 ∧ a ≠ 0x80000000#32) → ∃ r, AnswersR (.sqrt a) s r ∧ isNaN r = true)

/-- 45_fp_sqrt R218 (a): the root of the rounded square of a positive normal is the number, when the square is normal. -/
def Obligations.SqrtOfSquareGivesBack : Prop :=
  ∀ (x : Word) (s : State), signOf x = 0#1 → isNormal x = true →
    ∃ r, AnswersR (.mul x x) s r ∧ (isNormal r = true → AnswersR (.sqrt r) s x)

/-- 45_fp_sqrt R216 and 00_scope R6: the datapath of SQRT, by exact integer square root, gives what SQRT answers, for all operands. -/
def Obligations.SqrtDatapathGivesTheAnswer : Prop :=
  ∀ (a : Word) (s : State), ∃ r, sqrtDatapath a = .ok r ∧ AnswersR (.sqrt a) s r

/-! ### fp_comparator -/

/-- 46_fp_comparator R230: with a NaN operand every comparison is false, NE among them. -/
def Obligations.ComparisonsAreFalseUnderNaN : Prop :=
  ∀ (a b : Word) (s : State), (isNaN a = true ∨ isNaN b = true) →
    AnswersT (.eq a b) s False ∧ AnswersT (.ne a b) s False ∧ AnswersT (.lt a b) s False ∧
      AnswersT (.le a b) s False ∧ AnswersT (.gt a b) s False ∧ AnswersT (.ge a b) s False

/-- 46_fp_comparator R232 and R233: EQ is operation 0x7, NE 0x8, with their bit-level rules. -/
def Obligations.EqAndNeFollowTheirRules : Prop :=
  ∀ (a b c : Word) (s : State), decode (requestBits 0x7#4 a b c) = .eq a b ∧ decode (requestBits 0x8#4 a b c) = .ne a b ∧
    AnswersT (.eq a b) s (NoNaN a b ∧ (a = b ∨ BothZeroRule a b)) ∧
    AnswersT (.ne a b) s (NoNaN a b ∧ ¬ (a = b ∨ BothZeroRule a b))

/-- 46_fp_comparator R234 and R235: LT is operation 0x9, LE 0xA, with their bit-level rules. -/
def Obligations.LtAndLeFollowTheirRules : Prop :=
  ∀ (a b c : Word) (s : State), decode (requestBits 0x9#4 a b c) = .lt a b ∧ decode (requestBits 0xA#4 a b c) = .le a b ∧
    AnswersT (.lt a b) s (NoNaN a b ∧ LtRule a b) ∧ AnswersT (.le a b) s (NoNaN a b ∧ LeRule a b)

/-- 46_fp_comparator R236 and R237: GT is operation 0xB, GE 0xC; they are the negations of LE and LT, the NaN test first. -/
def Obligations.GtAndGeFollowTheirRules : Prop :=
  ∀ (a b c : Word) (s : State), decode (requestBits 0xB#4 a b c) = .gt a b ∧ decode (requestBits 0xC#4 a b c) = .ge a b ∧
    AnswersT (.gt a b) s (NoNaN a b ∧ ¬ LeRule a b) ∧ AnswersT (.ge a b) s (NoNaN a b ∧ ¬ LtRule a b)

/-- 46_fp_comparator R238: for operands that are not NaNs exactly one of LT, EQ and GT is 1, and the six relations fit together; with a NaN
operand all six are 0. -/
def Obligations.ComparatorIsTotal : Prop :=
  ∀ (a b : Word) (s : State),
    (NoNaN a b →
      ∃ lt eq gt : Prop, AnswersT (.lt a b) s lt ∧ AnswersT (.eq a b) s eq ∧ AnswersT (.gt a b) s gt ∧
        ((lt ∧ ¬ eq ∧ ¬ gt) ∨ (¬ lt ∧ eq ∧ ¬ gt) ∨ (¬ lt ∧ ¬ eq ∧ gt)) ∧
        AnswersT (.ne a b) s (¬ eq) ∧ AnswersT (.le a b) s (lt ∨ eq) ∧ AnswersT (.ge a b) s (gt ∨ eq) ∧
        AnswersT (.gt b a) s lt ∧ AnswersT (.ge b a) s (lt ∨ eq)) ∧
    (¬ NoNaN a b →
      AnswersT (.lt a b) s False ∧ AnswersT (.eq a b) s False ∧ AnswersT (.gt a b) s False ∧
        AnswersT (.ne a b) s False ∧ AnswersT (.le a b) s False ∧ AnswersT (.ge a b) s False)

/-- 46_fp_comparator R239: for operands that are not NaNs the six comparisons compare the values, infinities at the ends and the two zeros
equal. -/
def Obligations.ComparatorComparesValues : Prop :=
  ∀ (a b : Word) (s : State), NoNaN a b →
    AnswersT (.eq a b) s (Exact.xv a = Exact.xv b) ∧ AnswersT (.ne a b) s (Exact.xv a ≠ Exact.xv b) ∧
      AnswersT (.lt a b) s (Exact.xv a < Exact.xv b) ∧ AnswersT (.le a b) s (Exact.xv a ≤ Exact.xv b) ∧
      AnswersT (.gt a b) s (Exact.xv b < Exact.xv a) ∧ AnswersT (.ge a b) s (Exact.xv b ≤ Exact.xv a)

/-! ### The integer converters -/

/-- 47_int_conversion R250: TO_INT32 is operation 0xE and gives its value rule in two's complement, for all operands. -/
def Obligations.ToInt32GivesTheRoundedInteger : Prop :=
  ∀ (a b c : Word) (s : State), decode (requestBits 0xE#4 a b c) = .toInt32 a ∧
    AnswersR (.toInt32 a) s (BitVec.ofInt 32 (Exact.toInt32 a))

/-- 47_int_conversion R252 (a) to (c). -/
def Obligations.LawsOfToInt32 : Prop :=
  ∀ (a : Word) (s : State),
    (isFinite a = true → -2 ^ 31 ≤ Exact.val a → Exact.val a < 2 ^ 31 - 1 / 2 →
      ∃ n : ℤ, -2 ^ 31 ≤ n ∧ n < 2 ^ 31 ∧ AnswersR (.toInt32 a) s (BitVec.ofInt 32 n) ∧
        |Exact.val a - n| ≤ 1 / 2 ∧ (|Exact.val a - n| = 1 / 2 → n % 2 = 0)) ∧
    (isFinite a = true → ¬ (2 ^ 31 - 128 < Exact.val a ∧ Exact.val a < 2 ^ 31)) ∧
    (isFinite a = true → |Exact.val a| < 2 ^ 31 - 1 / 2 →
      ∃ r, AnswersR (.toInt32 a) s r ∧ AnswersR (.toInt32 (a ^^^ 0x80000000#32)) s (-r)) ∧
    (isNaN a = true → ∃ r, AnswersR (.toInt32 a) s r ∧ AnswersR (.toInt32 (a ^^^ 0x80000000#32)) s r)

/-- 47_int_conversion R251 and 00_scope R6: the datapath of TO_INT32 gives the value rule, for all operands. -/
def Obligations.ToInt32DatapathGivesTheValueRule : Prop :=
  ∀ a : Word, toInt32Core a = BitVec.ofInt 32 (Exact.toInt32 a)

/-- 47_int_conversion R255: FROM_INT32 is operation 0xF and gives its value rule, for all operands. -/
def Obligations.FromInt32GivesTheRoundedValue : Prop :=
  ∀ (a b c : Word) (s : State), decode (requestBits 0xF#4 a b c) = .fromInt32 a ∧
    AnswersR (.fromInt32 a) s (Exact.fromInt32 a)

/-- 47_int_conversion R257 (a) to (c): the round trip up to 2^24, which integers convert exactly, and the sign. -/
def Obligations.LawsOfFromInt32 : Prop :=
  ∀ (x : Word) (s : State),
    (|x.toInt| ≤ 2 ^ 24 → ∃ r, AnswersR (.fromInt32 x) s r ∧ AnswersR (.toInt32 r) s x) ∧
    (∃ r, AnswersR (.fromInt32 x) s r ∧ (Exact.val r = x.toInt ↔
      x.toInt = 0 ∨ ∃ k j : Nat, |x.toInt| = 2 ^ k * j ∧ j % 2 = 1 ∧ j < 2 ^ 24)) ∧
    (x ≠ 0x00000000#32 → x ≠ 0x80000000#32 →
      ∃ r, AnswersR (.fromInt32 x) s r ∧ AnswersR (.fromInt32 (-x)) s (r ^^^ 0x80000000#32))

/-- 47_int_conversion R256 and 00_scope R6: the datapath of FROM_INT32 gives the value rule, for all operands. -/
def Obligations.FromInt32DatapathGivesTheValueRule : Prop := ∀ a : Word, fromInt32Core a = .ok (Exact.fromInt32 a)

/-! ### The conditions of 60_exceptions R271 -/

/-- 60_exceptions R271: the response that each condition gives, in the operation it arises in: no trap, no flag, only the response. An underflow
may round up to the smallest normal (41_rounding R129); it arises exactly when the rounded magnitude is below 2^-126 (10_state R21; rounded
to 24 bits with no bound on the exponent, as IEEE-754 does, which is PRESUMED: log 25), and the response is one of these three for every
exact magnitude below 2^-126. For the inexact row, the response is the rounded value (R126), and the condition
arises exactly when that is not the exact value; it arises in no operation but those that round. -/
def Obligations.ConditionsShapeOnlyTheResponse : Prop :=
  ∀ (i : Instr) (s : State),
    (arises i .invalidOperation = true → AnswersR i s Config.defaultNan) ∧
    (∀ a, i = .toInt32 a → arises i .invalidConversion = true →
      AnswersR i s (if isNaN a = false ∧ signOf a = 1#1 then 0x80000000#32 else 0x7FFFFFFF#32)) ∧
    (arises i .signalingOperand = true → ∃ r, AnswersR i s r ∧ classify r = .quietNaN) ∧
    (∀ a b, i = .div a b → arises i .divisionByZero = true → AnswersR i s (pattern (signOf a ^^^ signOf b) 0xFF 0)) ∧
    (arises i .overflow = true → ∃ r, AnswersR i s r ∧ isInf r = true) ∧
    (arises i .underflow = true → ∃ r, AnswersR i s r ∧
      (isZero r = true ∨ isSubnormal r = true ∨ (expNat r = 1 ∧ fracNat r = 0))) ∧
    (∀ num den : Nat, exactMagnitude i = some (num, den) →
      (arises i .underflow = true ↔ num ≠ 0 ∧ Exact.roundUnbounded (num / den : ℚ) < 2 ^ (-126 : ℤ)) ∧
        (num ≠ 0 → num * 2 ^ 126 < den → ∃ r, AnswersR i s r ∧
          (isZero r = true ∨ isSubnormal r = true ∨ (expNat r = 1 ∧ fracNat r = 0)))) ∧
    (arises i .nanComparison = true → AnswersT i s False) ∧
    (∀ num den : Nat, exactMagnitude i = some (num, den) →
      ∃ r, AnswersR i s r ∧ r = Exact.roundRNE (signOf r) (num / den : ℚ) ∧
        (arises i .inexact = true ↔ isInf r = true ∨ |Exact.val r| ≠ num / den)) ∧
    (∀ a, i = .sqrt a → isFinite a = true → isZero a = false → signOf a = 0#1 →
      ∃ r, AnswersR i s r ∧ r = Exact.roundRNE 0#1 (Real.sqrt (Exact.val a : ℝ)) ∧
        (arises i .inexact = true ↔ (Exact.val r : ℝ) ≠ Real.sqrt (Exact.val a : ℝ))) ∧
    (∀ a, i = .toInt32 a → isFinite a = true →
      AnswersR i s (BitVec.ofInt 32 (Exact.toInt32 a)) ∧
        (arises i .inexact = true ↔ (Exact.rneInt (Exact.val a) : ℚ) ≠ Exact.val a)) ∧
    (arises i .inexact = true → (∃ num den, exactMagnitude i = some (num, den)) ∨
      (∃ a, i = .sqrt a ∧ isFinite a = true ∧ isZero a = false ∧ signOf a = 0#1) ∨ ∃ a, i = .toInt32 a ∧ isFinite a = true)
end

