-- ==== Sys2Proof/Laws/Decode.lean ====
section
/-! SUPPORT. The fields of a request built from fields, and a request rebuilt from its fields (30_encoding R64). -/

namespace Sys2Proof

/-- A request as a number: `op << 96 | c << 64 | b << 32 | a`. -/
theorem requestBits_toNat (op : BitVec 4) (a b c : Word) :
    (requestBits op a b c).toNat = op.toNat * 2 ^ 96 + c.toNat * 2 ^ 64 + b.toNat * 2 ^ 32 + a.toNat := by
  have ha := a.isLt
  have hb := b.isLt
  have hc := c.isLt
  unfold requestBits
  simp only [BitVec.toNat_append, Nat.shiftLeft_eq]
  rw [Nat.mul_comm b.toNat, ← Nat.two_pow_add_eq_or_of_lt ha, Nat.mul_comm c.toNat,
    ← Nat.two_pow_add_eq_or_of_lt (by omega : 2 ^ 32 * b.toNat + a.toNat < 2 ^ (32 + 32)), Nat.mul_comm op.toNat,
    ← Nat.two_pow_add_eq_or_of_lt
      (by omega : 2 ^ (32 + 32) * c.toNat + (2 ^ 32 * b.toNat + a.toNat) < 2 ^ (32 + (32 + 32)))]
  omega

theorem aField_toNat (w : Request) : (aField w).toNat = w.toNat % 2 ^ 32 := by
  simp [aField, BitVec.extractLsb'_toNat]

theorem bField_toNat (w : Request) : (bField w).toNat = w.toNat / 2 ^ 32 % 2 ^ 32 := by
  simp [bField, BitVec.extractLsb'_toNat, Nat.shiftRight_eq_div_pow]

theorem cField_toNat (w : Request) : (cField w).toNat = w.toNat / 2 ^ 64 % 2 ^ 32 := by
  simp [cField, BitVec.extractLsb'_toNat, Nat.shiftRight_eq_div_pow]

theorem opField_toNat (w : Request) : (opField w).toNat = w.toNat / 2 ^ 96 % 2 ^ 4 := by
  simp [opField, BitVec.extractLsb'_toNat, Nat.shiftRight_eq_div_pow]

@[simp] theorem aField_requestBits (op : BitVec 4) (a b c : Word) : aField (requestBits op a b c) = a := by
  apply BitVec.eq_of_toNat_eq
  rw [aField_toNat, requestBits_toNat]
  have := a.isLt
  omega

@[simp] theorem bField_requestBits (op : BitVec 4) (a b c : Word) : bField (requestBits op a b c) = b := by
  apply BitVec.eq_of_toNat_eq
  rw [bField_toNat, requestBits_toNat]
  have := a.isLt
  have := b.isLt
  omega

@[simp] theorem cField_requestBits (op : BitVec 4) (a b c : Word) : cField (requestBits op a b c) = c := by
  apply BitVec.eq_of_toNat_eq
  rw [cField_toNat, requestBits_toNat]
  have := a.isLt
  have := b.isLt
  have := c.isLt
  omega

@[simp] theorem opField_requestBits (op : BitVec 4) (a b c : Word) : opField (requestBits op a b c) = op := by
  apply BitVec.eq_of_toNat_eq
  rw [opField_toNat, requestBits_toNat]
  have := a.isLt
  have := b.isLt
  have := c.isLt
  have := op.isLt
  omega

/-- A request is its four fields. -/
theorem requestBits_fields (w : Request) : requestBits (opField w) (aField w) (bField w) (cField w) = w := by
  apply BitVec.eq_of_toNat_eq
  rw [requestBits_toNat, aField_toNat, bField_toNat, cField_toNat, opField_toNat]
  have := w.isLt
  omega

/-- The four bits the decoder matches on are the bits of `op`. -/
theorem getLsbD_opField (w : Request) (i : Nat) (hi : i < 4) : (opField w).getLsbD i = w.getLsbD (96 + i) := by
  simp [opField, hi]

/-- The decoder, by the operation number of a request built from fields. -/
theorem decode_requestBits (op : BitVec 4) (a b c : Word) : decode (requestBits op a b c) =
    match op.getLsbD 3, op.getLsbD 2, op.getLsbD 1, op.getLsbD 0 with
    | false, false, false, false => .pack a b c
    | false, false, false, true => .unpack a
    | false, false, true, false => .add a b
    | false, false, true, true => .sub a b
    | false, true, false, false => .mul a b
    | false, true, false, true => .div a b
    | false, true, true, false => .sqrt a
    | false, true, true, true => .eq a b
    | true, false, false, false => .ne a b
    | true, false, false, true => .lt a b
    | true, false, true, false => .le a b
    | true, false, true, true => .gt a b
    | true, true, false, false => .ge a b
    | true, true, false, true => .isNan a
    | true, true, true, false => .toInt32 a
    | true, true, true, true => .fromInt32 a := by
  have h (i : Nat) (hi : i < 4) : (requestBits op a b c).getLsbD (96 + i) = op.getLsbD i := by
    rw [← getLsbD_opField _ _ hi, opField_requestBits]
  have h3 := h 3 (by omega)
  have h2 := h 2 (by omega)
  have h1 := h 1 (by omega)
  have h0 := h 0 (by omega)
  simp only [Nat.reduceAdd] at h0 h1 h2 h3
  generalize op.getLsbD 3 = x3, op.getLsbD 2 = x2, op.getLsbD 1 = x1, op.getLsbD 0 = x0 at h3 h2 h1 h0 ⊢
  cases x3 <;> cases x2 <;> cases x1 <;> cases x0 <;>
    simp only [decode, h0, h1, h2, h3, aField_requestBits, bField_requestBits, cField_requestBits]

end Sys2Proof
end

