-- ==== Sys2Proof/Laws/Operands.lean ====
section
/-! SUPPORT. The fields, the classes and the exact value of a pattern; the pattern of fields in range. -/

namespace Sys2Proof.Machine

/-! ### Fields -/

theorem expNat_eq (x : Word) : expNat x = x.toNat / 2 ^ 23 % 2 ^ 8 := by
  simp [expNat, expOf, BitVec.extractLsb'_toNat, Nat.shiftRight_eq_div_pow]

theorem fracNat_eq (x : Word) : fracNat x = x.toNat % 2 ^ 23 := by
  simp [fracNat, fracOf, BitVec.extractLsb'_toNat]

theorem signOf_toNat (x : Word) : (signOf x).toNat = x.toNat / 2 ^ 31 := by
  have := x.isLt
  simp only [signOf, BitVec.extractLsb'_toNat, Nat.shiftRight_eq_div_pow]
  omega

theorem expNat_lt (x : Word) : expNat x < 256 := (expOf x).isLt

theorem fracNat_lt (x : Word) : fracNat x < 2 ^ 23 := (fracOf x).isLt

theorem signOf_cases (x : Word) : signOf x = 0#1 ∨ signOf x = 1#1 := by
  have := (signOf x).isLt
  rcases (by omega : (signOf x).toNat = 0 ∨ (signOf x).toNat = 1) with h | h
  · exact .inl (BitVec.eq_of_toNat_eq h)
  · exact .inr (BitVec.eq_of_toNat_eq h)

/-- A pattern is its three fields. -/
theorem toNat_eq_fields (x : Word) : x.toNat = (signOf x).toNat * 2 ^ 31 + expNat x * 2 ^ 23 + fracNat x := by
  have := x.isLt
  rw [signOf_toNat, expNat_eq, fracNat_eq]
  omega

theorem eq_of_fields {x y : Word} (hs : signOf x = signOf y) (he : expNat x = expNat y) (hf : fracNat x = fracNat y) :
    x = y := by
  apply BitVec.eq_of_toNat_eq
  rw [toNat_eq_fields x, toNat_eq_fields y, hs, he, hf]

/-! ### Patterns -/

theorem signedZero_toNat (s : BitVec 1) : (signedZero s).toNat = s.toNat * 2 ^ 31 := by
  have := s.isLt
  simp only [signedZero, BitVec.toNat_shiftLeft, BitVec.toNat_setWidth, Nat.shiftLeft_eq]
  omega

theorem pattern_toNat (s : BitVec 1) {E F : Nat} (hE : E < 256) (hF : F < 2 ^ 23) :
    (pattern s E F).toNat = s.toNat * 2 ^ 31 + E * 2 ^ 23 + F := by
  have hs := s.isLt
  have h1 : (BitVec.ofNat 32 E <<< 23).toNat = E * 2 ^ 23 := by
    simp only [BitVec.toNat_shiftLeft, BitVec.toNat_ofNat, Nat.shiftLeft_eq]; omega
  have h2 : (BitVec.ofNat 32 F).toNat = F := by simp only [BitVec.toNat_ofNat]; omega
  simp only [pattern, BitVec.toNat_or, h1, h2, signedZero_toNat]
  have h3 : s.toNat * 2 ^ 31 ||| E * 2 ^ 23 = s.toNat * 2 ^ 31 + E * 2 ^ 23 := by
    rw [Nat.mul_comm s.toNat, ← Nat.two_pow_add_eq_or_of_lt (by omega)]
  rw [h3, show s.toNat * 2 ^ 31 + E * 2 ^ 23 = 2 ^ 23 * (s.toNat * 2 ^ 8 + E) by omega,
    ← Nat.two_pow_add_eq_or_of_lt hF]

theorem signOf_pattern (s : BitVec 1) {E F : Nat} (hE : E < 256) (hF : F < 2 ^ 23) : signOf (pattern s E F) = s := by
  apply BitVec.eq_of_toNat_eq
  rw [signOf_toNat, pattern_toNat s hE hF]
  omega

theorem expNat_pattern (s : BitVec 1) {E F : Nat} (hE : E < 256) (hF : F < 2 ^ 23) : expNat (pattern s E F) = E := by
  rw [expNat_eq, pattern_toNat s hE hF]
  omega

theorem fracNat_pattern (s : BitVec 1) {E F : Nat} (hE : E < 256) (hF : F < 2 ^ 23) : fracNat (pattern s E F) = F := by
  rw [fracNat_eq, pattern_toNat s hE hF]
  omega

theorem pattern_fields (x : Word) : pattern (signOf x) (expNat x) (fracNat x) = x :=
  eq_of_fields (signOf_pattern _ (expNat_lt x) (fracNat_lt x)) (expNat_pattern _ (expNat_lt x) (fracNat_lt x))
    (fracNat_pattern _ (expNat_lt x) (fracNat_lt x))

theorem signedZero_eq_pattern (s : BitVec 1) : signedZero s = pattern s 0 0 := by
  apply BitVec.eq_of_toNat_eq
  rw [signedZero_toNat, pattern_toNat s (by omega) (by omega)]
  omega

theorem signedInf_eq_pattern (s : BitVec 1) : signedInf s = pattern s 255 0 := by
  unfold signedInf pattern
  rw [show (0x7F800000#32 : Word) = (BitVec.ofNat 32 255 <<< 23) from by decide]
  simp

/-! ### Classes -/

theorem isZero_iff (x : Word) : isZero x = true ↔ expNat x = 0 ∧ fracNat x = 0 := by simp [isZero]

theorem isSubnormal_iff (x : Word) : isSubnormal x = true ↔ expNat x = 0 ∧ fracNat x ≠ 0 := by simp [isSubnormal]

theorem isNormal_iff (x : Word) : isNormal x = true ↔ 0 < expNat x ∧ expNat x < 255 := by simp [isNormal]

theorem isInf_iff (x : Word) : isInf x = true ↔ expNat x = 255 ∧ fracNat x = 0 := by simp [isInf]

theorem isNaN_iff (x : Word) : isNaN x = true ↔ expNat x = 255 ∧ fracNat x ≠ 0 := by simp [isNaN]

theorem isFinite_iff (x : Word) : isFinite x = true ↔ expNat x < 255 := by
  have := expNat_lt x
  simp only [isFinite, bne_iff_ne, ne_eq]
  omega

/-- A pattern is finite, an infinity or a NaN. -/
theorem finite_inf_or_nan (x : Word) : isFinite x = true ∨ isInf x = true ∨ isNaN x = true := by
  have := expNat_lt x
  rw [isFinite_iff, isInf_iff, isNaN_iff]
  omega

theorem not_isNaN_of_isFinite {x : Word} (h : isFinite x = true) : isNaN x = false := by
  rw [isFinite_iff] at h
  simp only [isNaN, Bool.and_eq_false_iff, beq_eq_false_iff_ne]
  omega

theorem not_isInf_of_isFinite {x : Word} (h : isFinite x = true) : isInf x = false := by
  rw [isFinite_iff] at h
  simp only [isInf, Bool.and_eq_false_iff, beq_eq_false_iff_ne]
  omega

/-- The magnitude of a pattern, as the comparator and the NaN propagator read it. -/
theorem mag_eq (x : Word) : mag x = expNat x * 2 ^ 23 + fracNat x := by
  have := x.isLt
  have h : mag x = x.toNat % 2 ^ 31 := by
    simp only [mag, BitVec.toNat_and, BitVec.toNat_ofNat]
    exact Nat.and_two_pow_sub_one_eq_mod x.toNat 31
  rw [h, expNat_eq, fracNat_eq]
  omega

theorem mag_lt (x : Word) : mag x < 2 ^ 31 := by
  have h1 := expNat_lt x
  have h2 := fracNat_lt x
  rw [mag_eq]
  omega

/-! ### Exact values -/

theorem magUnits_of_exp_zero {x : Word} (h : expNat x = 0) : magUnits x = fracNat x := by simp [magUnits, h]

theorem magUnits_of_exp_pos {x : Word} (h : 0 < expNat x) :
    magUnits x = (2 ^ 23 + fracNat x) * 2 ^ (expNat x - 1) := by simp [magUnits, Nat.pos_iff_ne_zero.mp h]

theorem magUnits_eq_zero_iff (x : Word) : magUnits x = 0 ↔ isZero x = true := by
  rw [isZero_iff, magUnits]
  split
  · simp [*]
  · simp [*]

theorem units_natAbs (x : Word) : (units x).natAbs = magUnits x := by
  unfold units
  split <;> simp

theorem units_eq_zero_iff (x : Word) : units x = 0 ↔ isZero x = true := by
  rw [← magUnits_eq_zero_iff, ← units_natAbs, Int.natAbs_eq_zero]

/-- A finite magnitude is below 2^128, in units of 2^-149. -/
theorem magUnits_lt {x : Word} (h : isFinite x = true) : magUnits x < 2 ^ 24 * 2 ^ 253 := by
  rw [isFinite_iff] at h
  have hf := fracNat_lt x
  rw [magUnits]
  split
  · exact lt_of_lt_of_le hf (by norm_num)
  · calc (2 ^ 23 + fracNat x) * 2 ^ (expNat x - 1)
        < 2 ^ 24 * 2 ^ (expNat x - 1) := Nat.mul_lt_mul_of_pos_right (by omega) (by positivity)
      _ ≤ 2 ^ 24 * 2 ^ 253 := Nat.mul_le_mul_left _ (Nat.pow_le_pow_right (by omega) (by omega))

/-- An int32 operand read in two's complement. -/
theorem int32Of_eq_toInt (a : Word) : int32Of a = a.toInt := by
  have := a.isLt
  unfold int32Of
  rw [BitVec.toInt_eq_msb_cond, BitVec.msb_eq_getLsbD_last]
  split <;> simp

end Sys2Proof.Machine
end

