-- ==== Sys2Proof/Laws/PerInstr.lean ====
section
/-! SUPPORT. The family OpMap: for each operation, its request carries its operation number (30_encoding R66), its unread
fields are 0 (30_encoding R71), and it is well-formed (30_encoding R69). -/

namespace Sys2Proof.Laws.OpMap

/-- What the family says of an operation. -/
def Statement (i : Instr) : Prop :=
  i.wellFormed = true ∧ opField (encode i) = i.op ∧
    (Machine.readsB i.op = false → bField (encode i) = 0#32) ∧ (Machine.readsC i.op = false → cField (encode i) = 0#32)

theorem pack (a b c : Word) : Statement (.pack a b c) := by
  simp [Statement, Instr.wellFormed, encode, Instr.op, Machine.readsB, Machine.readsC]

theorem unpack (a : Word) : Statement (.unpack a) := by
  simp [Statement, Instr.wellFormed, encode, Instr.op, Machine.readsB, Machine.readsC]

theorem add (a b : Word) : Statement (.add a b) := by
  simp [Statement, Instr.wellFormed, encode, Instr.op, Machine.readsB, Machine.readsC]

theorem sub (a b : Word) : Statement (.sub a b) := by
  simp [Statement, Instr.wellFormed, encode, Instr.op, Machine.readsB, Machine.readsC]

theorem mul (a b : Word) : Statement (.mul a b) := by
  simp [Statement, Instr.wellFormed, encode, Instr.op, Machine.readsB, Machine.readsC]

theorem div (a b : Word) : Statement (.div a b) := by
  simp [Statement, Instr.wellFormed, encode, Instr.op, Machine.readsB, Machine.readsC]

theorem sqrt (a : Word) : Statement (.sqrt a) := by
  simp [Statement, Instr.wellFormed, encode, Instr.op, Machine.readsB, Machine.readsC]

theorem eq (a b : Word) : Statement (.eq a b) := by
  simp [Statement, Instr.wellFormed, encode, Instr.op, Machine.readsB, Machine.readsC]

theorem ne (a b : Word) : Statement (.ne a b) := by
  simp [Statement, Instr.wellFormed, encode, Instr.op, Machine.readsB, Machine.readsC]

theorem lt (a b : Word) : Statement (.lt a b) := by
  simp [Statement, Instr.wellFormed, encode, Instr.op, Machine.readsB, Machine.readsC]

theorem le (a b : Word) : Statement (.le a b) := by
  simp [Statement, Instr.wellFormed, encode, Instr.op, Machine.readsB, Machine.readsC]

theorem gt (a b : Word) : Statement (.gt a b) := by
  simp [Statement, Instr.wellFormed, encode, Instr.op, Machine.readsB, Machine.readsC]

theorem ge (a b : Word) : Statement (.ge a b) := by
  simp [Statement, Instr.wellFormed, encode, Instr.op, Machine.readsB, Machine.readsC]

theorem isNan (a : Word) : Statement (.isNan a) := by
  simp [Statement, Instr.wellFormed, encode, Instr.op, Machine.readsB, Machine.readsC]

theorem toInt32 (a : Word) : Statement (.toInt32 a) := by
  simp [Statement, Instr.wellFormed, encode, Instr.op, Machine.readsB, Machine.readsC]

theorem fromInt32 (a : Word) : Statement (.fromInt32 a) := by
  simp [Statement, Instr.wellFormed, encode, Instr.op, Machine.readsB, Machine.readsC]

end Sys2Proof.Laws.OpMap
end

