-- ==== Sys2Proof/Laws/Rounding.lean ====
section
/-! SUPPORT. The parts of rounding to nearest even: the exponent, the rounded integer, the sticky bit, the integer square
root, and their exact rational counterparts (41_rounding R121, R126, 45_fp_sqrt R216). -/

namespace Sys2Proof.Machine

/-! ### The rounded integer -/

/-- `rneNat` is the quotient or the next integer. -/
theorem rneNat_eq_or (num den : Nat) : rneNat num den = num / den ∨ rneNat num den = num / den + 1 := by
  unfold rneNat
  split
  · exact .inl rfl
  · split
    · exact .inr rfl
    · split
      · exact .inl rfl
      · exact .inr rfl

/-- Everything `rneNat` says: the nearest integer, and the even one of two that are equally near. -/
theorem rneNat_spec {num den : Nat} (hd : 0 < den) :
    2 * num ≤ (2 * rneNat num den + 1) * den ∧ (2 * rneNat num den) * den ≤ 2 * num + den ∧
      ((2 * num = (2 * rneNat num den + 1) * den ∨ (2 * rneNat num den) * den = 2 * num + den) →
        rneNat num den % 2 = 0) := by
  have h := Nat.div_add_mod num den
  have hl := Nat.mod_lt num hd
  unfold rneNat
  generalize num / den = q at *
  generalize num % den = r at *
  subst h
  have e1 : (2 * q + 1) * den = 2 * (den * q) + den := by ring
  have e2 : (2 * q) * den = 2 * (den * q) := by ring
  have e3 : (2 * (q + 1) + 1) * den = 2 * (den * q) + 3 * den := by ring
  have e4 : (2 * (q + 1)) * den = 2 * (den * q) + 2 * den := by ring
  split
  · rw [e1, e2]; omega
  · split
    · rw [e3, e4]; omega
    · split
      · rw [e1, e2]; omega
      · rw [e3, e4]; omega

/-- What `rneNat_spec` says determines the integer. -/
theorem rneNat_unique {num den n : Nat} (hd : 0 < den) (h1 : 2 * num ≤ (2 * n + 1) * den)
    (h2 : (2 * n) * den ≤ 2 * num + den)
    (h3 : (2 * num = (2 * n + 1) * den ∨ (2 * n) * den = 2 * num + den) → n % 2 = 0) : rneNat num den = n := by
  obtain ⟨g1, g2, g3⟩ := rneNat_spec (num := num) hd
  generalize rneNat num den = m at *
  rcases Nat.lt_trichotomy m n with h | h | h
  · -- then n = m + 1 and the value lies half way
    have e : n = m + 1 := by
      by_contra hne
      have : m + 2 ≤ n := by omega
      have : (2 * m + 4) * den ≤ (2 * n) * den := Nat.mul_le_mul_right _ (by omega)
      have : (2 * m + 4) * den = (2 * m + 1) * den + 3 * den := by ring
      omega
    subst e
    have e1 : (2 * (m + 1)) * den = (2 * m + 1) * den + den := by ring
    have := g3 (by omega)
    have := h3 (by omega)
    omega
  · exact h
  · have e : m = n + 1 := by
      by_contra hne
      have : n + 2 ≤ m := by omega
      have : (2 * n + 4) * den ≤ (2 * m) * den := Nat.mul_le_mul_right _ (by omega)
      have : (2 * n + 4) * den = (2 * n + 1) * den + 3 * den := by ring
      omega
    subst e
    have e1 : (2 * (n + 1)) * den = (2 * n + 1) * den + den := by ring
    have := g3 (by omega)
    have := h3 (by omega)
    omega

/-- A common factor of the fraction changes nothing. -/
theorem rneNat_mul_right {num den k : Nat} (hd : 0 < den) (hk : 0 < k) : rneNat (num * k) (den * k) = rneNat num den := by
  obtain ⟨g1, g2, g3⟩ := rneNat_spec (num := num) hd
  generalize rneNat num den = m at *
  have e0 : 2 * (num * k) = (2 * num) * k := by ring
  have e1 : (2 * m + 1) * (den * k) = ((2 * m + 1) * den) * k := by ring
  have e2 : (2 * m) * (den * k) = ((2 * m) * den) * k := by ring
  have e3 : (2 * num) * k + den * k = (2 * num + den) * k := by ring
  refine rneNat_unique (Nat.mul_pos hd hk) ?_ ?_ ?_
  · rw [e0, e1]; exact Nat.mul_le_mul_right k g1
  · rw [e0, e2, e3]; exact Nat.mul_le_mul_right k g2
  · rw [e0, e1, e2, e3]
    rintro (h | h)
    · exact g3 (.inl (Nat.eq_of_mul_eq_mul_right hk h))
    · exact g3 (.inr (Nat.eq_of_mul_eq_mul_right hk h))

/-- A whole number rounds to itself. -/
@[simp] theorem rneNat_of_mul (n : Nat) {den : Nat} (hd : 0 < den) : rneNat (n * den) den = n := by
  simp [rneNat, Nat.mul_mod_left, hd]

theorem rneNat_mono {num num' den : Nat} (hd : 0 < den) (h : num ≤ num') : rneNat num den ≤ rneNat num' den := by
  obtain ⟨g1, g2, g3⟩ := rneNat_spec (num := num) hd
  obtain ⟨h1, h2, h3⟩ := rneNat_spec (num := num') hd
  generalize rneNat num den = m at *
  generalize rneNat num' den = n at *
  by_contra hlt
  have hle : (2 * n + 2) * den ≤ (2 * m) * den := Nat.mul_le_mul_right _ (by omega)
  have e : (2 * n + 2) * den = (2 * n + 1) * den + den := by ring
  have e2 : m = n + 1 := by
    by_contra hne
    have : (2 * n + 4) * den ≤ (2 * m) * den := Nat.mul_le_mul_right _ (by omega)
    have : (2 * n + 4) * den = (2 * n + 1) * den + 3 * den := by ring
    omega
  have := g3 (by omega)
  have := h3 (by omega)
  omega

/-! ### The sticky bit -/

/-- A quotient with a sticky low bit: 1 exactly when the quotient is odd or the division is inexact. -/
def stickyQuotient (num den : Nat) : Nat := num / den ||| (if num % den ≠ 0 then 1 else 0)

theorem or_one_eq (q : Nat) : q ||| 1 = q / 2 * 2 + 1 := by
  have h : q ||| 1 = 2 * (q / 2) + 1 := by
    conv_lhs => rw [← Nat.div_add_mod q 2]
    rcases Nat.mod_two_eq_zero_or_one q with h | h
    · rw [h, Nat.add_zero]
      exact (Nat.two_pow_add_eq_or_of_lt (i := 1) (b := 1) (by omega) (q / 2)).symm
    · rw [h]
      have := Nat.two_pow_add_eq_or_of_lt (i := 1) (b := 1) (by omega) (q / 2)
      rw [Nat.pow_one] at this
      rw [this, Nat.or_assoc, Nat.or_self]
  omega

/-- Rounding away at least two bits of a quotient with its sticky bit gives what rounding the exact quotient gives. -/
theorem rneNat_stickyQuotient {num den j : Nat} (hd : 0 < den) (hj : 2 ≤ j) :
    rneNat (stickyQuotient num den) (2 ^ j) = rneNat num (den * 2 ^ j) := by
  unfold stickyQuotient
  by_cases hr : num % den = 0
  · rw [if_neg (by simpa using hr), Nat.or_zero]
    have h := Nat.div_add_mod num den
    rw [hr, Nat.add_zero] at h
    conv_rhs => rw [← h, Nat.mul_comm den, Nat.mul_comm den]
    rw [rneNat_mul_right (by positivity) hd]
  · rw [if_pos hr, or_one_eq]
    have hdiv := Nat.div_add_mod num den
    have hlt := Nat.mod_lt num hd
    generalize num / den = q at *
    generalize num % den = r at *
    obtain ⟨i, rfl⟩ : ∃ i, j = i + 2 := ⟨j - 2, by omega⟩
    set P := 2 ^ i with hP
    have hp : 0 < P := by positivity
    have hpow : 2 ^ (i + 2) = 4 * P := by rw [hP, pow_add]; ring
    rw [hpow]
    have hD : 0 < 4 * P := by omega
    obtain ⟨g1, g2, g3⟩ := rneNat_spec (num := q / 2 * 2 + 1) hD
    generalize rneNat (q / 2 * 2 + 1) (4 * P) = m at *
    symm
    have e1 : (2 * m + 1) * (4 * P) = 4 * ((2 * m + 1) * P) := by ring
    have e2 : (2 * m) * (4 * P) = 4 * ((2 * m) * P) := by ring
    rw [e1] at g1 g3
    rw [e2] at g2 g3
    have f1 : (2 * m + 1) * (den * (4 * P)) = den * (4 * ((2 * m + 1) * P)) := by ring
    have f2 : (2 * m) * (den * (4 * P)) = den * (4 * ((2 * m) * P)) := by ring
    -- the exact value lies strictly between q and q + 1, and every half way point is even
    have k1 : q + 1 ≤ 2 * ((2 * m + 1) * P) := by omega
    have k2 : 2 * ((2 * m) * P) ≤ q + 2 * P := by omega
    have m1 : den * (q + 1) ≤ den * (2 * ((2 * m + 1) * P)) := Nat.mul_le_mul_left _ k1
    have m2 : den * (2 * ((2 * m) * P)) ≤ den * (q + 2 * P) := Nat.mul_le_mul_left _ k2
    have n1 : den * (q + 1) = den * q + den := by ring
    have n2 : den * (q + 2 * P) = den * q + den * (2 * P) := by ring
    have n3 : den * (4 * ((2 * m + 1) * P)) = 2 * (den * (2 * ((2 * m + 1) * P))) := by ring
    have n4 : den * (4 * ((2 * m) * P)) = 2 * (den * (2 * ((2 * m) * P))) := by ring
    have n5 : den * (4 * P) = 2 * (den * (2 * P)) := by ring
    refine rneNat_unique (by positivity) ?_ ?_ ?_
    · rw [f1, n3]; omega
    · rw [f2, n4, n5]; omega
    · rw [f1, f2, n3, n4, n5]
      rintro (h | h) <;> omega

/-- `jam_W` of a number of W bits is the quotient by 2^n with its sticky bit (41_rounding R121). -/
theorem jam_eq_stickyQuotient {W x n : Nat} (hx : x < 2 ^ W) : jam W x n = stickyQuotient x (2 ^ n) := by
  unfold jam stickyQuotient
  by_cases hn : n = 0
  · subst hn
    simp [Nat.mod_one]
  · rw [if_neg hn]
    by_cases hW : n ≤ W
    · rw [Nat.min_eq_left hW]
    · rw [Nat.min_eq_right (by omega), Nat.mod_eq_of_lt hx,
        Nat.mod_eq_of_lt (lt_of_lt_of_le hx (Nat.pow_le_pow_right (by omega) (by omega)))]

/-! ### The exponent -/

theorem log2_spec {n : Nat} (h : n ≠ 0) : 2 ^ Nat.log2 n ≤ n ∧ n < 2 ^ (Nat.log2 n + 1) :=
  ⟨Nat.log2_self_le h, Nat.lt_log2_self⟩

/-- `floorLog2` is the floor of the logarithm: `2^k ≤ num / den < 2^(k+1)`. -/
theorem floorLog2_spec {num den : Nat} (hn : 0 < num) (hd : 0 < den) :
    (2 : ℚ) ^ floorLog2 num den ≤ num / den ∧ (num / den : ℚ) < 2 ^ (floorLog2 num den + 1) := by
  have hd' : (0 : ℚ) < den := by exact_mod_cast hd
  obtain ⟨a1, a2⟩ := log2_spec hn.ne'
  obtain ⟨b1, b2⟩ := log2_spec hd.ne'
  have a1' : (2 : ℚ) ^ (Nat.log2 num : ℤ) ≤ num := by rw [zpow_natCast]; exact_mod_cast a1
  have a2' : (num : ℚ) < 2 ^ ((Nat.log2 num : ℤ) + 1) := by
    rw [show (Nat.log2 num : ℤ) + 1 = ((Nat.log2 num + 1 : ℕ) : ℤ) by push_cast; rfl, zpow_natCast]
    exact_mod_cast a2
  have b1' : (2 : ℚ) ^ (Nat.log2 den : ℤ) ≤ den := by rw [zpow_natCast]; exact_mod_cast b1
  have b2' : (den : ℚ) < 2 ^ ((Nat.log2 den : ℤ) + 1) := by
    rw [show (Nat.log2 den : ℤ) + 1 = ((Nat.log2 den + 1 : ℕ) : ℤ) by push_cast; rfl, zpow_natCast]
    exact_mod_cast b2
  set k : ℤ := (Nat.log2 num : ℤ) - (Nat.log2 den : ℤ) with hk
  have up : (num / den : ℚ) < 2 ^ (k + 1) := by
    rw [div_lt_iff₀ hd']
    calc (num : ℚ) < 2 ^ ((Nat.log2 num : ℤ) + 1) := a2'
      _ = 2 ^ (k + 1) * 2 ^ (Nat.log2 den : ℤ) := by rw [← zpow_add₀ (by norm_num)]; congr 1; omega
      _ ≤ 2 ^ (k + 1) * den := by gcongr
  have low : (2 : ℚ) ^ (k - 1) ≤ num / den := by
    rw [le_div_iff₀ hd']
    calc (2 : ℚ) ^ (k - 1) * den ≤ 2 ^ (k - 1) * 2 ^ ((Nat.log2 den : ℤ) + 1) := by gcongr
      _ = 2 ^ (Nat.log2 num : ℤ) := by rw [← zpow_add₀ (by norm_num)]; congr 1; omega
      _ ≤ num := a1'
  have test : (den * 2 ^ k.toNat ≤ num * 2 ^ (-k).toNat) ↔ (2 : ℚ) ^ k ≤ num / den := by
    rw [le_div_iff₀ hd']
    rcases le_total 0 k with h | h
    · obtain ⟨n, hn⟩ := Int.eq_ofNat_of_zero_le h
      rw [hn, zpow_natCast]
      simp only [Int.toNat_natCast, show (-(n : ℤ)).toNat = 0 by omega, pow_zero, mul_one]
      rw [mul_comm]
      exact_mod_cast Iff.rfl
    · obtain ⟨n, hn⟩ := Int.eq_ofNat_of_zero_le (show 0 ≤ -k by omega)
      rw [show k = -(n : ℤ) by omega, zpow_neg, zpow_natCast]
      simp only [neg_neg, Int.toNat_natCast, show (-(n : ℤ)).toNat = 0 by omega, pow_zero, mul_one]
      rw [inv_mul_le_iff₀ (by positivity), mul_comm (2 ^ n : ℚ)]
      exact_mod_cast Iff.rfl
  unfold floorLog2
  simp only [← hk]
  split
  · rename_i h
    exact ⟨test.mp h, up⟩
  · rename_i h
    refine ⟨low, ?_⟩
    rw [sub_add_cancel]
    exact not_le.mp (mt test.mpr h)

theorem floorLog2_eq_log {num den : Nat} (hn : 0 < num) (hd : 0 < den) :
    floorLog2 num den = Int.log 2 (num / den : ℚ) := by
  obtain ⟨h1, h2⟩ := floorLog2_spec hn hd
  have hq : (0 : ℚ) < num / den := by positivity
  refine le_antisymm ?_ ?_
  · have := (Int.zpow_le_iff_le_log (b := 2) (by norm_num) hq (x := floorLog2 num den)).mp (by exact_mod_cast h1)
    exact this
  · have := (Int.lt_zpow_iff_log_lt (b := 2) (by norm_num) hq (x := floorLog2 num den + 1)).mp (by exact_mod_cast h2)
    omega

/-! ### The integer square root -/

theorem isqrtBits_spec (x : Nat) : ∀ k acc : Nat, acc * acc ≤ x → x < (acc + 2 ^ k) * (acc + 2 ^ k) →
    isqrtBits x k acc * isqrtBits x k acc ≤ x ∧ x < (isqrtBits x k acc + 1) * (isqrtBits x k acc + 1)
  | 0, acc, h1, h2 => ⟨h1, by simpa [isqrtBits] using h2⟩
  | k + 1, acc, h1, h2 => by
    unfold isqrtBits
    split
    · rename_i h
      refine isqrtBits_spec x k _ h ?_
      rwa [show acc + 2 ^ k + 2 ^ k = acc + 2 ^ (k + 1) by rw [pow_succ]; ring]
    · rename_i h
      exact isqrtBits_spec x k acc h1 (not_le.mp h)

/-- `isqrt` is the greatest integer whose square is at most `x` (45_fp_sqrt R216). -/
theorem isqrt_spec (x : Nat) : isqrt x * isqrt x ≤ x ∧ x < (isqrt x + 1) * (isqrt x + 1) := by
  unfold isqrt
  refine isqrtBits_spec x _ 0 (by omega) ?_
  have h : x < 2 ^ (Nat.log2 x + 1) := Nat.lt_log2_self
  rw [Nat.zero_add, ← pow_add]
  exact lt_of_lt_of_le h (Nat.pow_le_pow_right (by omega) (by omega))

theorem isqrt_eq_sqrt (x : Nat) : isqrt x = Nat.sqrt x := by
  obtain ⟨h1, h2⟩ := isqrt_spec x
  exact Nat.eq_sqrt.mpr ⟨h1, h2⟩

/-! ### Exact rationals -/

/-- The floor-based rounding of a signed fraction is that of the exact rational. -/
theorem rneInt_eq_exact (num : ℤ) {den : Nat} (hd : 0 < den) : rneInt num den = Exact.rneInt (num / den : ℚ) := by
  have hd' : (0 : ℚ) < den := by exact_mod_cast hd
  have hf : ⌊(num / den : ℚ)⌋ = num / den := by
    have := Rat.floor_intCast_div_natCast num den
    exact this
  have e : (num / den : ℚ) - ((num / den : ℤ) : ℚ) = ((num - num / den * den : ℤ) : ℚ) / den := by
    push_cast
    field_simp
  unfold rneInt Exact.rneInt
  rw [hf, e]
  have c1 : ((num - num / den * den : ℤ) : ℚ) / den < 1 / 2 ↔ 2 * (num - num / den * den) < den := by
    rw [div_lt_iff₀ hd', ← mul_lt_mul_iff_right₀ (show (0 : ℚ) < 2 by norm_num)]
    rw [show (2 : ℚ) * (1 / 2 * den) = den by ring]
    exact_mod_cast Iff.rfl
  have c2 : 1 / 2 < ((num - num / den * den : ℤ) : ℚ) / den ↔ (den : ℤ) < 2 * (num - num / den * den) := by
    rw [lt_div_iff₀ hd', ← mul_lt_mul_iff_right₀ (show (0 : ℚ) < 2 by norm_num)]
    rw [show (2 : ℚ) * (1 / 2 * den) = den by ring]
    exact_mod_cast Iff.rfl
  simp only [c1, c2]

/-- The two forms of the rounding of a magnitude agree. -/
theorem rneNat_eq_rneInt (num den : Nat) : (rneNat num den : ℤ) = rneInt num den := by
  have e : (num : ℤ) - (num : ℤ) / (den : ℤ) * den = ((num % den : ℕ) : ℤ) := by
    have := Int.mul_ediv_add_emod (num : ℤ) den
    rw [Int.natCast_mod]
    linarith
  unfold rneNat rneInt
  rw [e, show (num : ℤ) / (den : ℤ) = ((num / den : ℕ) : ℤ) from rfl]
  generalize num % den = r
  generalize num / den = q
  have c1 : (2 * (r : ℤ) < den) ↔ 2 * r < den := by omega
  have c2 : ((den : ℤ) < 2 * r) ↔ den < 2 * r := by omega
  have c3 : ((q : ℤ) % 2 = 0) ↔ q % 2 = 0 := by omega
  simp only [c1, c2, c3]
  split_ifs <;> push_cast <;> rfl

/-- The value of a finite pattern is its units of 2^-149 (40_codec R108). -/
theorem val_eq_units {x : Word} (h : isFinite x = true) : Exact.val x = units x / unitsPerOne := by
  rw [isFinite_iff] at h
  have hu : ((unitsPerOne : ℕ) : ℚ) = 2 ^ 149 := by norm_num [unitsPerOne]
  unfold Exact.val
  by_cases hz : isZero x = true
  · rw [if_pos hz, (units_eq_zero_iff x).mpr hz]
    simp
  · rw [if_neg hz]
    have hs : ∀ m : ℚ, (-1 : ℚ) ^ (signOf x).toNat * m = if signOf x = 1#1 then -m else m := by
      intro m
      rcases signOf_cases x with h | h <;> simp [h]
    have hu' : (units x : ℚ) = if signOf x = 1#1 then -(magUnits x : ℚ) else magUnits x := by
      unfold units
      split <;> simp
    rw [hu, hu']
    by_cases he : expNat x = 0
    · have hsub : isSubnormal x = true := by
        rw [isSubnormal_iff]
        refine ⟨he, fun h => hz ?_⟩
        rw [isZero_iff]
        exact ⟨he, h⟩
      rw [if_pos hsub, hs, magUnits_of_exp_zero he, zpow_neg]
      rw [show (2 : ℚ) ^ (149 : ℤ) = 2 ^ 149 by norm_cast]
      split <;> ring
    · have hsub : isSubnormal x ≠ true := by
        rw [Ne, isSubnormal_iff]
        exact fun h => he h.1
      have hnorm : isNormal x = true := by
        rw [isNormal_iff]
        omega
      rw [if_neg hsub, if_pos hnorm, hs, magUnits_of_exp_pos (by omega)]
      have e : (2 : ℚ) ^ ((expNat x : ℤ) - 150) = 2 ^ (expNat x - 1) / 2 ^ 149 := by
        rw [eq_div_iff (by positivity), ← zpow_natCast, ← zpow_natCast, ← zpow_add₀ (by norm_num)]
        congr 1
        omega
      rw [e]
      push_cast
      split <;> ring

/-- A magnitude that underflows is below 2^-126 before rounding too. -/
theorem lt_of_underflows {num den : Nat} (hd : 0 < den) (h : underflows num den = true) : num * 2 ^ 126 < den := by
  simp only [underflows, Bool.and_eq_true, decide_eq_true_eq] at h
  obtain ⟨hn, hE⟩ := h
  have hf : floorLog2 num den + 1 ≤ -126 := by
    simp only [roundedExponent] at hE
    split at hE <;> omega
  have hq : (num / den : ℚ) < 2 ^ (-126 : ℤ) :=
    (floorLog2_spec (Nat.pos_of_ne_zero hn) hd).2.trans_le (zpow_le_zpow_right₀ (by norm_num) hf)
  rw [div_lt_iff₀ (by exact_mod_cast hd), zpow_neg, inv_mul_eq_div, lt_div_iff₀ (by positivity)] at hq
  exact_mod_cast hq

end Sys2Proof.Machine
end

