-- ==== Sys2Proof/Laws/RoundRNE.lean ====
section
/-! SUPPORT. What `roundRNE` and `rneSqrt` answer: the exponent and the integer of `RoundRNE` stay in range, and the
pattern built from them has their value (41_rounding R126). -/

namespace Sys2Proof.Machine

/-- The pattern of a rounded significand: its sign, its exact value in units of 2^-149, and the parity of its last bit. -/
theorem assembleRounded_spec {s : BitVec 1} {E : Int} {n : Nat} (hE : -126 ≤ E) (hE' : E ≤ 127) (hn : n ≤ 2 ^ 24)
    (hlow : n < 2 ^ 23 → E = -126) (hov : ¬ (E = 127 ∧ n = 2 ^ 24)) :
    signOf (assembleRounded s E n) = s ∧ isFinite (assembleRounded s E n) = true ∧
      magUnits (assembleRounded s E n) = n * 2 ^ (E + 126).toNat ∧
      fracNat (assembleRounded s E n) % 2 = n % 2 := by
  obtain ⟨i, rfl⟩ : ∃ i : Nat, E = (i : Int) - 126 := ⟨(E + 126).toNat, by omega⟩
  have hi : ((i : Int) - 126 + 126).toNat = i := by omega
  rw [hi]
  unfold assembleRounded
  rw [isFinite_iff]
  split
  · rename_i h
    subst h
    rw [signedZero_eq_pattern, signOf_pattern s (by omega) (by omega), expNat_pattern s (by omega) (by omega),
      magUnits_of_exp_zero (expNat_pattern s (by omega) (by omega)), fracNat_pattern s (by omega) (by omega)]
    simp
  · split
    · rename_i h
      subst h
      have hX : ((i : Int) - 126 + 1 + 127).toNat = i + 2 := by omega
      have hX' : i + 2 < 256 := by omega
      have he := expNat_pattern s hX' (F := 0) (by omega)
      rw [hX, signOf_pattern s hX' (by omega), he, magUnits_of_exp_pos (by omega), he,
        fracNat_pattern s hX' (by omega)]
      refine ⟨rfl, by omega, ?_, rfl⟩
      rw [show i + 2 - 1 = i + 1 by omega, pow_succ]
      ring
    · split
      · rename_i h
        have hi0 : i = 0 := by have := hlow h; omega
        subst hi0
        have he := expNat_pattern s (E := 0) (by omega) h
        rw [signOf_pattern s (by omega) h, he, magUnits_of_exp_zero he, fracNat_pattern s (by omega) h]
        simp
      · have hX : ((i : Int) - 126 + 127).toNat = i + 1 := by omega
        have hX' : i + 1 < 256 := by omega
        have hF : n - 2 ^ 23 < 2 ^ 23 := by omega
        have he := expNat_pattern s hX' hF
        rw [hX, signOf_pattern s hX' hF, he, magUnits_of_exp_pos (by omega), he, fracNat_pattern s hX' hF]
        refine ⟨rfl, by omega, ?_, by omega⟩
        rw [show i + 1 - 1 = i by omega, show 2 ^ 23 + (n - 2 ^ 23) = n by omega]

/-! ### Scaled fractions -/

theorem scaledDen_pos {den : Nat} (hd : 0 < den) (t : Int) : 0 < scaledDen den t := Nat.mul_pos hd (by positivity)

/-- The scaled fraction is the fraction divided by `2^t`. -/
theorem scaled_eq (num : Nat) {den : Nat} (hd : 0 < den) (t : Int) :
    (scaledNum num t : ℚ) / scaledDen den t = num / den / 2 ^ t := by
  have hd' : (den : ℚ) ≠ 0 := by exact_mod_cast hd.ne'
  unfold scaledNum scaledDen
  push_cast
  rcases le_total 0 t with h | h
  · obtain ⟨n, rfl⟩ := Int.eq_ofNat_of_zero_le h
    simp only [Int.toNat_natCast, show (-(n : ℤ)).toNat = 0 by omega, pow_zero, mul_one, zpow_natCast]
    rw [div_div]
  · obtain ⟨n, hn⟩ := Int.eq_ofNat_of_zero_le (show 0 ≤ -t by omega)
    rw [show t = -(n : ℤ) by omega]
    simp only [neg_neg, Int.toNat_natCast, show (-(n : ℤ)).toNat = 0 by omega, pow_zero, mul_one, zpow_neg,
      zpow_natCast]
    field_simp

/-- The exponent that `roundRNE` takes. -/
theorem roundRNE_eq_assemble {s : BitVec 1} {num den : Nat} (hn : 0 < num) (hov : num < overflowThreshold * den) :
    roundRNE s num den = assembleRounded s (max (floorLog2 num den) (-126))
      (rneNat (scaledNum num (max (floorLog2 num den) (-126) - 23))
        (scaledDen den (max (floorLog2 num den) (-126) - 23))) := by
  unfold roundRNE
  rw [if_neg (by omega), if_neg (by omega)]

/-- The exponent and the integer that `roundRNE` takes are in the range `assembleRounded_spec` asks for. -/
theorem roundRNE_range {num den : Nat} (hn : 0 < num) (hd : 0 < den) (hov : num < overflowThreshold * den) :
    let E := max (floorLog2 num den) (-126)
    let n := rneNat (scaledNum num (E - 23)) (scaledDen den (E - 23))
    E ≤ 127 ∧ -126 ≤ E ∧ n ≤ 2 ^ 24 ∧ (n < 2 ^ 23 → E = -126) ∧ ¬ (E = 127 ∧ n = 2 ^ 24) := by
  intro E n
  obtain ⟨l1, l2⟩ := floorLog2_spec hn hd
  have hd' : (0 : ℚ) < den := by exact_mod_cast hd
  have hov' : (num / den : ℚ) < 2 ^ 128 - 2 ^ 103 := by
    rw [div_lt_iff₀ hd']
    have h : ((overflowThreshold : ℕ) : ℚ) = 2 ^ 128 - 2 ^ 103 := by norm_num [overflowThreshold]
    rw [← h]
    exact_mod_cast hov
  have hfl : floorLog2 num den ≤ 127 := by
    by_contra hc
    have : (2 : ℚ) ^ (128 : ℤ) ≤ 2 ^ floorLog2 num den := zpow_le_zpow_right₀ (by norm_num) (by omega)
    have h128 : (2 : ℚ) ^ (128 : ℤ) = 2 ^ 128 := by norm_cast
    have : (0 : ℚ) < 2 ^ 103 := by positivity
    linarith
  have hE1 : -126 ≤ E := le_max_right _ _
  have hE2 : E ≤ 127 := max_le hfl (by omega)
  have hDpos := scaledDen_pos hd (E - 23)
  have hDpos' : (0 : ℚ) < scaledDen den (E - 23) := by exact_mod_cast hDpos
  have hs := scaled_eq num hd (E - 23)
  have hup : (num / den : ℚ) / 2 ^ (E - 23) < 2 ^ 24 := by
    rw [div_lt_iff₀ (by positivity)]
    calc (num / den : ℚ) < 2 ^ (floorLog2 num den + 1) := l2
      _ ≤ 2 ^ (E + 1) := zpow_le_zpow_right₀ (by norm_num) (by have : floorLog2 num den ≤ E := le_max_left _ _; omega)
      _ = 2 ^ 24 * 2 ^ (E - 23) := by
        rw [show (2 : ℚ) ^ 24 = 2 ^ (24 : ℤ) by norm_cast, ← zpow_add₀ (by norm_num)]
        congr 1
        omega
  have hn24 : n ≤ 2 ^ 24 := by
    have h : scaledNum num (E - 23) ≤ 2 ^ 24 * scaledDen den (E - 23) := by
      rw [← hs, div_lt_iff₀ hDpos'] at hup
      exact_mod_cast hup.le
    calc n ≤ rneNat (2 ^ 24 * scaledDen den (E - 23)) (scaledDen den (E - 23)) := rneNat_mono hDpos h
      _ = 2 ^ 24 := rneNat_of_mul _ hDpos
  refine ⟨hE2, hE1, hn24, ?_, ?_⟩
  · intro hlt
    by_contra hne
    have hEf : E = floorLog2 num den := by
      rcases max_choice (floorLog2 num den) (-126) with h | h
      · exact h
      · exact absurd h hne
    have hlow : (2 : ℚ) ^ 23 ≤ (num / den : ℚ) / 2 ^ (E - 23) := by
      rw [le_div_iff₀ (by positivity), show (2 : ℚ) ^ 23 = 2 ^ (23 : ℤ) by norm_cast, ← zpow_add₀ (by norm_num)]
      rw [show (23 : ℤ) + (E - 23) = floorLog2 num den by omega]
      exact l1
    have h : 2 ^ 23 * scaledDen den (E - 23) ≤ scaledNum num (E - 23) := by
      rw [← hs, le_div_iff₀ hDpos'] at hlow
      exact_mod_cast hlow
    have : 2 ^ 23 ≤ n := by
      calc 2 ^ 23 = rneNat (2 ^ 23 * scaledDen den (E - 23)) (scaledDen den (E - 23)) := (rneNat_of_mul _ hDpos).symm
        _ ≤ n := rneNat_mono hDpos h
    omega
  · rintro ⟨hE127, hn'⟩
    obtain ⟨g1, g2, g3⟩ := rneNat_spec (num := scaledNum num (E - 23)) hDpos
    have hlt : (num / den : ℚ) / 2 ^ (E - 23) < 2 ^ 24 - 1 / 2 := by
      rw [div_lt_iff₀ (by positivity), hE127]
      have : ((2 : ℚ) ^ 24 - 1 / 2) * 2 ^ ((127 : ℤ) - 23) = 2 ^ 128 - 2 ^ 103 := by
        rw [show ((127 : ℤ) - 23) = ((104 : ℕ) : ℤ) by norm_num, zpow_natCast]
        norm_num
      rw [this]
      exact hov'
    rw [← hs, div_lt_iff₀ hDpos'] at hlt
    have hlt' : 2 * scaledNum num (E - 23) + scaledDen den (E - 23) < 2 * 2 ^ 24 * scaledDen den (E - 23) := by
      have : (2 * scaledNum num (E - 23) + scaledDen den (E - 23) : ℚ) < 2 * 2 ^ 24 * scaledDen den (E - 23) := by
        linarith
      exact_mod_cast this
    have : 2 * n * scaledDen den (E - 23) ≤ 2 * scaledNum num (E - 23) + scaledDen den (E - 23) := g2
    rw [hn'] at this
    omega

/-- What `roundRNE` answers below the overflow threshold: a finite pattern of the sign given, whose magnitude is the
rounded integer at the exponent taken. -/
theorem roundRNE_finite {s : BitVec 1} {num den : Nat} (hn : 0 < num) (hd : 0 < den)
    (hov : num < overflowThreshold * den) :
    let E := max (floorLog2 num den) (-126)
    let n := rneNat (scaledNum num (E - 23)) (scaledDen den (E - 23))
    signOf (roundRNE s num den) = s ∧ isFinite (roundRNE s num den) = true ∧
      magUnits (roundRNE s num den) = n * 2 ^ (E + 126).toNat ∧ fracNat (roundRNE s num den) % 2 = n % 2 := by
  intro E n
  obtain ⟨h2, h1, h3, h4, h5⟩ := roundRNE_range hn hd hov
  rw [roundRNE_eq_assemble hn hov]
  exact assembleRounded_spec h1 h2 h3 h4 h5

theorem roundRNE_zero (s : BitVec 1) (den : Nat) : roundRNE s 0 den = signedZero s := by simp [roundRNE]

theorem roundRNE_overflow {s : BitVec 1} {num den : Nat} (hn : 0 < num) (hov : overflowThreshold * den ≤ num) :
    roundRNE s num den = signedInf s := by
  unfold roundRNE
  rw [if_neg (by omega), if_pos hov]

/-- `roundRNE` never answers a NaN. -/
theorem roundRNE_not_nan (s : BitVec 1) (num : Nat) {den : Nat} (hd : 0 < den) : isNaN (roundRNE s num den) = false := by
  rcases Nat.eq_zero_or_pos num with h | h
  · subst h
    rw [roundRNE_zero, signedZero_eq_pattern]
    simp [isNaN, expNat_pattern s (E := 0) (F := 0) (by omega) (by omega)]
  · by_cases hov : num < overflowThreshold * den
    · exact not_isNaN_of_isFinite (roundRNE_finite h hd hov).2.1
    · rw [roundRNE_overflow h (by omega), signedInf_eq_pattern]
      simp [isNaN, fracNat_pattern s (E := 255) (F := 0) (by omega) (by omega)]

/-! ### The rounded square root -/

/-- Everything `rneSqrt` says: the integer nearest to the exact root, and the even one of two equally near. -/
theorem rneSqrt_spec {num den : Nat} (hd : 0 < den) :
    4 * num ≤ (2 * rneSqrt num den + 1) ^ 2 * den ∧
      (0 < rneSqrt num den → (2 * rneSqrt num den - 1) ^ 2 * den ≤ 4 * num) ∧
      (4 * num = (2 * rneSqrt num den + 1) ^ 2 * den → rneSqrt num den % 2 = 0) ∧
      (0 < rneSqrt num den → 4 * num = (2 * rneSqrt num den - 1) ^ 2 * den → rneSqrt num den % 2 = 0) := by
  obtain ⟨r1, r2⟩ := isqrt_spec (num / den)
  have hdiv := Nat.div_add_mod num den
  have hlt := Nat.mod_lt num hd
  unfold rneSqrt
  simp only
  generalize isqrt (num / den) = m at *
  -- m^2 den ≤ num < (m+1)^2 den
  have b1 : m * m * den ≤ num := by
    have : m * m * den ≤ num / den * den := Nat.mul_le_mul_right _ r1
    rw [Nat.mul_comm (num / den)] at this
    omega
  have b2 : num < (m + 1) * (m + 1) * den := by
    have : (num / den + 1) * den ≤ (m + 1) * (m + 1) * den := Nat.mul_le_mul_right _ r2
    have e : (num / den + 1) * den = den * (num / den) + den := by ring
    omega
  have sq : ∀ i : Nat, 0 < i → (2 * i - 1) ^ 2 * den ≤ 4 * (i * i * den) ∧
      (0 < den → (2 * i - 1) ^ 2 * den ≠ 4 * (i * i * den)) := by
    intro i hi
    obtain ⟨j, rfl⟩ : ∃ j, i = j + 1 := ⟨i - 1, by omega⟩
    have e : (2 * (j + 1) - 1) ^ 2 = (2 * j + 1) ^ 2 := by congr 1
    have f : 4 * ((j + 1) * (j + 1) * den) = (2 * j + 1) ^ 2 * den + (4 * j + 3) * den := by ring
    have g : 0 < (4 * j + 3) * den := by positivity
    rw [e]
    omega
  have e1 : (2 * m + 1) ^ 2 * den = (2 * m + 1) * (2 * m + 1) * den := by ring
  have e2 : (2 * (m + 1) - 1) ^ 2 * den = (2 * m + 1) * (2 * m + 1) * den := by
    rw [show 2 * (m + 1) - 1 = 2 * m + 1 by omega]; ring
  have e3 : (2 * (m + 1) + 1) ^ 2 * den = 4 * ((m + 1) * (m + 1) * den) + (4 * m + 5) * den := by ring
  have g3 : 0 < (4 * m + 5) * den := by positivity
  split
  · refine ⟨by omega, fun h => ?_, by omega, fun h he => ?_⟩
    · have := (sq m h).1
      omega
    · have := (sq m h).1
      have := (sq m h).2 hd
      omega
  · split
    · rw [e2, e3]
      refine ⟨by omega, fun _ => by omega, by omega, fun _ he => by omega⟩
    · split
      · refine ⟨by omega, fun h => ?_, fun _ => by assumption, fun h he => by assumption⟩
        have := (sq m h).1
        omega
      · rw [e2, e3]
        refine ⟨by omega, fun _ => by omega, by omega, fun _ he => by omega⟩

end Sys2Proof.Machine
end

