-- ==== Sys2Proof/Laws/State.lean ====
section
/-! SUPPORT. One lemma for each field of State after each update, and what each driving operation answers. -/

namespace Sys2Proof.Machine

/-! ### Driving the response -/

theorem driveR_eq (w : Word) (s : State) : driveR w s =
    .next { s with response := { drawResponse s.draws with r := w }, draws := s.draws + 1 } := rfl

theorem driveT_eq (v : Bool) (s : State) : driveT v s =
    .next { s with response := { drawResponse s.draws with t := BitVec.ofBool v }, draws := s.draws + 1 } := rfl

theorem driveFields_eq (us : BitVec 1) (ue : BitVec 8) (uf : BitVec 23) (s : State) : driveFields us ue uf s =
    .next { s with
      response := { drawResponse s.draws with us := us, ue := ue, uf := uf }, draws := s.draws + 1 } := rfl

/-- All that `driveR` can do. -/
theorem driveR_next {w : Word} {s t : State} (h : driveR w s = .next t) :
    t.response.r = w ∧ t.inFlight = s.inFlight ∧ t.requesters = s.requesters ∧ t.turns = s.turns ∧
      t.draws = s.draws + 1 := by
  obtain rfl := Host.Outcome.next.inj h
  exact ⟨rfl, rfl, rfl, rfl, rfl⟩

/-- All that `driveT` can do. -/
theorem driveT_next {v : Bool} {s t : State} (h : driveT v s = .next t) :
    t.response.t = BitVec.ofBool v ∧ t.inFlight = s.inFlight ∧ t.requesters = s.requesters ∧ t.turns = s.turns ∧
      t.draws = s.draws + 1 := by
  obtain rfl := Host.Outcome.next.inj h
  exact ⟨rfl, rfl, rfl, rfl, rfl⟩

/-- All that `driveFields` can do. -/
theorem driveFields_next {us : BitVec 1} {ue : BitVec 8} {uf : BitVec 23} {s t : State}
    (h : driveFields us ue uf s = .next t) :
    t.response.us = us ∧ t.response.ue = ue ∧ t.response.uf = uf ∧ t.inFlight = s.inFlight ∧
      t.requesters = s.requesters ∧ t.turns = s.turns ∧ t.draws = s.draws + 1 := by
  obtain rfl := Host.Outcome.next.inj h
  exact ⟨rfl, rfl, rfl, rfl, rfl, rfl, rfl⟩

/-! ### Reset of the block -/

@[simp] theorem resetBlock_inFlight (s : State) : (resetBlock s).inFlight = [] := rfl
@[simp] theorem resetBlock_requesters (s : State) : (resetBlock s).requesters = s.requesters := rfl
@[simp] theorem resetBlock_turns (s : State) : (resetBlock s).turns = s.turns := rfl
@[simp] theorem resetBlock_response (s : State) : (resetBlock s).response = drawResponse s.draws := rfl
@[simp] theorem resetBlock_draws (s : State) : (resetBlock s).draws = s.draws + 1 := rfl

/-! ### Replacing a requester -/

@[simp] theorem setRequester_inFlight (k : Nat) (q : Requester) (s : State) :
    (setRequester k q s).inFlight = s.inFlight := rfl
@[simp] theorem setRequester_requesters (k : Nat) (q : Requester) (s : State) :
    (setRequester k q s).requesters = s.requesters.set k q := rfl
@[simp] theorem setRequester_turns (k : Nat) (q : Requester) (s : State) : (setRequester k q s).turns = s.turns := rfl
@[simp] theorem setRequester_response (k : Nat) (q : Requester) (s : State) :
    (setRequester k q s).response = s.response := rfl
@[simp] theorem setRequester_draws (k : Nat) (q : Requester) (s : State) : (setRequester k q s).draws = s.draws := rfl

/-! ### Issuing a request -/

@[simp] theorem issueRequest_inFlight (k : Nat) (q : Requester) (w : Request) (d : List (ResponseField × Nat))
    (s : State) : (issueRequest k q w d s).inFlight = s.inFlight ++ [⟨some k, d, w⟩] := rfl
@[simp] theorem issueRequest_requesters (k : Nat) (q : Requester) (w : Request) (d : List (ResponseField × Nat))
    (s : State) : (issueRequest k q w d s).requesters =
      s.requesters.set k { q with pos := q.pos + 1, names := unbindAll d q.names } := rfl
@[simp] theorem issueRequest_turns (k : Nat) (q : Requester) (w : Request) (d : List (ResponseField × Nat))
    (s : State) : (issueRequest k q w d s).turns = s.turns := rfl
@[simp] theorem issueRequest_response (k : Nat) (q : Requester) (w : Request) (d : List (ResponseField × Nat))
    (s : State) : (issueRequest k q w d s).response = s.response := rfl
@[simp] theorem issueRequest_draws (k : Nat) (q : Requester) (w : Request) (d : List (ResponseField × Nat))
    (s : State) : (issueRequest k q w d s).draws = s.draws := rfl

/-! ### Delivering a response -/

@[simp] theorem deliver_inFlight (p : Pending) (s : State) : (deliver p s).inFlight = s.inFlight := by
  unfold deliver; split <;> rfl
@[simp] theorem deliver_turns (p : Pending) (s : State) : (deliver p s).turns = s.turns := by
  unfold deliver; split <;> rfl
@[simp] theorem deliver_response (p : Pending) (s : State) : (deliver p s).response = s.response := by
  unfold deliver; split <;> rfl
@[simp] theorem deliver_draws (p : Pending) (s : State) : (deliver p s).draws = s.draws := by
  unfold deliver; split <;> rfl
theorem deliver_none {p : Pending} (s : State) (h : p.requester = none) : deliver p s = s := by
  simp [deliver, h]
theorem deliver_some {p : Pending} {k : Nat} (s : State) (h : p.requester = some k) :
    (deliver p s).requesters = s.requesters.modify k (receive s.inFlight k p.into s.response) := by
  simp [deliver, h]

@[simp] theorem receive_program (y : List Pending) (k : Nat) (d : List (ResponseField × Nat)) (x : Response)
    (q : Requester) : (receive y k d x q).program = q.program := rfl
@[simp] theorem receive_pos (y : List Pending) (k : Nat) (d : List (ResponseField × Nat)) (x : Response)
    (q : Requester) : (receive y k d x q).pos = q.pos := rfl
@[simp] theorem receive_received (y : List Pending) (k : Nat) (d : List (ResponseField × Nat)) (x : Response)
    (q : Requester) : (receive y k d x q).received = q.received ++ [x] := rfl

/-! ### Placing a request -/

@[simp] theorem placeRequest_inFlight (w : Request) (s : State) :
    (placeRequest w s).inFlight = ⟨none, [], w⟩ :: s.inFlight := rfl
@[simp] theorem placeRequest_turns (w : Request) (s : State) : (placeRequest w s).turns = .block :: s.turns := rfl
@[simp] theorem placeRequest_requesters (w : Request) (s : State) : (placeRequest w s).requesters = s.requesters := rfl
@[simp] theorem placeRequest_response (w : Request) (s : State) : (placeRequest w s).response = s.response := rfl
@[simp] theorem placeRequest_draws (w : Request) (s : State) : (placeRequest w s).draws = s.draws := rfl

/-! ### The state right after reset -/

@[simp] theorem reset_inFlight : State.reset.inFlight = [] := rfl
@[simp] theorem reset_requesters : State.reset.requesters = [] := rfl
@[simp] theorem reset_turns : State.reset.turns = [] := rfl

end Sys2Proof.Machine
end

