-- ==== Sys2Proof/Laws/System.lean ====
section
/-! SUPPORT. What one step can do, and what a requester's move can do: one inversion lemma each, which proofs about the
machine cite instead of unfolding the step. And the names of a requester keep their one form. -/

namespace Sys2Proof.Machine

/-! ### The requester's move -/

/-- All that a requester's move can do. -/
theorem requesterMove_cases {k : Nat} {q : Requester} {s t : State} (h : requesterMove k q s = some t) :
    (∃ op a b c into va vb vc, q.program[q.pos]? = some (.issue op a b c into) ∧
        evalOperand q.names a = some va ∧ evalOperand q.names b = some vb ∧ evalOperand q.names c = some vc ∧
        t = issueRequest k q (requestBits op va vb vc) into s) ∨
      (∃ n v w, q.program[q.pos]? = some (.assign n v) ∧ evalOperand q.names v = some w ∧
        t = setRequester k { q with pos := q.pos + 1, names := bindName n w q.names } s) ∨
      (∃ v is target w, q.program[q.pos]? = some (.branch v is target) ∧ evalOperand q.names v = some w ∧
        t = setRequester k { q with pos := if w = is then target else q.pos + 1 } s) ∨
      (q.program[q.pos]? = some .reset ∧ t = setRequester k { q with pos := q.pos + 1 } (resetBlock s)) ∨
      (q.program[q.pos]? = some .stop ∧ t = setRequester k { q with pos := q.program.length } s) := by
  unfold requesterMove at h
  split at h
  · exact absurd h (by simp)
  · rename_i op a b c into hp
    split at h
    · rename_i va vb vc ha hb hc
      exact .inl ⟨op, a, b, c, into, va, vb, vc, hp, ha, hb, hc, (Option.some.inj h).symm⟩
    · exact absurd h (by simp)
  · rename_i n v hp
    split at h
    · rename_i w hw
      exact .inr (.inl ⟨n, v, w, hp, hw, (Option.some.inj h).symm⟩)
    · exact absurd h (by simp)
  · rename_i v is target hp
    split at h
    · rename_i w hw
      exact .inr (.inr (.inl ⟨v, is, target, w, hp, hw, (Option.some.inj h).symm⟩))
    · exact absurd h (by simp)
  · rename_i hp
    exact .inr (.inr (.inr (.inl ⟨hp, (Option.some.inj h).symm⟩)))
  · rename_i hp
    exact .inr (.inr (.inr (.inr ⟨hp, (Option.some.inj h).symm⟩)))

/-- The first move found is the move of some requester. -/
theorem firstMove_some {s t : State} : ∀ {k : Nat} {qs : List Requester}, firstMove s k qs = some t →
    ∃ i q, qs[i]? = some q ∧ requesterMove (k + i) q s = some t
  | k, [], h => absurd h (by simp [firstMove])
  | k, q :: rest, h => by
    unfold firstMove at h
    split at h
    · rename_i u hu
      exact ⟨0, q, rfl, by rw [Nat.add_zero, hu, h]⟩
    · obtain ⟨i, r, hr, hm⟩ := firstMove_some h
      exact ⟨i + 1, r, by simpa using hr, by rw [← hm]; congr 1; omega⟩

/-! ### The step -/

/-- All that one step of the machine can do, once the turn laid down (if any) is taken off: nothing; the block answers the
oldest request in flight; a requester moves, on its turn or, with no turn laid down, when nothing is in flight; or a reset comes from
outside. -/
theorem step_cases {s t : State} (h : step s = .next t) :
    t = { s with turns := s.turns.tail } ∨
      (∃ p rest u, s.inFlight = p :: rest ∧
        exec (decode p.bits) { s with inFlight := rest, turns := s.turns.tail } = .next u ∧ t = deliver p u) ∨
      (∃ k q, (s.turns.head? = some (.requester k) ∨ (s.turns = [] ∧ s.inFlight = [])) ∧ s.requesters[k]? = some q ∧
        requesterMove k q { s with turns := s.turns.tail } = some t) ∨
      (s.turns.head? = some .reset ∧ t = resetBlock { s with turns := s.turns.tail }) := by
  have block : ∀ {s' : State}, s' = { s with turns := s.turns.tail } → blockTurn s' = .next t →
      t = { s with turns := s.turns.tail } ∨ ∃ p rest u, s.inFlight = p :: rest ∧
        exec (decode p.bits) { s with inFlight := rest, turns := s.turns.tail } = .next u ∧ t = deliver p u := by
    intro s' hs' hb
    subst hs'
    unfold blockTurn at hb
    split at hb
    · exact .inl (Host.Outcome.next.inj hb).symm
    · rename_i p rest hp
      cases hx : exec (decode p.bits) { s with inFlight := rest, turns := s.turns.tail } with
      | next u =>
        simp only at hb
        rw [hx] at hb
        exact .inr ⟨p, rest, u, hp, hx, (Host.Outcome.next.inj hb).symm⟩
      | fault r => cases r
      | refused r =>
        simp only at hb
        rw [hx] at hb
        exact absurd hb (by simp [delivered])
  unfold step systemStep at h
  split at h
  · rename_i hturns
    have hs : s = { s with turns := s.turns.tail } := by rw [hturns]; cases s; simp_all
    unfold defaultTurn at h
    split at h
    · rename_i hflight
      cases hf : firstMove s 0 s.requesters with
      | none =>
        rw [hf] at h
        exact .inl ((Host.Outcome.next.inj h).symm.trans hs)
      | some u =>
        rw [hf] at h
        obtain rfl := Host.Outcome.next.inj h
        obtain ⟨i, q, hq, hm⟩ := firstMove_some hf
        rw [Nat.zero_add] at hm
        refine .inr (.inr (.inl ⟨i, q, .inr ⟨hturns, List.isEmpty_iff.mp hflight⟩, hq, ?_⟩))
        rw [← hs]
        exact hm
    · exact (block hs h).imp id .inl
  · rename_i turn rest hturns
    have htail : s.turns.tail = rest := by rw [hturns]; rfl
    rw [← htail] at h
    unfold takeTurn at h
    split at h
    · exact (block rfl h).imp id .inl
    · rename_i k
      obtain rfl := Host.Outcome.next.inj h
      unfold requesterTurn
      split
      · exact .inl rfl
      · rename_i q hq
        cases hm : requesterMove k q { s with turns := s.turns.tail } with
        | none => exact .inl rfl
        | some u => exact .inr (.inr (.inl ⟨k, q, .inl (by rw [hturns]; rfl), hq, hm⟩))
    · refine .inr (.inr (.inr ⟨by rw [hturns]; rfl, (Host.Outcome.next.inj h).symm⟩))

/-! ### Names -/

/-- What a name is bound to after one name is bound. -/
theorem lookupName_bindName (n m : Nat) (w : Word) : ∀ names : List (Nat × Word),
    lookupName n (bindName m w names) = if n = m then some w else lookupName n names
  | [] => by by_cases h : n = m <;> simp [bindName, lookupName, h, eq_comm]
  | (l, v) :: rest => by
    have ih := lookupName_bindName n m w rest
    unfold bindName
    split
    · by_cases h : n = m <;> simp [lookupName, h, eq_comm]
    · split
      · rename_i h
        subst h
        by_cases h : n = m <;> simp [lookupName, h, eq_comm]
      · rename_i h
        by_cases hl : l = n
        · subst hl
          simp [lookupName, Ne.symm h]
        · simp [lookupName, hl, ih]

/-- What a name is bound to after one name is unbound. -/
theorem lookupName_unbindName (n m : Nat) : ∀ names : List (Nat × Word),
    lookupName n (unbindName m names) = if n = m then none else lookupName n names
  | [] => by simp [unbindName, lookupName]
  | (l, v) :: rest => by
    have ih : lookupName n (rest.filter fun b => b.1 != m) = _ := lookupName_unbindName n m rest
    by_cases hl : l = m <;> by_cases hn : n = m <;> simp_all [unbindName, lookupName]
    omega

/-- What a name is bound to after the names of a request are unbound. -/
theorem lookupName_unbindAll (n : Nat) : ∀ (into : List (ResponseField × Nat)) (names : List (Nat × Word)),
    lookupName n (unbindAll into names) = if n ∈ into.map (·.2) then none else lookupName n names
  | [], _ => by simp [unbindAll]
  | d :: rest, names => by
    rw [show unbindAll (d :: rest) names = unbindAll rest (unbindName d.2 names) from rfl,
      lookupName_unbindAll n rest, lookupName_unbindName]
    have h : n ∈ (d :: rest).map (·.2) ↔ n = d.2 ∨ n ∈ rest.map (·.2) := List.mem_cons
    by_cases h1 : n ∈ rest.map (·.2)
    · rw [if_pos h1, if_pos (h.mpr (.inr h1))]
    · by_cases h2 : n = d.2
      · rw [if_neg h1, if_pos h2, if_pos (h.mpr (.inl h2))]
      · rw [if_neg h1, if_neg h2, if_neg fun h3 => (h.mp h3).elim h2 h1]

/-- A name that is not among those a response binds keeps what it is bound to. -/
theorem lookupName_bindAll_of_not_mem {n : Nat} {x : Response} : ∀ {into : List (ResponseField × Nat)}
    {names : List (Nat × Word)}, (∀ d ∈ into, d.2 ≠ n) → lookupName n (bindAll x into names) = lookupName n names
  | [], _, _ => rfl
  | d :: rest, names, h => by
    rw [show bindAll x (d :: rest) names = bindAll x rest (bindName d.2 (x.get d.1) names) from rfl,
      lookupName_bindAll_of_not_mem fun e he => h e (List.mem_cons_of_mem _ he), lookupName_bindName,
      if_neg (Ne.symm (h d List.mem_cons_self))]

theorem mem_bindName {n : Nat} {w : Word} {x : Nat × Word} : ∀ {names : List (Nat × Word)}, x ∈ bindName n w names →
    x = (n, w) ∨ x ∈ names
  | [], h => .inl (by simpa [bindName] using h)
  | (m, v) :: rest, h => by
    unfold bindName at h
    split at h
    · rcases List.mem_cons.mp h with h | h
      · exact .inl h
      · exact .inr h
    · split at h
      · rcases List.mem_cons.mp h with h | h
        · exact .inl h
        · exact .inr (List.mem_cons_of_mem _ h)
      · rcases List.mem_cons.mp h with h | h
        · exact .inr (by rw [h]; exact List.mem_cons_self)
        · exact (mem_bindName h).imp id (List.mem_cons_of_mem _)

/-- Binding a name keeps the names in their one form. -/
theorem bindName_rising {n : Nat} {w : Word} : ∀ {names : List (Nat × Word)}, NamesRising names →
    NamesRising (bindName n w names)
  | [], _ => by simp [bindName, NamesRising]
  | (m, v) :: rest, h => by
    obtain ⟨h1, h2⟩ := List.pairwise_cons.mp h
    unfold bindName
    split
    · rename_i hlt
      refine List.pairwise_cons.mpr ⟨fun x hx => ?_, h⟩
      rcases List.mem_cons.mp hx with rfl | hx
      · exact hlt
      · exact lt_trans hlt (h1 x hx)
    · split
      · rename_i heq
        exact List.pairwise_cons.mpr ⟨fun x hx => by rw [heq]; exact h1 x hx, h2⟩
      · rename_i hne hneq
        refine List.pairwise_cons.mpr ⟨fun x hx => ?_, bindName_rising h2⟩
        rcases mem_bindName hx with rfl | hx
        · exact lt_of_le_of_ne (not_lt.mp hne) (fun h => hneq h.symm)
        · exact h1 x hx

/-- Unbinding a name keeps the names in their one form. -/
theorem unbindName_rising {n : Nat} {names : List (Nat × Word)} (h : NamesRising names) :
    NamesRising (unbindName n names) := h.filter _

theorem bindAll_rising {x : Response} : ∀ {into : List (ResponseField × Nat)} {names : List (Nat × Word)},
    NamesRising names → NamesRising (bindAll x into names)
  | [], _, h => h
  | _ :: rest, _, h => bindAll_rising (into := rest) (bindName_rising h)

theorem unbindAll_rising : ∀ {into : List (ResponseField × Nat)} {names : List (Nat × Word)},
    NamesRising names → NamesRising (unbindAll into names)
  | [], _, h => h
  | _ :: rest, _, h => unbindAll_rising (into := rest) (unbindName_rising h)

end Sys2Proof.Machine
end

