-- ==== Sys2Proof/Tests/Slice0.lean ====
section
/-! SUPPORT. Small tests. Expected values are the spec's: the requests, encodings and responses of 95_test_vectors (its section is named at
each group) and the examples inside the rules. Then, for every obligation that has hypotheses, values that meet them. -/

namespace Sys2Proof.Tests

open Sys2Proof Sys2Proof.Machine

/-- The response field `r` of an outcome. -/
def rOf (o : Host.Outcome State Fault Refusal) : Option Word :=
  match o with
  | .next s => some s.response.r
  | _ => none

/-- The response field `t` of an outcome. -/
def tOf (o : Host.Outcome State Fault Refusal) : Option (BitVec 1) :=
  match o with
  | .next s => some s.response.t
  | _ => none

/-- The response fields `us`, `ue`, `uf` of an outcome. -/
def fieldsOf (o : Host.Outcome State Fault Refusal) : Option (BitVec 1 × BitVec 8 × BitVec 23) :=
  match o with
  | .next s => some (s.response.us, s.response.ue, s.response.uf)
  | _ => none

/-- The result of an operation right after reset. -/
def r (i : Instr) : Option Word := rOf (exec i State.reset)

/-- The truth value of an operation right after reset. -/
def t (i : Instr) : Option (BitVec 1) := tOf (exec i State.reset)

/-! ### Decoding: encodings written out in 95_test_vectors sections 1.1, 2.1 and 3, one for each operation -/

theorem test_decode_pack :
    decodeTableWord 104 0x0004000000000007F00000001 = some (.pack 0x1#32 0x7F#32 0x400000#32) := by decide

theorem test_decode_unpack : decodeTableWord 104 0x10000000000000000C79CB580 = some (.unpack 0xC79CB580#32) := by decide

theorem test_decode_add :
    decodeTableWord 104 0x2000000003E4CCCCD3DCCCCCD = some (.add 0x3DCCCCCD#32 0x3E4CCCCD#32) := by decide

theorem test_decode_sub :
    decodeTableWord 104 0x3000000003E4CCCCD3E99999A = some (.sub 0x3E99999A#32 0x3E4CCCCD#32) := by decide

theorem test_decode_mul :
    decodeTableWord 104 0x4000000003F00000040355556 = some (.mul 0x40355556#32 0x3F000000#32) := by decide

theorem test_decode_div :
    decodeTableWord 104 0x5000000003FC0000040000000 = some (.div 0x40000000#32 0x3FC00000#32) := by decide

theorem test_decode_sqrt : decodeTableWord 104 0x6000000000000000040800000 = some (.sqrt 0x40800000#32) := by decide

theorem test_decode_eq :
    decodeTableWord 104 0x7000000003DCCCCCD3DCCCCCE = some (.eq 0x3DCCCCCE#32 0x3DCCCCCD#32) := by decide

theorem test_decode_ne :
    decodeTableWord 104 0x8000000007FC000007FC00000 = some (.ne 0x7FC00000#32 0x7FC00000#32) := by decide

theorem test_decode_lt :
    decodeTableWord 104 0x9000000003DCCCCCE3DCCCCCD = some (.lt 0x3DCCCCCD#32 0x3DCCCCCE#32) := by decide

theorem test_decode_le :
    decodeTableWord 104 0xA000000004120000040000000 = some (.le 0x40000000#32 0x41200000#32) := by decide

/-- Written out from 30_encoding R64 and R66: op 1011, c = 0, b = 2.0, a = 1.0. -/
theorem test_decode_gt :
    decodeTableWord 104 0xB00000000400000003F800000 = some (.gt 0x3F800000#32 0x40000000#32) := by decide

/-- Written out from 30_encoding R64 and R66: op 1100, c = 0, b = 2.0, a = 1.0. -/
theorem test_decode_ge :
    decodeTableWord 104 0xC00000000400000003F800000 = some (.ge 0x3F800000#32 0x40000000#32) := by decide

theorem test_decode_isNan : decodeTableWord 104 0xD00000000000000007F800001 = some (.isNan 0x7F800001#32) := by decide

theorem test_decode_toInt32 : decodeTableWord 104 0xE000000000000000043748000 = some (.toInt32 0x43748000#32) := by decide

theorem test_decode_fromInt32 :
    decodeTableWord 104 0xF0000000000000000FFFEC695 = some (.fromInt32 0xFFFEC695#32) := by decide

/-- Unused fields do not matter to the decoder (30_encoding R67). -/
theorem test_decode_unused_fields :
    decodeTableWord 104 0x6FFFFFFFF1234567840800000 = some (.sqrt 0x40800000#32) := by decide

/-- A number with a bit above bit 99 is no request (30_encoding R64, R70; log 16). -/
theorem test_decode_too_wide :
    decodeNat (2 ^ 100) = .error .notARequest ∧ decodeTableWord 104 0x12000000003E4CCCCD3DCCCCCD = none := by decide

theorem test_encode_pack :
    encode (.pack 0x2#32 0x17F#32 0xFFC00000#32) = BitVec.ofNat 100 0x0FFC000000000017F00000002 := by decide

/-! ### Well-formed terms, and the assembler (30_encoding R68, R71) -/

theorem test_wellFormed_line :
    AsmLine.wellFormed ⟨0xF#4, [-80235]⟩ = true ∧
      assemble ⟨0xF#4, [-80235]⟩ = .ok (BitVec.ofNat 100 0xF0000000000000000FFFEC695) := by decide

theorem test_illFormed_missing_operand :
    AsmLine.wellFormed ⟨0x2#4, [1]⟩ = false ∧ assemble ⟨0x2#4, [1]⟩ = .error .operandCount := by decide

theorem test_illFormed_extra_operand :
    AsmLine.wellFormed ⟨0x6#4, [1, 2]⟩ = false ∧ assemble ⟨0x6#4, [1, 2]⟩ = .error .operandCount := by decide

theorem test_illFormed_pack_two_operands :
    AsmLine.wellFormed ⟨0x0#4, [1, 2]⟩ = false ∧ assemble ⟨0x0#4, [1, 2]⟩ = .error .operandCount := by decide

theorem test_illFormed_operand_too_large :
    AsmLine.wellFormed ⟨0x6#4, [2 ^ 32]⟩ = false ∧ assemble ⟨0x6#4, [2 ^ 32]⟩ = .error .operandRange := by decide

theorem test_illFormed_operand_too_small :
    AsmLine.wellFormed ⟨0x6#4, [-2 ^ 31 - 1]⟩ = false ∧ assemble ⟨0x6#4, [-2 ^ 31 - 1]⟩ = .error .operandRange := by decide

/-! ### Operations: responses of 95_test_vectors sections 1 and 2 -/

theorem test_pack_masks : r (.pack 0x2#32 0x17F#32 0xFFC00000#32) = some 0x3FC00000#32 := by decide

theorem test_pack_keeps_signaling : r (.pack 0x0#32 0xFF#32 0x1#32) = some 0x7F800001#32 := by decide

theorem test_unpack_fields :
    fieldsOf (exec (.unpack 0xC79CB580#32) State.reset) = some (1#1, 0x8F#8, 0x1CB580#23) := by decide

theorem test_unpack_nan_payload :
    fieldsOf (exec (.unpack 0x7FC00001#32) State.reset) = some (0#1, 0xFF#8, 0x400001#23) := by decide

theorem test_add_overflow_tie : r (.add 0x7F7FFFFF#32 0x73000000#32) = some 0x7F800000#32 := by decide

theorem test_sub_just_over_tie : r (.sub 0x3F800000#32 0x33000001#32) = some 0x3F7FFFFF#32 := by decide

theorem test_sub_nan_keeps_sign : r (.sub 0x3F800000#32 0xFF800001#32) = some 0xFFC00001#32 := by decide

theorem test_mul_subnormal_tie : r (.mul 0x00FFFFFF#32 0x3F000000#32) = some 0x00800000#32 := by decide

theorem test_mul_invalid : r (.mul 0x80000000#32 0xFF800000#32) = some Config.defaultNan := by rfl

theorem test_div_third : r (.div 0x3F800000#32 0x40400000#32) = some 0x3EAAAAAB#32 := by decide

theorem test_div_by_negative_zero : r (.div 0x3F800000#32 0x80000000#32) = some 0xFF800000#32 := by decide

theorem test_sqrt_smallest_subnormal : r (.sqrt 0x00000001#32) = some 0x1A3504F3#32 := by decide

theorem test_sqrt_negative_zero : r (.sqrt 0x80000000#32) = some 0x80000000#32 := by decide

theorem test_eq_zeros : t (.eq 0x00000000#32 0x80000000#32) = some 1#1 := by decide

theorem test_eq_same_nan : t (.eq 0x7FC00000#32 0x7FC00000#32) = some 0#1 := by decide

theorem test_ne_differs : t (.ne 0xBF800000#32 0x3F800000#32) = some 1#1 := by decide

theorem test_ne_nan : t (.ne 0x7FC00000#32 0x3F800000#32) = some 0#1 := by decide

theorem test_lt_negatives : t (.lt 0xC0000000#32 0xBF800000#32) = some 1#1 := by decide

theorem test_lt_zeros : t (.lt 0x80000000#32 0x00000000#32) = some 0#1 := by decide

theorem test_le_zeros : t (.le 0x00000000#32 0x80000000#32) = some 1#1 := by decide

theorem test_le_greater : t (.le 0x00000001#32 0x80000001#32) = some 0#1 := by decide

theorem test_gt_subnormals : t (.gt 0x00000001#32 0x80000001#32) = some 1#1 := by decide

theorem test_gt_nan : t (.gt 0x3F800000#32 0x7F800001#32) = some 0#1 := by decide

theorem test_ge_infinities : t (.ge 0x7F800000#32 0x7F800000#32) = some 1#1 := by decide

theorem test_ge_nan : t (.ge 0xFFC00000#32 0xFF800000#32) = some 0#1 := by decide

theorem test_isNan_signaling : t (.isNan 0x7F800001#32) = some 1#1 := by decide

theorem test_isNan_infinity : t (.isNan 0xFF800000#32) = some 0#1 := by decide

theorem test_toInt32_tie : r (.toInt32 0xBFC00000#32) = some 0xFFFFFFFE#32 := by decide

theorem test_toInt32_saturates : r (.toInt32 0x4F000000#32) = some 0x7FFFFFFF#32 := by decide

theorem test_fromInt32_negative : r (.fromInt32 0xFFFEC695#32) = some 0xC79CB580#32 := by decide

theorem test_fromInt32_tie : r (.fromInt32 0x01000003#32) = some 0x4B800002#32 := by decide

/-! ### The internal units and the datapaths -/

/-- 41_rounding R120. -/
theorem test_clz32 : clz32 1 = 31 ∧ clz32 0x80000000 = 0 ∧ clz32 0 = 32 := by decide

/-- 41_rounding R142 (d), the rule's example. -/
theorem test_propagateNan_tie : propagateNan 0xFFC00000#32 0x7F800000#32 = .ok 0x7FC00000#32 := by rfl

/-- 60_exceptions R273: the unit refuses two operands that are not NaNs. -/
theorem test_propagateNan_refuses : propagateNan 0x3F800000#32 0x40000000#32 = .error .propagateNanWithoutNan := by rfl

/-- 95_test_vectors section 2.4. -/
theorem test_mulDatapath : (mulDatapath 0x3F800001#32 0x3F800001#32).toOption = some 0x3F800002#32 := by decide

/-- 95_test_vectors section 2.2. -/
theorem test_addDatapath : (addDatapath 0x3F800001#32 0x33800000#32).toOption = some 0x3F800002#32 := by decide

/-- 95_test_vectors section 2.6. -/
theorem test_sqrtDatapath : (sqrtDatapath 0x40000000#32).toOption = some 0x3FB504F3#32 := by decide

/-- 42_fp_adder R172 (e) fails of the value rules R170 and R171 at this NaN and infinity (log 21): the tie of 41_rounding R142 (d) is
decided with +infinity by SUB and with -infinity by ADD of the negated operand. -/
theorem test_sub_is_not_add_of_negated_at_nan_tie :
    r (.sub 0xFFC00000#32 0x7F800000#32) = some 0x7FC00000#32 ∧
      r (.add 0xFFC00000#32 (0x7F800000#32 ^^^ 0x80000000#32)) = some 0xFFC00000#32 := by decide

/-- 10_state R21, by hand: (1 + 2^-23) 2^-63 times (1 - 2^-23) 2^-63 is 2^-126 (1 - 2^-46), below 2^-126, and rounds to 2^-126 at 24 bits:
no underflow. (2^24 - 1) 2^-150 has 24 bits: underflow, and the response rounds up (95_test_vectors section 2.4). -/
theorem test_tininess_after_rounding :
    arises (.mul 0x20000001#32 0x1FFFFFFE#32) .underflow = false ∧ r (.mul 0x20000001#32 0x1FFFFFFE#32) = some 0x00800000#32 ∧
      arises (.mul 0x00FFFFFF#32 0x3F000000#32) .underflow = true := by decide

/-! ### Steps of the machine -/

/-- A placed request is answered by the very next step (95_test_vectors section 1.1). -/
theorem test_step_runs_placed_request :
    rOf (step (State.reset.withFetchWord 104 0x2000000003E4CCCCD3DCCCCCD)) = some 0x3E99999A#32 := by decide

/-- The program used below: u = 0.1 + 0.2, then 2 × u, then a branch on EQ (60_exceptions R283). -/
def program : List RequesterStep :=
  [.issue 0x2#4 (.word 0x3DCCCCCD#32) (.word 0x3E4CCCCD#32) (.word 0) [(.r, 0)],
    .issue 0x7#4 (.bound 0 0) (.word 0x3E99999A#32) (.word 0) [(.t, 1)],
    .branch (.bound 1 0) 1#32 4, .reset, .stop]

/-- A requester about to start. -/
def requester : Requester := { program := program, pos := 0, names := [], received := [] }

/-- The machine with one requester, about to start. -/
def start : State := { State.reset with requesters := [requester] }

/-- The state after `n` steps; the machine never stops. -/
def after (n : Nat) (s : State) : State :=
  match Sys2Proof.core.run n s with
  | .next u => u
  | .fault _ => s
  | .refused _ => s

/-- What can be seen of the first requester: its place and its names. -/
def seen (s : State) : Option (Nat × List (Nat × Word)) := s.requesters[0]?.map fun q => (q.pos, q.names)

/-- The first request is issued and in flight; the second step of the program waits for its response. -/
theorem test_requester_waits : seen (after 1 start) = some (1, []) ∧ (after 1 start).inFlight.length = 1 := by decide

/-- The response arrives and its name is bound. -/
theorem test_requester_receives : seen (after 2 start) = some (1, [(0, 0x3E99999A#32)]) := by decide

/-- The branch on `t` = 1 is taken; the run then ends, and a step changes nothing. -/
theorem test_requester_branches :
    seen (after 5 start) = some (4, [(0, 0x3E99999A#32), (1, 1#32)]) ∧ runEnded (after 6 start) = true ∧
      isStuck (after 6 start) = false := by decide

/-- A request of a requester the model does not hold keeps the run from having ended, until its response (70_reset R312; log 24). -/
theorem test_run_ends_with_the_response :
    runEnded (State.reset.withFetchWord 104 0x6000000000000000040800000) = false ∧
      runEnded (after 1 (State.reset.withFetchWord 104 0x6000000000000000040800000)) = true := by decide

/-- A reset cancels the request in flight: the requester is stuck (70_reset R301; 93_implementation_defined). -/
theorem test_reset_cancels :
    (resetBlock (after 1 start)).inFlight = [] ∧ isStuck (resetBlock (after 1 start)) = true := by decide

/-! ### Witnesses: for every obligation with hypotheses, values that meet them all, clause by clause -/

theorem witness_DecodeEncodeRoundTrip : (Instr.pack 0xFFFFFFFF#32 0#32 1#32).wellFormed = true := by decide

theorem witness_EveryRequestIsValid : 0 < 2 ^ 100 ∧ 2 ^ 100 - 1 < 2 ^ 100 := by decide

theorem witness_NothingInFlightAtReset :
    (0 < 2 ^ 100 ∧ 2 ^ 100 - 1 < 2 ^ 100) ∧ ∃ v, exec (decode (BitVec.ofNat 100 (2 ^ 100 - 1))) start = .next v :=
  ⟨by decide, _, rfl⟩

/-- Both ends of the range of an operand, an operation of each arity, and an ill-formed line. -/
theorem witness_FormatsAndWrittenOutRequests :
    ((-2 ^ 31 : Int) ≤ -2 ^ 31 ∧ (-2 ^ 31 : Int) < 2 ^ 32 ∧ (-2 ^ 31 : Int) ≤ 2 ^ 32 - 1 ∧ (2 ^ 32 - 1 : Int) < 2 ^ 32) ∧
      0xF#4 ∈ [0x1#4, 0x6#4, 0xD#4, 0xE#4, 0xF#4] ∧
      0xC#4 ∈ [0x2#4, 0x3#4, 0x4#4, 0x5#4, 0x7#4, 0x8#4, 0x9#4, 0xA#4, 0xB#4, 0xC#4] ∧
      AsmLine.wellFormed ⟨0x2#4, [1]⟩ = false := by decide

/-- SQRT reads neither `b` nor `c`; ADD does not read `c`; PACK reads some bits only. -/
theorem witness_UnreadFieldsHaveNoEffect :
    ((readsB 0x6#4 = true → (1#32) = 2#32) ∧ (readsC 0x6#4 = true → (3#32) = 4#32)) ∧
      ((readsB 0x2#4 = true → (1#32) = 1#32) ∧ (readsC 0x2#4 = true → (3#32) = 4#32)) ∧
      ((2#32).getLsbD 0 = (0#32).getLsbD 0 ∧ (0x17F#32).toNat % 2 ^ 8 = (0x7F#32).toNat % 2 ^ 8 ∧
        (0xFFC00000#32).toNat % 2 ^ 23 = (0x400000#32).toNat % 2 ^ 23) := by decide

/-- A request in flight of requester 0, to be answered by the block. -/
def oneInFlight : Pending := { requester := some 0, into := [(.r, 0)], bits := requestBits 0x2#4 0x3F800000#32 0x3F800000#32 0 }

/-- The machine with one requester and its request in flight, with the turns given. -/
def busy (turns : List Turn) : State := { start with inFlight := [oneInFlight], turns := turns }

/-- Both forms of the block's turn, both kinds of request in flight, and both ends of the range of requests. -/
theorem witness_StepRunsTheOldestRequest :
    ((busy [.block]).inFlight = oneInFlight :: [] ∧ (busy [.block]).turns = .block :: []) ∧
      ((busy []).inFlight = oneInFlight :: [] ∧ (busy []).turns = [] ∧ ([] : List Turn) = []) ∧
      (Pending.mk none [] 0).requester = none ∧
      (oneInFlight.requester = some 0 ∧ (busy []).requesters[0]? = some requester) ∧ 2 ^ 100 - 1 < 2 ^ 100 := by decide

/-- The block has its turn and nothing is in flight: nothing changes for requester 0. -/
theorem witness_ResponsesArriveInIssueOrder_same :
    ∃ u, step { start with requesters := [requester], turns := [.block] } = .next u ∧
      start.requesters[0]? = some requester ∧ owed u 0 = [] := ⟨_, rfl, rfl, rfl⟩

/-- A request is issued. -/
theorem witness_ResponsesArriveInIssueOrder_issued :
    ∃ u, step start = .next u ∧ start.requesters[0]? = some requester ∧
      owed u 0 = [requestBits 0x2#4 0x3DCCCCCD#32 0x3E4CCCCD#32 0] := ⟨_, rfl, rfl, rfl⟩

/-- The oldest request owed is answered. -/
theorem witness_ResponsesArriveInIssueOrder_answered :
    ∃ u q, step (busy []) = .next u ∧ (busy []).requesters[0]? = some requester ∧ owed (busy []) 0 = oneInFlight.bits :: owed u 0 ∧
      u.requesters[0]? = some q ∧ q.received.length = 1 := ⟨_, _, rfl, rfl, rfl, rfl, rfl⟩

/-- A reset cancels what is owed. -/
theorem witness_ResponsesArriveInIssueOrder_reset :
    ∃ u, step (busy [.reset]) = .next u ∧ (busy [.reset]).requesters[0]? = some requester ∧ ResetIsDue (busy [.reset]) ∧
      owed (busy [.reset]) 0 ≠ [] ∧ owed u 0 = [] := ⟨_, rfl, rfl, .inl rfl, by decide, rfl⟩

theorem witness_ResetCancelsRequestsInFlight :
    (busy [.reset]).turns = .reset :: [] ∧
      (∃ u, exec (.add 1#32 2#32) (busy [.reset]) = .next u) ∧ ∃ v, exec (.add 1#32 2#32) State.reset = .next v :=
  ⟨rfl, ⟨_, rfl⟩, ⟨_, rfl⟩⟩

/-- The machine with one requester at the step that uses the name 0, bound as given. -/
def atSecond (names : List (Nat × Word)) : State :=
  { State.reset with requesters := [{ requester with pos := 1, names := names }], turns := [.requester 0] }

/-- The machine with one requester at the given place of the program, its turn next, with the names given. -/
def standing (program : List RequesterStep) (pos : Nat) (names : List (Nat × Word)) : State :=
  { State.reset with requesters := [{ requester with program := program, pos := pos, names := names }], turns := [.requester 0] }

/-- A requester at each kind of step, with the value it uses not bound and bound; the branch with a value equal and one not equal; and one
past its end. -/
theorem witness_RequestersStepAndBindNames_steps :
    (∀ p pos names, (standing p pos names).turns = .requester 0 :: [] ∧
      (standing p pos names).requesters[0]? = some { requester with program := p, pos := pos, names := names }) ∧
      [RequesterStep.assign 7 (.bound 0 1#32)][0]? = some (.assign 7 (.bound 0 1#32)) ∧
      program[2]? = some (.branch (.bound 1 0) 1#32 4) ∧ program[3]? = some .reset ∧ program[4]? = some .stop ∧
      program[5]? = none ∧ evalOperand [] (.bound 1 0) = none ∧ evalOperand [(1, 1#32)] (.bound 1 0) = some 1#32 ∧
      (evalOperand [(1, 2#32)] (.bound 1 0) = some 2#32 ∧ (2#32) ≠ 1#32) ∧
      evalOperand [] (.bound 0 1#32) = none ∧ evalOperand [(0, 4#32)] (.bound 0 1#32) = some 5#32 :=
  ⟨fun _ _ _ => ⟨rfl, rfl⟩, rfl, rfl, rfl, rfl, rfl, rfl, rfl, ⟨rfl, by decide⟩, rfl, rfl⟩

/-- A response that binds the name 0, and the same with a younger request in flight that binds it too. -/
theorem witness_RequestersStepAndBindNames_names :
    (oneInFlight.requester = some 0 ∧ start.requesters[0]? = some requester ∧ ¬ (∃ y ∈ start.inFlight, y.requester = some 0 ∧
      ∃ d ∈ y.into, d.2 = 0) ∧ oneInFlight.into = [] ++ (.r, 0) :: [] ∧ ∀ d ∈ ([] : List (ResponseField × Nat)), d.2 ≠ 0) ∧
      ((busy []).requesters[0]? = some requester ∧ ∃ y ∈ (busy []).inFlight, y.requester = some 0 ∧ ∃ d ∈ y.into, d.2 = 0) ∧
      ∀ d ∈ oneInFlight.into, d.2 ≠ 1 := by
  refine ⟨⟨rfl, rfl, ?_, rfl, ?_⟩, ⟨rfl, ?_⟩, ?_⟩ <;> decide

/-- An issue step: an operand not yet bound, and all operands bound. -/
theorem witness_RequestersStepAndBindNames_issue :
    (∀ names, (atSecond names).turns = .requester 0 :: [] ∧
      (atSecond names).requesters[0]? = some { requester with pos := 1, names := names } ∧
      requester.program[1]? = some (.issue 0x7#4 (.bound 0 0) (.word 0x3E99999A#32) (.word 0) [(.t, 1)])) ∧
      evalOperand [] (.bound 0 0) = none ∧
      (evalOperand [(0, 5#32)] (.bound 0 0) = some 5#32 ∧ evalOperand [(0, 5#32)] (.word 0x3E99999A#32) = some 0x3E99999A#32 ∧
        evalOperand [(0, 5#32)] (.word 0) = some 0) :=
  ⟨fun _ => ⟨rfl, rfl, rfl⟩, rfl, rfl, rfl, rfl⟩

/-- A state with a requester and its request in flight has the invariant, and steps. -/
theorem witness_EveryStepKeepsTheInvariant : Inv (busy []) ∧ ∃ u, step (busy []) = .next u := by
  refine ⟨⟨?_, ?_⟩, _, rfl⟩
  · intro q hq
    obtain rfl : q = requester := by simpa [busy, start] using hq
    exact ⟨List.Pairwise.nil, by decide, by decide⟩
  · intro p hp
    obtain rfl : p = oneInFlight := by simpa [busy] using hp
    exact ⟨fun k hk => by cases hk; decide, by decide⟩

/-- One pair of operands for each of the five clauses, the last with both outcomes of the tie. -/
theorem witness_PropagateNanChoosesByRule :
    (isSignaling 0x7F800001#32 = true ∧ isSignaling 0x7FC00002#32 = false) ∧
      (isSignaling 0x7FFFFFFF#32 = false ∧ isSignaling 0xFF800001#32 = true) ∧
      (isSignaling 0x7F800005#32 = isSignaling 0x7F800003#32 ∧ mag (quiet 0x7F800003#32) < mag (quiet 0x7F800005#32)) ∧
      (isSignaling 0x7FC00000#32 = isSignaling 0x7FD00000#32 ∧ mag (quiet 0x7FC00000#32) < mag (quiet 0x7FD00000#32)) ∧
      (isSignaling 0xFFC00000#32 = isSignaling 0x7F800000#32 ∧ mag (quiet 0xFFC00000#32) = mag (quiet 0x7F800000#32) ∧
        isNaN 0xFFC00000#32 = true) := by decide

theorem witness_PropagatedNanIsQuietAndSymmetric :
    (isNaN 0x7F800001#32 = true ∧ isSignaling 0x7F800001#32 = true ∧ isSignaling 0x3F800000#32 = false) ∧
      (isNaN 0xFFC00000#32 = true ∧ isNaN 0x7F800000#32 = false ∧ quiet 0xFFC00000#32 = 0xFFC00000#32 ∧
        isInf 0x7F800000#32 = true) ∧
      (isNaN 0x7FC00001#32 = true ∧ isNaN 0x7F800000#32 = false ∧ quiet 0x7FC00001#32 ≠ 0x7FC00000#32 ∧
        quiet 0x7FC00001#32 ≠ 0xFFC00000#32) ∧
      (isFinite 0x7F7FFFFF#32 = true ∧ isInf 0xFF800000#32 = true) := by decide

/-- The hypothesis, and a NaN result. -/
theorem witness_NanResultsAreQuiet :
    isArithmetic (.add 0x7F800001#32 0#32) = true ∧ (r (.add 0x7F800001#32 0#32)).map isNaN = some true := by decide

theorem witness_NanResultIffNanOperandOrInvalid :
    (isArithmetic (.sqrt 0xBF800000#32) = true ∧ invalidOperation (.sqrt 0xBF800000#32) = true) ∧
      (isArithmetic (.mul 0x7FC00000#32 0#32) = true ∧ hasNaNOperand (.mul 0x7FC00000#32 0#32) = true) := by decide

theorem witness_NormSubnormalKeepsTheValue : (0 < 1 ∧ 1 < 2 ^ 23) ∧ 0 < 2 ^ 23 - 1 ∧ 2 ^ 23 - 1 < 2 ^ 23 := by decide

/-- Both ends of the range of `clz32`, and a shift below and at the width of `jam`. -/
theorem witness_LeadingZerosAndJam :
    (0 < 1 ∧ 1 < 2 ^ 32) ∧ (0 < 2 ^ 32 - 1 ∧ 2 ^ 32 - 1 < 2 ^ 32) ∧ (129 < 2 ^ 8 ∧ 1 ≤ 7 ∧ 7 < 8) ∧ (129 < 2 ^ 8 ∧ 1 ≤ 8 ∧ 8 ≤ 8) := by
  decide

theorem witness_IntegerRoundingIsRoundRNE : 0 < 1 := by decide

/-- The least magnitude, and one just below the threshold, whose nearest value is the largest. -/
theorem witness_RoundRNEIsNearestEven :
    ((0 : ℚ) ≤ 0 ∧ (0 : ℚ) < 2 ^ 128 - 2 ^ 103) ∧ ((0 : ℚ) ≤ 2 ^ 128 - 2 ^ 103 - 1 ∧ (2 ^ 128 - 2 ^ 103 - 1 : ℚ) < 2 ^ 128 - 2 ^ 103) := by
  norm_num

/-- The least significand at exponent 1, the greatest, and a significand of 0 at exponent 0. -/
theorem witness_RoundAndPackIsRoundRNE :
    (2 ^ 30 < 2 ^ 31 ∧ ((1 : Int) ≤ 1 → 2 ^ 30 ≤ 2 ^ 30)) ∧ (2 ^ 31 - 1 < 2 ^ 31 ∧ ((1 : Int) ≤ 254 → 2 ^ 30 ≤ 2 ^ 31 - 1)) ∧
      (0 < 2 ^ 31 ∧ ((1 : Int) ≤ 0 → 2 ^ 30 ≤ 0)) := by decide

theorem witness_NormRoundAndPackIsRoundRNE : (0 < 1 ∧ 1 < 2 ^ 31) ∧ 0 < 2 ^ 31 - 1 ∧ 2 ^ 31 - 1 < 2 ^ 31 := by decide

/-- At the threshold, and an operation on each side of it. -/
theorem witness_OverflowIsAlwaysInfinity :
    (0 < 1 ∧ overflowThreshold * 1 ≤ 2 ^ 128 - 2 ^ 103) ∧
      (exactMagnitude (.add 0x7F7FFFFF#32 0x73000000#32)).map (fun q => overflows q.1 q.2) = some true ∧
      (exactMagnitude (.add 0x7F7FFFFF#32 0x72FFFFFF#32)).map (fun q => overflows q.1 q.2) = some false := by decide

/-- A magnitude that rounds to a whole number of units, and 2^-150, the largest that rounds to 0. -/
theorem witness_UnderflowIsGradual :
    (0 < 2 ^ 140 ∧ 1 * 2 ^ 126 < 2 ^ 140) ∧ (0 < 2 ^ 150 ∧ 1 * 2 ^ 126 < 2 ^ 150) ∧
      Exact.rneInt (((1 : ℕ) : ℚ) / ((2 ^ 150 : ℕ) : ℚ) * 2 ^ 149) = 0 := by
  refine ⟨by decide, by decide, ?_⟩
  have h : (((1 : ℕ) : ℚ) / ((2 ^ 150 : ℕ) : ℚ) * 2 ^ 149) = 1 / 2 := by norm_num
  rw [h]; norm_num [Exact.rneInt]

/-- One pair of operands for each law. -/
theorem witness_LawsOfAddAndSub :
    (isNaN 0x7F800000#32 = false ∧ (0x7F800000#32 : Word) ≠ 0x80000000#32) ∧ isNaN 0x80000000#32 = false ∧
      isFinite 0x7F7FFFFF#32 = true ∧ (isNaN 0x7F800000#32 = false ∧ ¬ ((0x7FC00000#32 : Word) = 0xFFC00000#32 ∧ isInf 0x7F800000#32 = true)) ∧
      (isNaN 0x3F800000#32 = false ∧ ¬ ((0xFFC00000#32 : Word) = 0xFFC00000#32 ∧ isInf 0x3F800000#32 = true)) ∧
      isNaN 0x7F800001#32 = true := by decide

theorem witness_MagnitudeUnitsAreExact : isFinite 0x7F7FFFFF#32 = true ∧ isFinite 0x00000001#32 = true := by decide

theorem witness_LawsOfMul : isNaN 0x80000000#32 = false ∧ isNaN 0x7F800001#32 = true := by decide

/-- The value of 1.0. -/
theorem val_one : Exact.val 0x3F800000#32 = 1 := by
  have h0 : isZero 0x3F800000#32 = false := by decide
  have h1 : isSubnormal 0x3F800000#32 = false := by decide
  have h2 : isNormal 0x3F800000#32 = true := by decide
  have h3 : (signOf 0x3F800000#32).toNat = 0 := by decide
  have h4 : fracNat 0x3F800000#32 = 0 := by decide
  have h5 : expNat 0x3F800000#32 = 127 := by decide
  norm_num [Exact.val, h0, h1, h2, h3, h4, h5, zpow_neg]

/-- One pair of operands for each law; for the last, 1 / 1 = 1. -/
theorem witness_LawsOfDiv :
    isNaN 0x7F800000#32 = false ∧ (isFinite 0x00000001#32 = true ∧ isZero 0x00000001#32 = false) ∧ isNaN 0x7F800001#32 = true ∧
      (isFinite 0x3F800000#32 = true ∧ isZero 0x3F800000#32 = false ∧
        signOf 0x3F800000#32 = signOf 0x3F800000#32 ^^^ signOf 0x3F800000#32 ∧
        Exact.val 0x3F800000#32 = Exact.val 0x3F800000#32 / Exact.val 0x3F800000#32) := by
  refine ⟨by decide, by decide, by decide, by decide, by decide, by decide, ?_⟩
  rw [val_one]; norm_num

/-- One operand for each clause. -/
theorem witness_SqrtGivesTheRoundedRoot :
    isNaN 0x7F800001#32 = true ∧ isZero 0x80000000#32 = true ∧
      (isNaN 0xFF800000#32 = false ∧ isZero 0xFF800000#32 = false ∧ signOf 0xFF800000#32 = 1#1) ∧
      (isInf 0x7F800000#32 = true ∧ signOf 0x7F800000#32 = 0#1) ∧
      (isFinite 0x00000001#32 = true ∧ isZero 0x00000001#32 = false ∧ signOf 0x00000001#32 = 0#1) ∧
      (isFinite 0x7F7FFFFF#32 = true ∧ isZero 0x7F7FFFFF#32 = false ∧ signOf 0x7F7FFFFF#32 = 0#1) := by decide

theorem witness_SqrtIsExactWhereItCanBe :
    (isFinite 0x3F800000#32 = true ∧ signOf 0x3F800000#32 = 0#1 ∧
      Exact.val 0x3F800000#32 * Exact.val 0x3F800000#32 = Exact.val 0x3F800000#32) ∧ isNaN 0x7F800001#32 = true ∧
      signOf 0x80000001#32 = 1#1 ∧ (0x80000001#32 : Word) ≠ 0x80000000#32 := by
  refine ⟨⟨by decide, by decide, ?_⟩, by decide, by decide, by decide⟩
  rw [val_one]; norm_num

/-- A positive normal whose square is normal (the first pattern is the least that has one, 2^-63). -/
theorem witness_SqrtOfSquareGivesBack :
    signOf 0x20000000#32 = 0#1 ∧ isNormal 0x20000000#32 = true ∧
      (r (.mul 0x20000000#32 0x20000000#32)).map isNormal = some true := by decide

theorem witness_ComparisonsAreFalseUnderNaN : isNaN 0x7F800001#32 = true := by decide

theorem witness_ComparatorIsTotal : NoNaN 0x7F800000#32 0x80000000#32 ∧ ¬ NoNaN 0x7F800000#32 0x7F800001#32 :=
  ⟨⟨by decide, by decide⟩, fun h => absurd h.2 (by decide)⟩

theorem witness_ComparatorComparesValues : NoNaN 0xFF800000#32 0xFF7FFFFF#32 := by constructor <;> decide

theorem witness_LawsOfToInt32 :
    (isFinite 0x3F800000#32 = true ∧ -2 ^ 31 ≤ Exact.val 0x3F800000#32 ∧ Exact.val 0x3F800000#32 < 2 ^ 31 - 1 / 2 ∧
      |Exact.val 0x3F800000#32| < 2 ^ 31 - 1 / 2) ∧ isNaN 0x7F800001#32 = true := by
  rw [val_one]; exact ⟨⟨by decide, by norm_num, by norm_num, by norm_num⟩, by decide⟩

/-- 2^24 and -2^24 for the round trip, and an operand for the sign. -/
theorem witness_LawsOfFromInt32 :
    |(0x01000000#32).toInt| ≤ 2 ^ 24 ∧ |(0xFF000000#32).toInt| ≤ 2 ^ 24 ∧
      (0x00000001#32 : Word) ≠ 0x00000000#32 ∧ (0x00000001#32 : Word) ≠ 0x80000000#32 := by decide

/-- One operation in which each condition of the statement arises. -/
theorem witness_ConditionsShapeOnlyTheResponse :
    arises (.div 0#32 0#32) .invalidOperation = true ∧ arises (.toInt32 0x4F000000#32) .invalidConversion = true ∧
      arises (.add 0x7F800001#32 0#32) .signalingOperand = true ∧ arises (.div 0x3F800000#32 0x80000000#32) .divisionByZero = true ∧
      arises (.mul 0x7F000000#32 0x40000000#32) .overflow = true ∧ arises (.mul 0x00FFFFFF#32 0x3F000000#32) .underflow = true ∧
      arises (.ne 0x7FC00000#32 0#32) .nanComparison = true ∧
      ((exactMagnitude (.mul 0x20000001#32 0x1FFFFFFE#32)).map (fun q => decide (q.1 ≠ 0 ∧ q.1 * 2 ^ 126 < q.2)) = some true) ∧
      ((exactMagnitude (.add 0x3F800000#32 0x33800000#32)).isSome = true ∧ arises (.add 0x3F800000#32 0x33800000#32) .inexact = true) ∧
      ((isFinite 0x40000000#32 = true ∧ isZero 0x40000000#32 = false ∧ signOf 0x40000000#32 = 0#1) ∧
        arises (.sqrt 0x40000000#32) .inexact = true) ∧
      (isFinite 0x3F000000#32 = true ∧ arises (.toInt32 0x3F000000#32) .inexact = true) := by decide

end Sys2Proof.Tests
end

/-! PROOFS. The family of 10_state: what an operation depends on and leaves alone (R22, R24), and the invariant of the
machine kept by every step (R23, 60_exceptions R283). -/

namespace Sys2Proof.Machine

/-! ### What an operation answers -/

/-- All that an operation can do: it drives exactly its fields, with values fixed by the operation alone, before any state
is looked at (10_state R20, R24). -/
theorem exec_cases (i : Instr) :
    (drives i = [.r] ∧ ∃ w, ∀ s, exec i s = driveR w s) ∨
      (drives i = [.t] ∧ ∃ v, ∀ s, exec i s = driveT v s) ∨
      (drives i = [.us, .ue, .uf] ∧ ∃ us ue uf, ∀ s, exec i s = driveFields us ue uf s) :=
  match i with
  | .pack a b c => .inl ⟨rfl, packMasked a b c, fun _ => rfl⟩
  | .unpack a => .inr (.inr ⟨rfl, signOf a, expOf a, fracOf a, fun _ => rfl⟩)
  | .add a b => .inl ⟨rfl, addValue a b, fun _ => rfl⟩
  | .sub a b => .inl ⟨rfl, subValue a b, fun _ => rfl⟩
  | .mul a b => .inl ⟨rfl, mulValue a b, fun _ => rfl⟩
  | .div a b => .inl ⟨rfl, divValue a b, fun _ => rfl⟩
  | .sqrt a => .inl ⟨rfl, sqrtValue a, fun _ => rfl⟩
  | .eq a b => .inr (.inl ⟨rfl, unlessNaN a b (eqBits a b), fun _ => rfl⟩)
  | .ne a b => .inr (.inl ⟨rfl, unlessNaN a b (!eqBits a b), fun _ => rfl⟩)
  | .lt a b => .inr (.inl ⟨rfl, unlessNaN a b (ltBits a b), fun _ => rfl⟩)
  | .le a b => .inr (.inl ⟨rfl, unlessNaN a b (leBits a b), fun _ => rfl⟩)
  | .gt a b => .inr (.inl ⟨rfl, unlessNaN a b (!leBits a b), fun _ => rfl⟩)
  | .ge a b => .inr (.inl ⟨rfl, unlessNaN a b (!ltBits a b), fun _ => rfl⟩)
  | .isNan a => .inr (.inl ⟨rfl, isNaN a, fun _ => rfl⟩)
  | .toInt32 a => .inl ⟨rfl, toInt32Value a, fun _ => rfl⟩
  | .fromInt32 a => .inl ⟨rfl, fromInt32Value a, fun _ => rfl⟩

/-- Every operation completes from every state. -/
theorem exec_completes (i : Instr) (s : State) : ∃ t, exec i s = .next t := by
  obtain ⟨-, w, h⟩ | ⟨-, v, h⟩ | ⟨-, us, ue, uf, h⟩ := exec_cases i
  · exact ⟨_, (h s).trans (driveR_eq w s)⟩
  · exact ⟨_, (h s).trans (driveT_eq v s)⟩
  · exact ⟨_, (h s).trans (driveFields_eq us ue uf s)⟩

/-- The frame of every operation. -/
theorem exec_sameSystem {i : Instr} {s t : State} (ht : exec i s = .next t) : SameSystem s t := by
  obtain ⟨-, w, h⟩ | ⟨-, v, h⟩ | ⟨-, us, ue, uf, h⟩ := exec_cases i
  · obtain ⟨-, hflight, hreqs, hturns, -⟩ := driveR_next ((h s).symm.trans ht)
    exact ⟨hflight, hreqs, hturns⟩
  · obtain ⟨-, hflight, hreqs, hturns, -⟩ := driveT_next ((h s).symm.trans ht)
    exact ⟨hflight, hreqs, hturns⟩
  · obtain ⟨-, -, -, hflight, hreqs, hturns, -⟩ := driveFields_next ((h s).symm.trans ht)
    exact ⟨hflight, hreqs, hturns⟩

/-- The fields an operation drives are the same from any two states. -/
theorem exec_get_eq {i : Instr} {s₁ s₂ t₁ t₂ : State} (h₁ : exec i s₁ = .next t₁) (h₂ : exec i s₂ = .next t₂) :
    ∀ f ∈ drives i, t₁.response.get f = t₂.response.get f := by
  obtain ⟨hd, w, h⟩ | ⟨hd, v, h⟩ | ⟨hd, us, ue, uf, h⟩ := exec_cases i
  · have hr₁ := (driveR_next ((h s₁).symm.trans h₁)).1
    have hr₂ := (driveR_next ((h s₂).symm.trans h₂)).1
    simp [hd, Response.get, hr₁, hr₂]
  · have ht₁ := (driveT_next ((h s₁).symm.trans h₁)).1
    have ht₂ := (driveT_next ((h s₂).symm.trans h₂)).1
    simp [hd, Response.get, ht₁, ht₂]
  · obtain ⟨hus₁, hue₁, huf₁, -⟩ := driveFields_next ((h s₁).symm.trans h₁)
    obtain ⟨hus₂, hue₂, huf₂, -⟩ := driveFields_next ((h s₂).symm.trans h₂)
    simp [hd, Response.get, hus₁, hue₁, huf₁, hus₂, hue₂, huf₂]

/-- Settles O8: an operation completes, with values that do not depend on the state, and within its frame. -/
theorem responseDependsOnRequestAlone : Obligations.ResponseDependsOnRequestAlone := by
  intro w s₁ s₂
  obtain ⟨t₁, h₁⟩ := exec_completes (decode w) s₁
  obtain ⟨t₂, h₂⟩ := exec_completes (decode w) s₂
  exact ⟨t₁, t₂, h₁, h₂, exec_get_eq h₁ h₂, exec_sameSystem h₁, exec_sameSystem h₂⟩

/-! ### What the decoder and PACK do not read -/

/-- An operation that does not read `b` decodes to the same whatever `b` holds. -/
theorem decode_requestBits_of_not_readsB {op : BitVec 4} (h : readsB op = false) (a b b' c : Word) :
    decode (requestBits op a b c) = decode (requestBits op a b' c) := by
  have hop : op = 0x1#4 ∨ op = 0x6#4 ∨ op = 0xD#4 ∨ op = 0xE#4 ∨ op = 0xF#4 := by
    revert op
    decide
  simp only [decode_requestBits]
  rcases hop with rfl | rfl | rfl | rfl | rfl <;> rfl

/-- An operation that does not read `c` decodes to the same whatever `c` holds. -/
theorem decode_requestBits_of_not_readsC {op : BitVec 4} (h : readsC op = false) (a b c c' : Word) :
    decode (requestBits op a b c) = decode (requestBits op a b c') := by
  have hop : ¬ (op.getLsbD 3 = false ∧ op.getLsbD 2 = false ∧ op.getLsbD 1 = false ∧ op.getLsbD 0 = false) := by
    revert op
    decide
  simp only [decode_requestBits]
  split
  · rename_i h3 h2 h1 h0
    exact absurd ⟨h3, h2, h1, h0⟩ hop
  all_goals rfl

/-- Masking to the low `n` bits sees only those bits. -/
theorem and_lowMask_congr {x y : Word} {n : Nat} (hn : n ≤ 32) (h : x.toNat % 2 ^ n = y.toNat % 2 ^ n) :
    x &&& BitVec.ofNat 32 (2 ^ n - 1) = y &&& BitVec.ofNat 32 (2 ^ n - 1) := by
  have hmask : (BitVec.ofNat 32 (2 ^ n - 1)).toNat = 2 ^ n - 1 := by
    have := Nat.pow_le_pow_right (n := 2) (by omega) hn
    have := Nat.two_pow_pos n
    simp only [BitVec.toNat_ofNat]
    omega
  apply BitVec.eq_of_toNat_eq
  simp only [BitVec.toNat_and, hmask, Nat.and_two_pow_sub_one_eq_mod, h]

/-- PACK's mask of its sign word sees only bit 0. -/
theorem and_one_congr {x y : Word} (h : x.getLsbD 0 = y.getLsbD 0) : x &&& 1#32 = y &&& 1#32 := by
  refine and_lowMask_congr (n := 1) (by omega) ?_
  have hbit : x.toNat % 2 = 1 ↔ y.toNat % 2 = 1 := by simpa [BitVec.getLsbD, Nat.testBit_zero] using h
  omega

/-- PACK's result depends on bit 0, the low 8 bits and the low 23 bits of its operands (40_codec R107). -/
theorem packMasked_congr {a b c a' b' c' : Word} (ha : a.getLsbD 0 = a'.getLsbD 0)
    (hb : b.toNat % 2 ^ 8 = b'.toNat % 2 ^ 8) (hc : c.toNat % 2 ^ 23 = c'.toNat % 2 ^ 23) :
    packMasked a b c = packMasked a' b' c' := by
  have hE : b &&& 0xFF#32 = b' &&& 0xFF#32 := and_lowMask_congr (by omega) hb
  have hF : c &&& 0x7FFFFF#32 = c' &&& 0x7FFFFF#32 := and_lowMask_congr (by omega) hc
  rw [packMasked, packMasked, and_one_congr ha, hE, hF]

/-- Settles O5: the decoder drops the fields that are not read, and PACK masks the bits that are not read. -/
theorem unreadFieldsHaveNoEffect : Obligations.UnreadFieldsHaveNoEffect := by
  refine ⟨fun op a b c b' c' s hb hc => ?_, fun a b c a' b' c' s ha hb hc => ?_⟩
  · have hdecode : decode (requestBits op a b c) = decode (requestBits op a b' c') := by
      calc decode (requestBits op a b c)
          = decode (requestBits op a b' c) := by
            cases h : readsB op with
            | true => rw [hb h]
            | false => exact decode_requestBits_of_not_readsB h a b b' c
        _ = decode (requestBits op a b' c') := by
            cases h : readsC op with
            | true => rw [hc h]
            | false => exact decode_requestBits_of_not_readsC h a b' c c'
    rw [hdecode]
  · change driveR (packMasked a b c) s = driveR (packMasked a' b' c') s
    rw [packMasked_congr ha hb hc]

/-! ### The invariant -/

/-- Which fields a request's response drives is said by its operation number alone. -/
theorem drives_decode_requestBits (op : BitVec 4) (a b c a' b' c' : Word) :
    drives (decode (requestBits op a b c)) = drives (decode (requestBits op a' b' c')) := by
  simp only [decode_requestBits]
  cases op.getLsbD 3 <;> cases op.getLsbD 2 <;> cases op.getLsbD 1 <;> cases op.getLsbD 0 <;> rfl

/-- Taking a response keeps a requester well-formed: only its names change, and they stay rising. -/
theorem requesterWellFormed_receive {y : List Pending} {k : Nat} {d : List (ResponseField × Nat)} {x : Response}
    {q : Requester} (h : requesterWellFormed q) : requesterWellFormed (receive y k d x q) := by
  obtain ⟨hnames, hpos, hprog⟩ := h
  exact ⟨bindAll_rising hnames, hpos, hprog⟩

/-- A requester moved to another place of its program, with other names in their one form, stays well-formed. -/
theorem requesterWellFormed_move {q : Requester} (h : requesterWellFormed q) {pos : Nat}
    {names : List (Nat × Word)} (hpos : pos ≤ q.program.length) (hnames : NamesRising names) :
    requesterWellFormed { q with pos := pos, names := names } := by
  obtain ⟨-, -, hprog⟩ := h
  exact ⟨hnames, hpos, hprog⟩

/-- The step a well-formed requester is at is well-formed, and the next place is still in the program. -/
theorem requesterWellFormed_at {q : Requester} (h : requesterWellFormed q) {st : RequesterStep}
    (hst : q.program[q.pos]? = some st) : stepWellFormed q.program.length st = true ∧ q.pos + 1 ≤ q.program.length := by
  obtain ⟨-, -, hprog⟩ := h
  obtain ⟨hlt, -⟩ := List.getElem?_eq_some_iff.mp hst
  exact ⟨List.all_eq_true.mp hprog st (List.mem_of_getElem? hst), hlt⟩

/-- What an operation does keeps the invariant, since it stays within its frame. -/
theorem inv_of_sameSystem {s t : State} (h : SameSystem s t) (hs : Inv s) : Inv t := by
  obtain ⟨hflight, hreqs, -⟩ := h
  simpa only [Inv, hflight, hreqs] using hs

/-- Delivering a response keeps the invariant. -/
theorem inv_deliver {p : Pending} {s : State} (hs : Inv s) : Inv (deliver p s) := by
  cases hp : p.requester with
  | none => rwa [deliver_none s hp]
  | some k =>
    obtain ⟨hreqs, hflight⟩ := hs
    refine ⟨fun q hq => ?_, ?_⟩
    · rw [deliver_some s hp] at hq
      obtain ⟨j, hj⟩ := List.mem_iff_getElem?.mp hq
      rw [List.getElem?_modify] at hj
      obtain ⟨q₀, hq₀, rfl⟩ := Option.map_eq_some_iff.mp hj
      have hwf := hreqs q₀ (List.mem_of_getElem? hq₀)
      split
      · exact requesterWellFormed_receive hwf
      · exact hwf
    · simpa [deliver_some s hp] using hflight

/-- Replacing a requester by a well-formed one keeps the invariant. -/
theorem inv_setRequester {k : Nat} {q : Requester} {s : State} (hq : requesterWellFormed q) (hs : Inv s) :
    Inv (setRequester k q s) := by
  obtain ⟨hreqs, hflight⟩ := hs
  refine ⟨fun r hr => ?_, by simpa using hflight⟩
  rcases List.mem_or_eq_of_mem_set hr with hr | rfl
  · exact hreqs r hr
  · exact hq

/-- Resetting the block keeps the invariant: nothing is in flight, and the requesters are as they were. -/
theorem inv_resetBlock {s : State} (hs : Inv s) : Inv (resetBlock s) := ⟨hs.1, by simp⟩

/-- A well-formed request put behind those in flight keeps the invariant. -/
theorem inv_append {p : Pending} {s : State} (hp : pendingWellFormed s.requesters.length p) (hs : Inv s) :
    Inv { s with inFlight := s.inFlight ++ [p] } := by
  obtain ⟨hreqs, hflight⟩ := hs
  refine ⟨hreqs, fun r hr => ?_⟩
  rcases List.mem_append.mp hr with hr | hr
  · exact hflight r hr
  · rwa [List.mem_singleton.mp hr]

/-- The request that a well-formed issue step issues is well-formed: its operation drives what the step names, whatever
the operands turned out to be. -/
theorem pendingWellFormed_issue {n len k : Nat} {op : BitVec 4} {a b c : StepOperand}
    {into : List (ResponseField × Nat)} (hk : k < n) (h : stepWellFormed len (.issue op a b c into) = true)
    (va vb vc : Word) : pendingWellFormed n ⟨some k, into, requestBits op va vb vc⟩ := by
  refine ⟨fun j hj => Option.some.inj hj ▸ hk, ?_⟩
  rw [stepWellFormed] at h
  simpa only [drives_decode_requestBits op va vb vc 0#32 0#32 0#32] using h

/-- A requester's move keeps the invariant. -/
theorem inv_requesterMove {k : Nat} {q : Requester} {s t : State} (hs : Inv s) (hq : s.requesters[k]? = some q)
    (h : requesterMove k q s = some t) : Inv t := by
  have hwf : requesterWellFormed q := hs.1 q (List.mem_of_getElem? hq)
  have hnames : NamesRising q.names := hwf.1
  rcases requesterMove_cases h with ⟨op, a, b, c, into, va, vb, vc, hst, -, -, -, rfl⟩ | ⟨n, v, w, hst, -, rfl⟩ |
    ⟨v, is, target, w, hst, -, rfl⟩ | ⟨hst, rfl⟩ | ⟨hst, rfl⟩
  all_goals obtain ⟨hstep, hnext⟩ := requesterWellFormed_at hwf hst
  case inl =>
    obtain ⟨hk, -⟩ := List.getElem?_eq_some_iff.mp hq
    exact inv_setRequester (requesterWellFormed_move hwf hnext (unbindAll_rising hnames))
      (inv_append (pendingWellFormed_issue hk hstep va vb vc) hs)
  case inr.inl => exact inv_setRequester (requesterWellFormed_move hwf hnext (bindName_rising hnames)) hs
  case inr.inr.inl =>
    have htarget : (if w = is then target else q.pos + 1) ≤ q.program.length := by
      split
      · simpa [stepWellFormed] using hstep
      · exact hnext
    exact inv_setRequester (requesterWellFormed_move hwf htarget hnames) hs
  case inr.inr.inr.inl => exact inv_setRequester (requesterWellFormed_move hwf hnext hnames) (inv_resetBlock hs)
  case inr.inr.inr.inr => exact inv_setRequester (requesterWellFormed_move hwf le_rfl hnames) hs

/-- Settles O14, by the cases of a step: nothing, an answer delivered, a requester's move, a reset from outside. -/
theorem everyStepKeepsTheInvariant : Obligations.EveryStepKeepsTheInvariant := by
  intro s t hs h
  have hs' : Inv { s with turns := s.turns.tail } := hs
  rcases step_cases h with rfl | ⟨p, rest, u, hflight, hexec, rfl⟩ | ⟨k, q, -, hq, hmove⟩ | ⟨-, rfl⟩
  · exact hs'
  · obtain ⟨hreqs, hpending⟩ := hs
    rw [hflight] at hpending
    have hrest : Inv { s with inFlight := rest, turns := s.turns.tail } :=
      ⟨hreqs, fun r hr => hpending r (List.mem_cons_of_mem p hr)⟩
    exact inv_deliver (inv_of_sameSystem (exec_sameSystem hexec) hrest)
  · exact inv_requesterMove hs' hq hmove
  · exact inv_resetBlock hs'

end Sys2Proof.Machine

/-! PROOFS. The family of 20_memory: each requester gets its responses in the order it issued the requests (R49, R50), and
a reset cancels what it is owed (70_reset R301). -/

namespace Sys2Proof.Machine

/-! ### What a requester is owed -/

/-- With the same requests in flight, a requester is owed the same. -/
theorem owed_congr {s t : State} (h : t.inFlight = s.inFlight) (k : Nat) : owed t k = owed s k := by
  rw [owed, h, owed]

/-- With nothing in flight, nothing is owed. -/
theorem owed_eq_nil {s : State} (h : s.inFlight = []) (k : Nat) : owed s k = [] := by simp [owed, h]

/-- The oldest request in flight, of requester `k`, is the oldest that `k` is owed a response to. -/
theorem owed_of_oldest_own {s t : State} {p : Pending} {k : Nat} (h : s.inFlight = p :: t.inFlight)
    (hp : p.requester = some k) : owed s k = p.bits :: owed t k := by simp [owed, h, hp]

/-- The oldest request in flight, not of requester `k`, is nothing that `k` is owed. -/
theorem owed_of_oldest_other {s t : State} {p : Pending} {k : Nat} (h : s.inFlight = p :: t.inFlight)
    (hp : p.requester ≠ some k) : owed s k = owed t k := by simp [owed, h, hp]

/-- A request put behind those in flight is owed last, to the requester that issued it and to no other. -/
theorem owed_of_youngest {s t : State} {p : Pending} (h : t.inFlight = s.inFlight ++ [p]) (k : Nat) :
    owed t k = owed s k ++ if p.requester = some k then [p.bits] else [] := by
  by_cases hp : p.requester = some k <;> simp [owed, h, hp]

/-! ### What a requester's move and a delivery change -/

/-- A requester's move puts at most one request, its own, behind those in flight, and only a reset step cancels any. -/
theorem requesterMove_inFlight {j : Nat} {r : Requester} {s t : State} (h : requesterMove j r s = some t) :
    t.inFlight = s.inFlight ∨ (∃ into w, t.inFlight = s.inFlight ++ [⟨some j, into, w⟩]) ∨
      (r.program[r.pos]? = some .reset ∧ t.inFlight = []) := by
  obtain ⟨op, a, b, c, into, va, vb, vc, -, -, -, -, rfl⟩ | ⟨n, v, w, -, -, rfl⟩ | ⟨v, is, target, w, -, -, rfl⟩ |
    ⟨hst, rfl⟩ | ⟨-, rfl⟩ := requesterMove_cases h
  case inl => exact .inr (.inl ⟨into, requestBits op va vb vc, rfl⟩)
  case inr.inr.inr.inl => exact .inr (.inr ⟨hst, rfl⟩)
  all_goals exact .inl rfl

/-- A requester's move replaces that requester alone, and leaves it the responses it holds. -/
theorem requesterMove_requesters {j : Nat} {r : Requester} {s t : State} (h : requesterMove j r s = some t) :
    ∃ r', t.requesters = s.requesters.set j r' ∧ r'.received = r.received := by
  obtain ⟨op, a, b, c, into, va, vb, vc, -, -, -, -, rfl⟩ | ⟨n, v, w, -, -, rfl⟩ | ⟨v, is, target, w, -, -, rfl⟩ |
    ⟨-, rfl⟩ | ⟨-, rfl⟩ := requesterMove_cases h
  all_goals exact ⟨_, rfl, rfl⟩

/-- Whichever requester moves, each holds the responses it held. -/
theorem requesterMove_received {j k : Nat} {r q : Requester} {s t : State} (h : requesterMove j r s = some t)
    (hr : s.requesters[j]? = some r) (hq : s.requesters[k]? = some q) :
    ∃ q', t.requesters[k]? = some q' ∧ q'.received = q.received := by
  obtain ⟨r', hreqs, hheld⟩ := requesterMove_requesters h
  rw [hreqs]
  by_cases hjk : j = k
  · subst hjk
    obtain ⟨hlt, -⟩ := List.getElem?_eq_some_iff.mp hr
    obtain rfl : r = q := Option.some.inj (hr.symm.trans hq)
    exact ⟨r', List.getElem?_set_self hlt, hheld⟩
  · exact ⟨q, (List.getElem?_set_ne hjk).trans hq, rfl⟩

/-- The requester of the request answered holds the response, behind those it held. -/
theorem deliver_received_own {p : Pending} {k : Nat} {q : Requester} {s : State} (hp : p.requester = some k)
    (hq : s.requesters[k]? = some q) :
    ∃ q', (deliver p s).requesters[k]? = some q' ∧ q'.received = q.received ++ [s.response] :=
  ⟨receive s.inFlight k p.into s.response q, by simp [deliver_some s hp, hq], rfl⟩

/-- A response changes nothing for a requester that did not issue its request. -/
theorem deliver_requesters_other {p : Pending} {k : Nat} (s : State) (hp : p.requester ≠ some k) :
    (deliver p s).requesters[k]? = s.requesters[k]? := by
  cases hj : p.requester with
  | none => rw [deliver_none s hj]
  | some j =>
    have hjk : j ≠ k := fun h => hp (h ▸ hj)
    rw [deliver_some s hj, List.getElem?_modify_ne _ _ hjk]

/-! ### The order of the responses -/

/-- The block's answer to the oldest request in flight, of requester `k`: the oldest request that `k` is owed is
answered, with the response it gets alone in any state (R49, R50). -/
theorem deliver_answers_oldest_owed {p : Pending} {rest : List Pending} {turns : List Turn} {k : Nat} {q : Requester}
    {s u : State} (hflight : s.inFlight = p :: rest)
    (hexec : exec (decode p.bits) { s with inFlight := rest, turns := turns } = .next u)
    (hp : p.requester = some k) (hq : s.requesters[k]? = some q) :
    ∃ q', (deliver p u).requesters[k]? = some q' ∧ owed s k = p.bits :: owed (deliver p u) k ∧
      q'.received = q.received ++ [u.response] ∧
      ∀ v w : State, exec (decode p.bits) v = .next w →
        ∀ f ∈ drives (decode p.bits), u.response.get f = w.response.get f := by
  obtain ⟨huflight, hureqs, -⟩ := exec_sameSystem hexec
  obtain ⟨q', hq', hheld⟩ := deliver_received_own hp (s := u) (by rwa [hureqs])
  refine ⟨q', hq', owed_of_oldest_own ?_ hp, hheld, fun _ _ hw => exec_get_eq hexec hw⟩
  rw [deliver_inFlight, huflight, hflight]

/-- The block's answer to the oldest request in flight, not of requester `k`: nothing changes for `k`. -/
theorem deliver_keeps_other {p : Pending} {rest : List Pending} {turns : List Turn} {k : Nat} {s u : State}
    (hflight : s.inFlight = p :: rest)
    (hexec : exec (decode p.bits) { s with inFlight := rest, turns := turns } = .next u) (hp : p.requester ≠ some k) :
    (deliver p u).requesters[k]? = s.requesters[k]? ∧ owed (deliver p u) k = owed s k := by
  obtain ⟨huflight, hureqs, -⟩ := exec_sameSystem hexec
  refine ⟨by rw [deliver_requesters_other u hp, hureqs], (owed_of_oldest_other ?_ hp).symm⟩
  rw [deliver_inFlight, huflight, hflight]

/-- Whichever requester moves, requester `k` is owed what it was, or one request more at the end, or, when the move is a
reset step, nothing any more. -/
theorem requesterMove_owed {j : Nat} {r : Requester} {s t : State} (h : requesterMove j r s = some t) (k : Nat) :
    owed t k = owed s k ∨ (∃ w, owed t k = owed s k ++ [w]) ∨ (r.program[r.pos]? = some .reset ∧ owed t k = []) := by
  rcases requesterMove_inFlight h with hflight | ⟨into, w, hflight⟩ | ⟨hst, hflight⟩
  · exact .inl (owed_congr hflight k)
  · have howed := owed_of_youngest hflight k
    by_cases hjk : j = k
    · exact .inr (.inl ⟨w, by simpa [hjk] using howed⟩)
    · exact .inl (by simpa [hjk] using howed)
  · exact .inr (.inr ⟨hst, owed_eq_nil hflight k⟩)

/-- Settles O9, by the cases of a step: nothing, an answer delivered, a requester's move, a reset from outside. A reset
step that a requester takes with no turn laid down cancels nothing, since nothing is in flight then. -/
theorem responsesArriveInIssueOrder : Obligations.ResponsesArriveInIssueOrder := by
  intro s t k q h hq
  rcases step_cases h with rfl | ⟨p, rest, u, hflight, hexec, rfl⟩ | ⟨j, r, hturn, hr, hmove⟩ | ⟨hturn, rfl⟩
  · exact ⟨q, hq, .inl ⟨rfl, rfl⟩⟩
  · by_cases hp : p.requester = some k
    · obtain ⟨q', hq', howed, hheld, halone⟩ := deliver_answers_oldest_owed hflight hexec hp hq
      exact ⟨q', hq', .inr (.inr (.inl ⟨p.bits, u.response, howed, hheld, halone⟩))⟩
    · obtain ⟨hreq, howed⟩ := deliver_keeps_other hflight hexec hp
      exact ⟨q, hreq.trans hq, .inl ⟨howed, rfl⟩⟩
  · obtain ⟨q', hq', hheld⟩ := requesterMove_received hmove hr hq
    refine ⟨q', hq', ?_⟩
    rcases requesterMove_owed hmove k with howed | ⟨w, howed⟩ | ⟨hst, howed⟩
    · exact .inl ⟨howed, hheld⟩
    · exact .inr (.inl ⟨w, howed, hheld⟩)
    · rcases hturn with hturn | ⟨-, hflight⟩
      · exact .inr (.inr (.inr ⟨.inr ⟨j, r, hturn, hr, hst⟩, howed, hheld⟩))
      · exact .inl ⟨howed.trans (owed_eq_nil hflight k).symm, hheld⟩
  · exact ⟨q, hq, .inr (.inr (.inr ⟨.inl hturn, owed_eq_nil rfl k, rfl⟩))⟩

end Sys2Proof.Machine

/-! PROOFS. The family of 30_encoding: the request and response formats (R64, R65), the decoder and the encoder (R66, R69),
the assembler (R71), and the classes of a pattern (R61; 40_codec R104, R105). -/

namespace Sys2Proof

/-! ### The decoder and the encoder -/

/-- Decoding undoes encoding, whatever the operation. -/
@[simp] theorem decode_encode (i : Instr) : decode (encode i) = i := by
  cases i <;> exact decode_requestBits _ _ _ _

/-- The encoding carries the operation number of R66. -/
@[simp] theorem opField_encode (i : Instr) : opField (encode i) = i.op := by
  cases i <;> exact opField_requestBits _ _ _ _

/-- Encoding what a request decodes to clears the fields the operation does not read (R67, R71): by the sixteen operation
numbers, each of which selects its operation. -/
theorem encode_decode_requestBits (op : BitVec 4) (a b c : Word) :
    encode (decode (requestBits op a b c)) =
      requestBits op a (if Machine.readsB op = true then b else 0#32) (if Machine.readsC op = true then c else 0#32) := by
  rw [decode_requestBits]
  obtain ⟨n⟩ := op
  fin_cases n <;> rfl

/-- Settles O3: decoding undoes encoding for every operation, and encoding undoes decoding up to the unread fields. -/
theorem decodeEncodeRoundTrip : Obligations.DecodeEncodeRoundTrip :=
  ⟨fun i _ => ⟨decode_encode i, opField_encode i⟩, encode_decode_requestBits⟩

/-! ### Numbers as requests -/

/-- The number `op << 96 | c << 64 | b << 32 | a` is the request of these fields (R64). -/
theorem ofNat_fields (op : BitVec 4) (a b c : Word) :
    BitVec.ofNat 100 (op.toNat * 2 ^ 96 + c.toNat * 2 ^ 64 + b.toNat * 2 ^ 32 + a.toNat) = requestBits op a b c := by
  rw [← requestBits_toNat, BitVec.ofNat_toNat, BitVec.setWidth_eq]

/-- Settles O1: the number of R64 is the request of its four fields, and the decoder goes by the bits of `op`. -/
theorem requestBitsSelectOperation : Obligations.RequestBitsSelectOperation := by
  intro a b c
  have h (op : BitVec 4) := (congrArg decode (ofNat_fields op a b c)).trans (decode_requestBits op a b c)
  exact ⟨h 0x0#4, h 0x1#4, h 0x2#4, h 0x3#4, h 0x4#4, h 0x5#4, h 0x6#4, h 0x7#4,
    h 0x8#4, h 0x9#4, h 0xA#4, h 0xB#4, h 0xC#4, h 0xD#4, h 0xE#4, h 0xF#4⟩

/-- A number below 2^100 is the request of its bits, in a table of at least 100 bits. -/
theorem decodeTableWord_of_lt {nbits w : Nat} (hbits : 100 ≤ nbits) (hw : w < 2 ^ 100) :
    decodeTableWord nbits w = some (decode (BitVec.ofNat 100 w)) := by
  have hmod : w % 2 ^ nbits = w := Nat.mod_eq_of_lt (hw.trans_le (Nat.pow_le_pow_right (by omega) hbits))
  simp only [decodeTableWord, tableNumber, hmod, decodeNat, if_pos hw, Except.toOption]

/-- No operation is ill-formed (R62, R69). -/
@[simp] theorem Instr.wellFormed_eq_true (i : Instr) : i.wellFormed = true := by cases i <;> rfl

/-- Settles O4: every number below 2^100 decodes, no operation is ill-formed, and every operation completes. -/
theorem everyRequestIsValid : Obligations.EveryRequestIsValid := fun _ hw =>
  ⟨_, decodeTableWord_of_lt (by omega) hw, Instr.wellFormed_eq_true _, Machine.exec_completes _⟩

/-! ### The assembler -/

/-- A well-formed line puts its operands in the fields, 0 where it has none. -/
theorem assemble_of_wellFormed {l : AsmLine} (h : l.wellFormed = true) :
    assemble l = .ok (requestBits l.op (BitVec.ofInt 32 (l.operands.getD 0 0)) (BitVec.ofInt 32 (l.operands.getD 1 0))
      (BitVec.ofInt 32 (l.operands.getD 2 0))) := by
  simp only [AsmLine.wellFormed, Bool.and_eq_true, beq_iff_eq] at h
  obtain ⟨hcount, hrange⟩ := h
  rw [assemble, if_neg (not_not.mpr hcount), if_pos hrange]

/-- An ill-formed line has the wrong number of operands, or one out of range, and stands for no request. -/
theorem assemble_of_not_wellFormed {l : AsmLine} (h : l.wellFormed = false) : ∃ e, assemble l = .error e := by
  simp only [AsmLine.wellFormed, Bool.and_eq_false_iff, beq_eq_false_iff_ne] at h
  by_cases hcount : l.operands.length = asmArity l.op
  · have hrange : ¬ l.operands.all asmOperandInRange = true := by simp [h.resolve_left (not_not.mpr hcount)]
    exact ⟨.operandRange, by rw [assemble, if_neg (not_not.mpr hcount), if_neg hrange]⟩
  · exact ⟨.operandCount, by rw [assemble, if_pos hcount]⟩

/-- A line with as many operands as its operation takes, each in range, is well-formed. -/
theorem AsmLine.wellFormed_of_operands {l : AsmLine} (hcount : asmArity l.op = l.operands.length)
    (hrange : ∀ v ∈ l.operands, -2 ^ 31 ≤ v ∧ v < 2 ^ 32) : l.wellFormed = true := by
  simpa [AsmLine.wellFormed, asmOperandInRange, hcount] using hrange

/-! ### The response vector -/

/-- The fields of the response vector are at the bits R65 gives. -/
theorem extract_toBits (x : Machine.Response) :
    x.toBits.extractLsb' 0 32 = x.r ∧ x.toBits.extractLsb' 32 1 = x.t ∧ x.toBits.extractLsb' 33 1 = x.us ∧
      x.toBits.extractLsb' 34 8 = x.ue ∧ x.toBits.extractLsb' 42 23 = x.uf := by
  unfold Machine.Response.toBits
  refine ⟨?_, ?_, ?_, ?_, BitVec.extractLsb'_append_eq_left⟩
  · iterate 3 rw [BitVec.extractLsb'_append_eq_of_add_le (by decide)]
    exact BitVec.extractLsb'_append_eq_right
  · iterate 3 rw [BitVec.extractLsb'_append_eq_of_add_le (by decide)]
    exact BitVec.extractLsb'_append_eq_left
  · iterate 2 rw [BitVec.extractLsb'_append_eq_of_add_le (by decide)]
    exact BitVec.extractLsb'_append_eq_left
  · rw [BitVec.extractLsb'_append_eq_of_add_le (by decide)]
    exact BitVec.extractLsb'_append_eq_left

/-- Settles O2: the printed words by evaluation, the response vector field by field, and the assembler by whether the line
is well-formed. -/
theorem formatsAndWrittenOutRequests : Obligations.FormatsAndWrittenOutRequests := by
  refine ⟨by decide, extract_toBits, fun x y z hx hx' hy hy' hz hz' => ⟨?_, fun op hop => ?_, fun op hop => ?_⟩,
    fun _ => assemble_of_not_wellFormed⟩
  · exact assemble_of_wellFormed (AsmLine.wellFormed_of_operands rfl (by simp; omega))
  · have harity : asmArity op = 1 := by revert op; decide
    exact assemble_of_wellFormed (AsmLine.wellFormed_of_operands harity (by simp; omega))
  · have harity : asmArity op = 2 := by revert op; decide
    exact assemble_of_wellFormed (AsmLine.wellFormed_of_operands harity (by simp; omega))

end Sys2Proof

namespace Sys2Proof.Machine

/-! ### The classes of a pattern -/

theorem expNat_eq_zero_iff (x : Word) : expNat x = 0 ↔ x.extractLsb' 23 8 = 0#8 := (BitVec.toNat_eq (y := 0#8)).symm

theorem expNat_eq_255_iff (x : Word) : expNat x = 255 ↔ x.extractLsb' 23 8 = 0xFF#8 := (BitVec.toNat_eq (y := 0xFF#8)).symm

theorem fracNat_eq_zero_iff (x : Word) : fracNat x = 0 ↔ x.extractLsb' 0 23 = 0#23 := (BitVec.toNat_eq (y := 0#23)).symm

/-- The fraction is its quiet bit and the 22 bits below it. -/
theorem fracNat_eq_quietBit_add (x : Word) :
    fracNat x = (x.getLsbD 22).toNat * 2 ^ 22 + (x.extractLsb' 0 22).toNat := by
  rw [fracNat_eq, BitVec.getLsbD, Nat.toNat_testBit, BitVec.extractLsb'_toNat, Nat.shiftRight_zero]
  omega

theorem fracNat_ne_zero_of_quietBit {x : Word} (h : x.getLsbD 22 = true) : fracNat x ≠ 0 := by
  rw [fracNat_eq_quietBit_add, h, Bool.toNat_true]
  omega

/-- With the quiet bit clear, the fraction is 0 exactly when the bits below are. -/
theorem fracNat_eq_zero_iff_of_not_quietBit {x : Word} (h : x.getLsbD 22 = false) :
    fracNat x = 0 ↔ x.extractLsb' 0 22 = 0#22 := by
  rw [fracNat_eq_quietBit_add, h, Bool.toNat_false, Nat.zero_mul, Nat.zero_add]
  exact (BitVec.toNat_eq (y := 0#22)).symm

theorem isSignaling_iff (x : Word) :
    isSignaling x = true ↔ expNat x = 255 ∧ x.getLsbD 22 = false ∧ x.extractLsb' 0 22 ≠ 0#22 := by
  simp [isSignaling, and_assoc]

/-- A pattern is finite when its exponent is not all ones. -/
theorem isFinite_iff_ne (x : Word) : isFinite x = true ↔ expNat x ≠ 255 := by simp [isFinite]

/-- The finite classes (40_codec R105). -/
theorem isFinite_iff_zero_subnormal_or_normal (x : Word) :
    isFinite x = true ↔ isZero x = true ∨ isSubnormal x = true ∨ isNormal x = true := by
  rw [isFinite_iff, isZero_iff, isSubnormal_iff, isNormal_iff]
  omega

/-- The class of a pattern, by the predicates of 40_codec R104 and R105; a NaN is quiet when its quiet bit is set. -/
theorem classify_iff (x : Word) :
    (classify x = .zero ↔ isZero x = true) ∧ (classify x = .subnormal ↔ isSubnormal x = true) ∧
      (classify x = .normal ↔ isNormal x = true) ∧ (classify x = .infinity ↔ isInf x = true) ∧
      (classify x = .quietNaN ↔ expNat x = 255 ∧ x.getLsbD 22 = true) ∧
      (classify x = .signalingNaN ↔ isSignaling x = true) := by
  have hexp := expNat_lt x
  have hsig : isSignaling x = true ↔ expNat x = 255 ∧ x.getLsbD 22 = false ∧ fracNat x ≠ 0 := by
    rw [isSignaling_iff]
    exact and_congr_right fun _ => and_congr_right fun hq => not_congr (fracNat_eq_zero_iff_of_not_quietBit hq).symm
  rw [isZero_iff, isSubnormal_iff, isNormal_iff, isInf_iff, hsig]
  unfold classify
  split_ifs with he hf hlt hf hq
  · simp [he, hf]
  · simp [he, hf]
  · simp [he, hlt, hlt.ne, Nat.pos_of_ne_zero he]
  · have hq : x.getLsbD 22 = false := Bool.eq_false_iff.mpr fun hq => fracNat_ne_zero_of_quietBit hq hf
    simpa [(by omega : expNat x = 255), hf] using hq
  · simpa [(by omega : expNat x = 255), hf] using hq
  · simpa [(by omega : expNat x = 255), hf] using hq

/-- Settles O19: the class function and the predicates as tests of the fields. -/
theorem everyPatternHasOneClass : Obligations.EveryPatternHasOneClass := by
  intro x e f
  have hquiet : f.getLsbD 22 = x.getLsbD 22 := by simp [f]
  have hlow : f.extractLsb' 0 22 = x.extractLsb' 0 22 := by ext; simp [f]
  have hzero := (isZero_iff x).trans (and_congr (expNat_eq_zero_iff x) (fracNat_eq_zero_iff x))
  have hsub := (isSubnormal_iff x).trans (and_congr (expNat_eq_zero_iff x) (fracNat_eq_zero_iff x).not)
  have hinf := (isInf_iff x).trans (and_congr (expNat_eq_255_iff x) (fracNat_eq_zero_iff x))
  have hnan := (isNaN_iff x).trans (and_congr (expNat_eq_255_iff x) (fracNat_eq_zero_iff x).not)
  have hsig := (isSignaling_iff x).trans (and_congr_left' (expNat_eq_255_iff x))
  obtain ⟨czero, csub, cnormal, cinf, cquiet, csig⟩ := classify_iff x
  rw [hquiet, hlow]
  exact ⟨czero.trans hzero, csub.trans hsub, cnormal.trans (isNormal_iff x), cinf.trans hinf,
    cquiet.trans (and_congr_left' (expNat_eq_255_iff x)), csig.trans hsig, hzero, hsub, isNormal_iff x, hinf, hnan,
    (isFinite_iff_ne x).trans (expNat_eq_255_iff x).not, hsig, isFinite_iff_zero_subnormal_or_normal x⟩

end Sys2Proof.Machine

/-! PROOFS. The family of 40_codec: PACK (R101), UNPACK (R102), IS_NAN (R103), and PACK of UNPACK's fields (R109). -/

namespace Sys2Proof.Machine

/-! ### Answers of the driving operations -/

/-- An operation that drives `r` answers the word it drives. -/
theorem answersR_of_exec {i : Instr} {s : State} {w : Word} (h : exec i s = driveR w s) : AnswersR i s w :=
  ⟨_, h.trans (driveR_eq w s), rfl, rfl, rfl, rfl⟩

/-- An operation that drives `t` answers whatever the value it drives decides. -/
theorem answersT_of_exec {i : Instr} {s : State} {v : Bool} {P : Prop} (h : exec i s = driveT v s)
    (hP : v = true ↔ P) : AnswersT i s P :=
  have hbit : BitVec.ofBool v = 1#1 ↔ v = true := by cases v <;> decide
  ⟨_, h.trans (driveT_eq v s), hbit.trans hP, rfl, rfl, rfl⟩

/-- An operation that drives the three fields answers the fields it drives. -/
theorem answersFields_of_exec {i : Instr} {s : State} {us : BitVec 1} {ue : BitVec 8} {uf : BitVec 23}
    (h : exec i s = driveFields us ue uf s) : AnswersFields i s us ue uf :=
  ⟨_, h.trans (driveFields_eq us ue uf s), rfl, rfl, rfl, rfl, rfl, rfl⟩

theorem answersR_pack (a b c : Word) (s : State) : AnswersR (.pack a b c) s (packMasked a b c) :=
  answersR_of_exec rfl

theorem answersFields_unpack (a : Word) (s : State) : AnswersFields (.unpack a) s (signOf a) (expOf a) (fracOf a) :=
  answersFields_of_exec rfl

/-! ### The masked fields of PACK -/

/-- Masking to the low `n` bits is taking the field of those bits. -/
theorem and_lowMask_eq_setWidth {n : Nat} (hn : n ≤ 32) (x : Word) :
    x &&& BitVec.ofNat 32 (2 ^ n - 1) = (x.extractLsb' 0 n).setWidth 32 := by
  have hpow : 2 ^ n ≤ 2 ^ 32 := Nat.pow_le_pow_right (by omega) hn
  have hpos := Nat.two_pow_pos n
  have hlow : x.toNat % 2 ^ n < 2 ^ 32 := (Nat.mod_lt _ hpos).trans_le hpow
  apply BitVec.eq_of_toNat_eq
  rw [BitVec.toNat_and, BitVec.toNat_ofNat, Nat.mod_eq_of_lt (by omega), Nat.and_two_pow_sub_one_eq_mod,
    BitVec.toNat_setWidth, BitVec.extractLsb'_toNat, Nat.shiftRight_zero, Nat.mod_eq_of_lt hlow]

/-- PACK is the pattern of the fields in the low bits of its operands (40_codec R106, R107). -/
theorem packMasked_eq_pattern (a b c : Word) :
    packMasked a b c = pattern (a.extractLsb' 0 1) (b.extractLsb' 0 8).toNat (c.extractLsb' 0 23).toNat := by
  have hs : a &&& 1#32 = _ := and_lowMask_eq_setWidth (n := 1) (by omega) a
  have hE : b &&& 0xFF#32 = _ := and_lowMask_eq_setWidth (n := 8) (by omega) b
  have hF : c &&& 0x7FFFFF#32 = _ := and_lowMask_eq_setWidth (n := 23) (by omega) c
  rw [packMasked, pattern, signedZero, hs, hE, hF, BitVec.ofNat_toNat, BitVec.ofNat_toNat]

/-- A field zero-extended to a word, and taken from its low bits again, is the field. -/
theorem extractLsb'_setWidth_self {n : Nat} (hn : n ≤ 32) (f : BitVec n) : (f.setWidth 32).extractLsb' 0 n = f := by
  rw [BitVec.extractLsb'_setWidth_of_le (by omega), BitVec.extractLsb'_eq_self]

/-- PACK undoes UNPACK: the fields of a pattern, zero-extended to words, give the pattern back. -/
theorem packMasked_fields (x : Word) :
    packMasked ((signOf x).setWidth 32) ((expOf x).setWidth 32) ((fracOf x).setWidth 32) = x := by
  rw [packMasked_eq_pattern, extractLsb'_setWidth_self (by omega), extractLsb'_setWidth_self (by omega),
    extractLsb'_setWidth_self (by omega)]
  exact pattern_fields x

/-! ### The statements -/

/-- Settles O17: UNPACK answers the fields of the pattern, and PACK of a pattern's fields is the pattern. -/
theorem packOfUnpackIsIdentity : Obligations.PackOfUnpackIsIdentity := by
  intro x s
  obtain ⟨t, hexec, hus, hue, huf, hsame⟩ := answersFields_unpack x s
  have hpack : packMasked (t.response.get .us) (t.response.get .ue) (t.response.get .uf) = x := by
    simp only [Response.get, hus, hue, huf]
    exact packMasked_fields x
  have hanswer := answersR_pack (t.response.get .us) (t.response.get .ue) (t.response.get .uf) t
  rw [hpack] at hanswer
  exact ⟨t, hexec, hsame, hanswer⟩

/-- Settles O15: the response is the pattern of the masked fields, whose fields are read back from it. -/
theorem packComposesMaskedFields : Obligations.PackComposesMaskedFields := by
  intro a b c s
  have hE := (b.extractLsb' 0 8).isLt
  have hF := (c.extractLsb' 0 23).isLt
  refine ⟨decode_requestBits 0x0#4 a b c, packMasked a b c, answersR_pack a b c s, ?_⟩
  rw [packMasked_eq_pattern]
  exact ⟨signOf_pattern _ hE hF, BitVec.eq_of_toNat_eq (expNat_pattern _ hE hF),
    BitVec.eq_of_toNat_eq (fracNat_pattern _ hE hF)⟩

/-- Settles O16: UNPACK drives the three fields of its operand. -/
theorem unpackGivesTheFields : Obligations.UnpackGivesTheFields := fun a b c s =>
  ⟨decode_requestBits 0x1#4 a b c, answersFields_unpack a s⟩

/-- Settles O18: IS_NAN drives the NaN test, which is a test of the exponent and fraction fields. -/
theorem isNanTestsTheFields : Obligations.IsNanTestsTheFields := fun a b c _ =>
  have hnan := (isNaN_iff a).trans (and_congr (expNat_eq_255_iff a) (fracNat_eq_zero_iff a).not)
  ⟨decode_requestBits 0xD#4 a b c, answersT_of_exec rfl hnan⟩

end Sys2Proof.Machine

/-! PROOFS. The family of 41_rounding_normalize_nan, the NaNs: the quiet bit (R140), the choice of `propagate_nan` (R141,
R142), and which results of arithmetic are NaNs (R143). -/

namespace Sys2Proof.Machine

/-! ### The quiet bit -/

@[simp] theorem expNat_quiet (x : Word) : expNat (quiet x) = expNat x := by
  simp [expNat, expOf, quiet, BitVec.extractLsb'_or]

theorem getLsbD_quiet (x : Word) : (quiet x).getLsbD 22 = true := by simp [quiet]

@[simp] theorem lowBits_quiet (x : Word) : (quiet x).extractLsb' 0 22 = x.extractLsb' 0 22 := by
  simp [quiet, BitVec.extractLsb'_or]

/-- The magnitude of a quieted pattern: the exponent, the quiet bit, and the 22 bits below it. -/
theorem mag_quiet (x : Word) : mag (quiet x) = expNat x * 2 ^ 23 + 2 ^ 22 + (x.extractLsb' 0 22).toNat := by
  rw [mag_eq, fracNat_eq_quietBit_add, expNat_quiet, getLsbD_quiet, lowBits_quiet, Bool.toNat_true]
  omega

/-- The quiet NaNs are the patterns of magnitude 0x7FC00000 and more. -/
theorem classify_eq_quietNaN_iff (x : Word) : classify x = .quietNaN ↔ 0x7FC00000 ≤ mag x := by
  have hexp := expNat_lt x
  have hfrac := fracNat_eq_quietBit_add x
  have hlow := (x.extractLsb' 0 22).isLt
  obtain ⟨-, -, -, -, hquiet, -⟩ := classify_iff x
  rw [hquiet, mag_eq]
  cases h : x.getLsbD 22 <;> rw [h] at hfrac <;> simp only [Bool.toNat_true, Bool.toNat_false] at hfrac
  · simp only [Bool.false_eq_true, and_false, false_iff]
    omega
  · simp only [and_true]
    omega

theorem mag_quiet_ge_of_exp {x : Word} (h : expNat x = 255) : 0x7FC00000 ≤ mag (quiet x) := by
  rw [mag_quiet, h]
  omega

theorem mag_quiet_of_isNaN {x : Word} (h : isNaN x = true) : 0x7FC00000 ≤ mag (quiet x) :=
  mag_quiet_ge_of_exp ((isNaN_iff x).mp h).1

theorem mag_quiet_of_isFinite {x : Word} (h : isFinite x = true) : mag (quiet x) ≤ 0x7F7FFFFF := by
  have hexp := (isFinite_iff x).mp h
  have hlow := (x.extractLsb' 0 22).isLt
  rw [mag_quiet]
  omega

theorem mag_quiet_of_isInf {x : Word} (h : isInf x = true) : mag (quiet x) = 0x7FC00000 := by
  obtain ⟨hexp, hfrac⟩ := (isInf_iff x).mp h
  have hsplit := fracNat_eq_quietBit_add x
  rw [mag_quiet, hexp]
  omega

/-- Equal magnitude and sign are equal patterns. -/
theorem eq_of_mag {x y : Word} (hs : signOf x = signOf y) (hm : mag x = mag y) : x = y := by
  have hx := fracNat_lt x
  have hy := fracNat_lt y
  rw [mag_eq, mag_eq] at hm
  exact eq_of_fields hs (by omega) (by omega)

/-- The two NaNs whose magnitude a quieted infinity has. -/
theorem quiet_eq_least_iff (x : Word) :
    quiet x = 0x7FC00000#32 ∨ quiet x = 0xFFC00000#32 ↔ mag (quiet x) = 0x7FC00000 := by
  constructor
  · rintro (h | h) <;> rw [h] <;> decide
  · intro h
    rcases signOf_cases (quiet x) with hs | hs
    · exact .inl (eq_of_mag (hs.trans (by decide)) (h.trans (by decide)))
    · exact .inr (eq_of_mag (hs.trans (by decide)) (h.trans (by decide)))

theorem isNaN_of_isSignaling {x : Word} (h : isSignaling x = true) : isNaN x = true := by
  obtain ⟨hexp, hquiet, hlow⟩ := (isSignaling_iff x).mp h
  exact (isNaN_iff x).mpr ⟨hexp, fun hf => hlow ((fracNat_eq_zero_iff_of_not_quietBit hquiet).mp hf)⟩

theorem not_isSignaling_of_not_isNaN {x : Word} (h : isNaN x = false) : isSignaling x = false :=
  Bool.eq_false_iff.mpr fun hs => Bool.eq_false_iff.mp h (isNaN_of_isSignaling hs)

/-- A quieted signaling NaN lies above the least quiet magnitude: a bit below the quiet bit is set. -/
theorem mag_quiet_of_isSignaling {x : Word} (h : isSignaling x = true) : 0x7FC00000 < mag (quiet x) := by
  obtain ⟨hexp, -, hlow⟩ := (isSignaling_iff x).mp h
  have hpos : (x.extractLsb' 0 22).toNat ≠ 0 := fun h0 => hlow (BitVec.eq_of_toNat_eq h0)
  rw [mag_quiet, hexp]
  omega

/-! ### The choice of propagate_nan -/

theorem nanChoice_of_signaling_left {a b : Word} (ha : isSignaling a = true) (hb : isSignaling b = false) :
    nanChoice a b = quiet a := by simp [nanChoice, ha, hb]

theorem nanChoice_of_signaling_right {a b : Word} (ha : isSignaling a = false) (hb : isSignaling b = true) :
    nanChoice a b = quiet b := by simp [nanChoice, ha, hb]

/-- Unless exactly one operand is signaling, the magnitudes decide. -/
theorem nanChoice_of_signaling_eq {a b : Word} (h : isSignaling a = isSignaling b) :
    nanChoice a b = if mag (quiet b) < mag (quiet a) then quiet a else if mag (quiet a) < mag (quiet b) then quiet b
      else if (quiet a).toNat ≤ (quiet b).toNat then quiet a else quiet b := by
  simp [nanChoice, h]

theorem nanChoice_of_mag_gt {a b : Word} (h : isSignaling a = isSignaling b) (hm : mag (quiet b) < mag (quiet a)) :
    nanChoice a b = quiet a := by rw [nanChoice_of_signaling_eq h, if_pos hm]

theorem nanChoice_of_mag_lt {a b : Word} (h : isSignaling a = isSignaling b) (hm : mag (quiet a) < mag (quiet b)) :
    nanChoice a b = quiet b := by rw [nanChoice_of_signaling_eq h, if_neg (by omega), if_pos hm]

theorem nanChoice_of_mag_eq {a b : Word} (h : isSignaling a = isSignaling b) (hm : mag (quiet a) = mag (quiet b)) :
    nanChoice a b = if (quiet a).toNat ≤ (quiet b).toNat then quiet a else quiet b := by
  rw [nanChoice_of_signaling_eq h, if_neg (by omega), if_neg (by omega)]

theorem propagateNan_of_nan {a b : Word} (h : isNaN a = true ∨ isNaN b = true) :
    propagateNan a b = .ok (nanChoice a b) := by
  have hor : (isNaN a || isNaN b) = true := by simpa using h
  rw [propagateNan, if_pos hor]

/-- Which operand the choice quiets, and why: the only signaling one, or one of no smaller magnitude. -/
theorem nanChoice_cases (a b : Word) :
    (nanChoice a b = quiet a ∧ (isSignaling a = true ∨ mag (quiet b) ≤ mag (quiet a))) ∨
      (nanChoice a b = quiet b ∧ (isSignaling b = true ∨ mag (quiet a) ≤ mag (quiet b))) := by
  unfold nanChoice
  split_ifs with ha hb hgt hlt hle
  · exact .inl ⟨rfl, .inl (Bool.and_elim_left ha)⟩
  · exact .inr ⟨rfl, .inl (Bool.and_elim_left hb)⟩
  · exact .inl ⟨rfl, .inr hgt.le⟩
  · exact .inr ⟨rfl, .inr hlt.le⟩
  · exact .inl ⟨rfl, .inr (by omega)⟩
  · exact .inr ⟨rfl, .inr (by omega)⟩

/-- With a NaN operand the choice is a quiet NaN, even where it quiets the other operand: that one has no smaller
magnitude then. -/
theorem classify_nanChoice {a b : Word} (h : isNaN a = true ∨ isNaN b = true) :
    classify (nanChoice a b) = .quietNaN := by
  have hmax : 0x7FC00000 ≤ max (mag (quiet a)) (mag (quiet b)) :=
    le_max_iff.mpr (h.imp mag_quiet_of_isNaN mag_quiet_of_isNaN)
  rw [classify_eq_quietNaN_iff]
  obtain ⟨heq, hs | hm⟩ | ⟨heq, hs | hm⟩ := nanChoice_cases a b
  · exact heq ▸ (mag_quiet_of_isSignaling hs).le
  · rwa [heq, ← max_eq_left hm]
  · exact heq ▸ (mag_quiet_of_isSignaling hs).le
  · rwa [heq, ← max_eq_right hm]

theorem nanChoice_comm (a b : Word) : nanChoice a b = nanChoice b a := by
  by_cases hsig : isSignaling a = isSignaling b
  · rcases lt_trichotomy (mag (quiet a)) (mag (quiet b)) with hm | hm | hm
    · rw [nanChoice_of_mag_lt hsig hm, nanChoice_of_mag_gt hsig.symm hm]
    · rw [nanChoice_of_mag_eq hsig hm, nanChoice_of_mag_eq hsig.symm hm.symm]
      split_ifs with hab hba hba
      · exact BitVec.eq_of_toNat_eq (by omega)
      · rfl
      · rfl
      · omega
    · rw [nanChoice_of_mag_gt hsig hm, nanChoice_of_mag_lt hsig.symm hm]
  · cases ha : isSignaling a <;> cases hb : isSignaling b
    · simp [ha, hb] at hsig
    · rw [nanChoice_of_signaling_right ha hb, nanChoice_of_signaling_left hb ha]
    · rw [nanChoice_of_signaling_left ha hb, nanChoice_of_signaling_right hb ha]
    · simp [ha, hb] at hsig

/-- A NaN of greater quieted magnitude than a non-NaN wins, signaling or not. -/
theorem nanChoice_of_not_nan_of_mag_gt {a b : Word} (hb : isNaN b = false) (hm : mag (quiet b) < mag (quiet a)) :
    nanChoice a b = quiet a := by
  have hbs := not_isSignaling_of_not_isNaN hb
  cases ha : isSignaling a
  · exact nanChoice_of_mag_gt (ha.trans hbs.symm) hm
  · exact nanChoice_of_signaling_left ha hbs

/-- Settles O20: the branches of R141 are the branches of the choice. -/
theorem propagateNanChoosesByRule : Obligations.PropagateNanChoosesByRule := by
  intro a b hnan
  dsimp only
  rw [propagateNan_of_nan hnan]
  exact ⟨fun ha hb => congrArg _ (nanChoice_of_signaling_left ha hb),
    fun hb ha => congrArg _ (nanChoice_of_signaling_right ha hb),
    fun h hm => congrArg _ (nanChoice_of_mag_gt h hm), fun h hm => congrArg _ (nanChoice_of_mag_lt h hm),
    fun h hm => congrArg _ (nanChoice_of_mag_eq h hm)⟩

/-- Settles O21: the magnitudes of quieted patterns decide a NaN beside a non-NaN, which ties only with an infinity. -/
theorem propagatedNanIsQuietAndSymmetric : Obligations.PropagatedNanIsQuietAndSymmetric := by
  intro a b hnan
  rw [propagateNan_of_nan hnan, propagateNan_of_nan hnan.symm]
  refine ⟨⟨_, rfl, classify_nanChoice hnan⟩, congrArg _ (nanChoice_comm a b),
    fun ha hb => congrArg _ (nanChoice_of_signaling_left ha hb), fun ha hb => ⟨fun ⟨hleast, hinf⟩ => ?_, fun htie => ?_⟩,
    fun x => ⟨mag_quiet_of_isNaN, mag_quiet_of_isFinite, fun hinf => ⟨mag_quiet_of_isInf hinf, ?_⟩⟩⟩
  · have hm : mag (quiet a) = 0x7FC00000 := (quiet_eq_least_iff a).mp hleast
    have has : isSignaling a = false :=
      Bool.eq_false_iff.mpr fun hs => (mag_quiet_of_isSignaling hs).ne' hm
    have hbs := not_isSignaling_of_not_isNaN hb
    exact congrArg _ (nanChoice_of_mag_eq (has.trans hbs.symm) (hm.trans (mag_quiet_of_isInf hinf).symm))
  · have hma := mag_quiet_of_isNaN ha
    refine congrArg _ (nanChoice_of_not_nan_of_mag_gt hb ?_)
    rcases finite_inf_or_nan b with hfin | hinf | hbn
    · exact (mag_quiet_of_isFinite hfin).trans_lt (by omega)
    · have hne : mag (quiet a) ≠ 0x7FC00000 := fun hm => htie ⟨(quiet_eq_least_iff a).mpr hm, hinf⟩
      rw [mag_quiet_of_isInf hinf]
      omega
    · simp [hb] at hbn
  · exact (classify_eq_quietNaN_iff _).mpr (mag_quiet_of_isInf hinf).ge

end Sys2Proof.Machine

/-! PROOFS. The family of 41_rounding_normalize_nan, the shared primitives: leading zeros (R120), shift and jam (R121), and
the normalizer of subnormals (R122). -/

namespace Sys2Proof.Machine

/-! ### Leading zeros -/

/-- The leading 1 of a number below 2^32 stands `clz32` places below bit 31. -/
theorem clz32_add_log2 {x : Nat} (h0 : 0 < x) (hx : x < 2 ^ 32) : clz32 x + Nat.log2 x = 31 := by
  have hlog : Nat.log2 x < 32 := (Nat.log2_lt h0.ne').mpr hx
  rw [clz32, if_neg h0.ne']
  omega

/-- Shifting out the leading zeros brings the leading 1 to bit 31. -/
theorem mul_two_pow_clz32 {x : Nat} (h0 : 0 < x) (hx : x < 2 ^ 32) :
    2 ^ 31 ≤ x * 2 ^ clz32 x ∧ x * 2 ^ clz32 x < 2 ^ 32 := by
  obtain ⟨hlow, hup⟩ := log2_spec h0.ne'
  have hclz := clz32_add_log2 h0 hx
  constructor
  · calc 2 ^ 31 = 2 ^ Nat.log2 x * 2 ^ clz32 x := by rw [← pow_add, Nat.add_comm, hclz]
      _ ≤ x * 2 ^ clz32 x := Nat.mul_le_mul_right _ hlow
  · calc x * 2 ^ clz32 x < 2 ^ (Nat.log2 x + 1) * 2 ^ clz32 x := Nat.mul_lt_mul_of_pos_right hup (Nat.two_pow_pos _)
      _ = 2 ^ 32 := by rw [← pow_add]; congr 1; omega

/-- A number of at most `31 - k` bits has more than `k` leading zeros. -/
theorem lt_clz32 {x k : Nat} (h0 : 0 < x) (hk : k ≤ 31) (hx : x < 2 ^ (31 - k)) : k < clz32 x := by
  have hx32 : x < 2 ^ 32 := hx.trans_le (Nat.pow_le_pow_right (by omega) (by omega))
  have hlog : Nat.log2 x < 31 - k := (Nat.log2_lt h0.ne').mpr hx
  have hclz := clz32_add_log2 h0 hx32
  omega

/-- Shifting out all but `k` of the leading zeros brings the leading 1 to bit `31 - k`. -/
theorem mul_two_pow_clz32_sub {x k : Nat} (h0 : 0 < x) (hx : x < 2 ^ 32) (hk : k ≤ clz32 x) :
    2 ^ 31 ≤ x * 2 ^ (clz32 x - k) * 2 ^ k ∧ x * 2 ^ (clz32 x - k) * 2 ^ k < 2 ^ 32 := by
  rw [Nat.mul_assoc, ← pow_add, Nat.sub_add_cancel hk]
  exact mul_two_pow_clz32 h0 hx

/-- Settles O25: a fraction of 23 bits has at least 9 leading zeros, of which the shift leaves 8. -/
theorem normSubnormalKeepsTheValue : Obligations.NormSubnormalKeepsTheValue := by
  intro f h0 hf
  have hclz : 8 < clz32 f := lt_clz32 h0 (by omega) hf
  have hclz31 := clz32_add_log2 h0 (by omega)
  obtain ⟨hlow, hup⟩ := mul_two_pow_clz32_sub (k := 8) h0 (by omega) hclz.le
  refine ⟨clz32 f - 8, rfl, by omega, by omega, if_pos ⟨h0, hf⟩, by omega, by omega, ?_⟩
  rw [Nat.cast_mul, Nat.cast_pow, Nat.cast_ofNat, mul_assoc, ← zpow_natCast, ← zpow_add₀ two_ne_zero]
  congr 2
  omega

/-! ### Shift and jam -/

/-- Some bit below `n` is 1 exactly when the remainder by `2^n` is not 0. -/
theorem mod_two_pow_ne_zero_iff (x n : Nat) : x % 2 ^ n ≠ 0 ↔ ∃ j < n, x.testBit j = true := by
  constructor
  · intro h
    obtain ⟨j, hj⟩ := Nat.exists_testBit_of_ne_zero h
    rw [Nat.testBit_mod_two_pow, Bool.and_eq_true, decide_eq_true_eq] at hj
    exact ⟨j, hj⟩
  · rintro ⟨j, hj, hbit⟩ h
    have hmod := Nat.testBit_mod_two_pow x n j
    simp [h, hj, hbit] at hmod

/-- The bits of a quotient by `2^n` with its sticky bit. -/
theorem testBit_stickyQuotient (x n j : Nat) : (stickyQuotient x (2 ^ n)).testBit j =
    (x.testBit (n + j) || (decide (j = 0) && decide (x % 2 ^ n ≠ 0))) := by
  rw [stickyQuotient, Nat.testBit_or, Nat.testBit_div_two_pow, Nat.add_comm j n]
  congr 1
  split_ifs with h
  · rw [Bool.eq_iff_iff, Nat.testBit_one_eq_true_iff_self_eq_zero]
    simp [h]
  · simp [h]

/-- Shifting out every bit leaves only the sticky bit. -/
theorem stickyQuotient_of_lt {x den : Nat} (h : x < den) : stickyQuotient x den = if x = 0 then 0 else 1 := by
  rw [stickyQuotient, Nat.div_eq_of_lt h, Nat.mod_eq_of_lt h, Nat.zero_or]
  simp only [ne_eq, ite_not]

/-- Settles O26: leading zeros by the logarithm, and `jam` as a quotient with a sticky bit. -/
theorem leadingZerosAndJam : Obligations.LeadingZerosAndJam := by
  refine ⟨rfl, fun x h0 hx => ?_, fun W x => if_pos rfl, fun W x n hx hn hnW => ⟨fun j hj => ?_, ?_⟩,
    fun W x n hx hn hWn => ?_⟩
  · have hclz := clz32_add_log2 h0 hx
    obtain ⟨hlow, hup⟩ := log2_spec h0.ne'
    rw [show 31 - clz32 x = Nat.log2 x by omega, show 32 - clz32 x = Nat.log2 x + 1 by omega]
    exact ⟨by omega, hlow, hup⟩
  · rw [jam_eq_stickyQuotient hx, testBit_stickyQuotient]
    simp [Nat.pos_iff_ne_zero.mp hj]
  · rw [jam_eq_stickyQuotient hx, testBit_stickyQuotient, ← mod_two_pow_ne_zero_iff]
    simp
  · rw [jam_eq_stickyQuotient hx, stickyQuotient_of_lt (hx.trans_le (Nat.pow_le_pow_right (by omega) hWn))]

end Sys2Proof.Machine

/-! PROOFS. The family of 41_rounding_normalize_nan, `RoundRNE` (R126): the integer arithmetic of the model gives the rational
rule, whose result is the nearest pattern, ties to even; and gradual underflow (R129, R130). -/

namespace Sys2Proof.Machine

/-! ### The rounded integer of an exact rational -/

/-- `rne_int` is within a half of its operand, and even when it is a half away. -/
theorem exact_rneInt_spec (y : ℚ) :
    |(Exact.rneInt y : ℚ) - y| ≤ 1 / 2 ∧ (|(Exact.rneInt y : ℚ) - y| = 1 / 2 → Exact.rneInt y % 2 = 0) := by
  have hlow := Int.floor_le y
  have hup := Int.lt_floor_add_one y
  have hdown : |(⌊y⌋ : ℚ) - y| = y - ⌊y⌋ := by rw [abs_sub_comm, abs_of_nonneg (by linarith)]
  have hnext : |((⌊y⌋ + 1 : ℤ) : ℚ) - y| = ⌊y⌋ + 1 - y := by push_cast; exact abs_of_nonneg (by linarith)
  unfold Exact.rneInt
  split_ifs with hlt hgt heven
  · rw [hdown]
    exact ⟨hlt.le, fun h => absurd h hlt.ne⟩
  · rw [hnext]
    exact ⟨by linarith, fun h => by linarith⟩
  · rw [hdown]
    exact ⟨by linarith, fun _ => heven⟩
  · rw [hnext]
    exact ⟨by linarith, fun _ => by omega⟩

theorem exact_rneInt_nonneg {y : ℚ} (hy : 0 ≤ y) : 0 ≤ Exact.rneInt y := by
  have hnear := (abs_le.mp (exact_rneInt_spec y).1).1
  have hgt : (-1 : ℚ) < Exact.rneInt y := by linarith
  have : -1 < Exact.rneInt y := by exact_mod_cast hgt
  omega

/-- No integer is nearer than `rne_int`, and another one is as near only when `rne_int` is even. -/
theorem exact_rneInt_nearest (y : ℚ) (j : ℤ) :
    |(Exact.rneInt y : ℚ) - y| ≤ |(j : ℚ) - y| ∧
      (|(Exact.rneInt y : ℚ) - y| = |(j : ℚ) - y| → j = Exact.rneInt y ∨ Exact.rneInt y % 2 = 0) := by
  obtain ⟨hhalf, heven⟩ := exact_rneInt_spec y
  by_cases hj : j = Exact.rneInt y
  · exact ⟨by rw [hj], fun _ => .inl hj⟩
  · have hone : (1 : ℚ) ≤ |(j : ℚ) - Exact.rneInt y| := by
      exact_mod_cast Int.one_le_abs (sub_ne_zero.mpr hj)
    have htri : |(j : ℚ) - Exact.rneInt y| ≤ |(j : ℚ) - y| + |(Exact.rneInt y : ℚ) - y| := by
      rw [abs_sub_comm (Exact.rneInt y : ℚ) y]
      exact abs_sub_le _ _ _
    exact ⟨by linarith, fun h => .inr (heven (by linarith))⟩

theorem exact_rneInt_div (num : ℕ) {den : ℕ} (hd : 0 < den) : Exact.rneInt (num / den : ℚ) = rneNat num den :=
  (rneInt_eq_exact (num : ℤ) hd).symm.trans (rneNat_eq_rneInt num den).symm

/-! ### The rational rule is the integer arithmetic -/

theorem overflowThreshold_mul_le_iff (num : ℕ) {den : ℕ} (hd : 0 < den) :
    overflowThreshold * den ≤ num ↔ (2 ^ 128 - 2 ^ 103 : ℚ) ≤ num / den := by
  have hthr : ((overflowThreshold : ℕ) : ℚ) = 2 ^ 128 - 2 ^ 103 := by norm_num [overflowThreshold]
  rw [le_div_iff₀ (by exact_mod_cast hd), ← hthr]
  exact_mod_cast Iff.rfl

theorem ofInt_eq_ofNat_toNat {k : ℤ} (hk : 0 ≤ k) : BitVec.ofInt 32 k = BitVec.ofNat 32 k.toNat := by
  obtain ⟨m, rfl⟩ := Int.eq_ofNat_of_zero_le hk
  exact BitVec.ofInt_natCast 32 m

theorem pattern_fraction_zero (s : BitVec 1) (E : ℕ) :
    pattern s E 0 = signedZero s ||| (BitVec.ofNat 32 E <<< 23) := by
  simp [pattern]

theorem pattern_exponent_zero (s : BitVec 1) (F : ℕ) : pattern s 0 F = signedZero s ||| BitVec.ofNat 32 F := by
  simp [pattern]

theorem exact_roundRNE_zero (s : BitVec 1) : Exact.roundRNE s (0 : ℚ) = signedZero s := if_pos rfl

theorem exact_roundRNE_overflow (s : BitVec 1) {q : ℚ} (hq : 2 ^ 128 - 2 ^ 103 ≤ q) :
    Exact.roundRNE s q = signedInf s := by
  have hne : q ≠ 0 := by rintro rfl; norm_num at hq
  exact (if_neg hne).trans (if_pos hq)

/-- Between 0 and the threshold, `RoundRNE` assembles its pattern from the rounded significand. -/
theorem exact_roundRNE_eq_assemble (s : BitVec 1) {q : ℚ} (h0 : 0 < q) (hov : q < 2 ^ 128 - 2 ^ 103) :
    Exact.roundRNE s q = assembleRounded s (max (Int.log 2 q) (-126))
      (Exact.rneInt (q / 2 ^ (max (Int.log 2 q) (-126) - 23))).toNat := by
  have hn := exact_rneInt_nonneg (y := q / 2 ^ (max (Int.log 2 q) (-126) - 23)) (by positivity)
  unfold Exact.roundRNE assembleRounded
  rw [if_neg h0.ne', if_neg (not_le.mpr hov)]
  have hE : -126 ≤ max (Int.log 2 q) (-126) := le_max_right _ _
  dsimp only
  generalize max (Int.log 2 q) (-126) = E at *
  generalize Exact.rneInt (q / 2 ^ (E - 23)) = n at *
  split_ifs
  -- one rule tests the integer and the other its natural number, and the tests agree because it is not negative
  any_goals omega
  · rfl
  · rw [ofInt_eq_ofNat_toNat (by omega), pattern_fraction_zero]
    simp [signedZero]
  · rw [ofInt_eq_ofNat_toNat hn, pattern_exponent_zero]
    rfl
  · have hfrac : (n - 2 ^ 23).toNat = n.toNat - 2 ^ 23 := by omega
    rw [ofInt_eq_ofNat_toNat (by omega), ofInt_eq_ofNat_toNat (by omega), hfrac]
    rfl

/-- Settles O27: zero, the threshold, the exponent and the rounded significand of a fraction are those of its rational. -/
theorem integerRoundingIsRoundRNE : Obligations.IntegerRoundingIsRoundRNE := by
  intro s num den hd
  rcases Nat.eq_zero_or_pos num with rfl | hn
  · rw [roundRNE_zero, Nat.cast_zero, zero_div, exact_roundRNE_zero]
  · by_cases hov : overflowThreshold * den ≤ num
    · rw [roundRNE_overflow hn hov, exact_roundRNE_overflow s ((overflowThreshold_mul_le_iff num hd).mp hov)]
    · have hq : (0 : ℚ) < num / den := by positivity
      rw [roundRNE_eq_assemble hn (not_le.mp hov), exact_roundRNE_eq_assemble s hq
        (not_le.mp (mt (overflowThreshold_mul_le_iff num hd).mpr hov)), ← floorLog2_eq_log hn hd, ← scaled_eq num hd,
        exact_rneInt_div _ (scaledDen_pos hd _), Int.toNat_natCast]

/-! ### The magnitude of the result, in units of 2^-149 -/

/-- The zero of its sign is the only pattern of magnitude 0. -/
theorem eq_signedZero {x : Word} {s : BitVec 1} (hs : signOf x = s) (hm : magUnits x = 0) : x = signedZero s := by
  obtain ⟨he, hf⟩ := (isZero_iff x).mp ((magUnits_eq_zero_iff x).mp hm)
  rw [signedZero_eq_pattern, ← hs]
  simpa only [he, hf] using (pattern_fields x).symm

/-- `r` is the finite pattern of sign `s` and magnitude `n × 2^k` units of 2^-149, where `n` is `Q / 2^k` rounded to the nearest
even integer, and `k` is 0 or so that `n` has 24 bits. -/
structure RoundsUnits (s : BitVec 1) (Q : ℚ) (r : Word) (k n : ℕ) : Prop where
  finite : isFinite r = true
  sign : signOf r = s
  magnitude : magUnits r = n * 2 ^ k
  parity : fracNat r % 2 = n % 2
  rounded : (n : ℤ) = Exact.rneInt (Q / 2 ^ k)
  normal : k = 0 ∨ 2 ^ 23 * 2 ^ k ≤ Q

theorem isZero_signedZero (s : BitVec 1) : isZero (signedZero s) = true := by
  rw [signedZero_eq_pattern, isZero_iff]
  exact ⟨expNat_pattern s (by omega) (by omega), fracNat_pattern s (by omega) (by omega)⟩

theorem roundsUnits_zero (s : BitVec 1) : RoundsUnits s 0 (signedZero s) 0 0 where
  finite := (isFinite_iff_zero_subnormal_or_normal _).mpr (.inl (isZero_signedZero s))
  sign := by rw [signedZero_eq_pattern, signOf_pattern s (by omega) (by omega)]
  magnitude := by rw [(magUnits_eq_zero_iff _).mpr (isZero_signedZero s), Nat.zero_mul]
  parity := by rw [((isZero_iff _).mp (isZero_signedZero s)).2]
  rounded := by norm_num [Exact.rneInt]
  normal := .inl rfl

/-- The unit of the last place at exponent `k - 126` is `2^k` units of 2^-149. -/
theorem div_two_zpow_eq_units_div (q : ℚ) (k : ℕ) : q / 2 ^ ((k : ℤ) - 126 - 23) = q * 2 ^ 149 / 2 ^ k := by
  have hsplit : (2 : ℚ) ^ k = 2 ^ 149 * 2 ^ ((k : ℤ) - 126 - 23) := by
    rw [← zpow_natCast, ← zpow_natCast, ← zpow_add₀ two_ne_zero]
    congr 1
    omega
  rw [hsplit, mul_comm q, mul_div_mul_left _ _ (by positivity)]

/-- Below the threshold `roundRNE` rounds the exact number of units. -/
theorem exists_roundsUnits_roundRNE (s : BitVec 1) {num den : ℕ} (hd : 0 < den) (hov : num < overflowThreshold * den) :
    ∃ k n, RoundsUnits s (num / den * 2 ^ 149) (roundRNE s num den) k n := by
  rcases Nat.eq_zero_or_pos num with rfl | hn
  · rw [roundRNE_zero, Nat.cast_zero, zero_div, zero_mul]
    exact ⟨0, 0, roundsUnits_zero s⟩
  · obtain ⟨hsign, hfinite, hmag, hpar⟩ := roundRNE_finite (s := s) hn hd hov
    have hscaled := scaled_eq num hd (max (floorLog2 num den) (-126) - 23)
    have hlow : max (floorLog2 num den) (-126) = -126 ∨
        (2 : ℚ) ^ max (floorLog2 num den) (-126) ≤ num / den := by
      rcases max_choice (floorLog2 num den) (-126) with h | h
      · rw [h]
        exact .inr (floorLog2_spec hn hd).1
      · exact .inl h
    have hE : -126 ≤ max (floorLog2 num den) (-126) := le_max_right _ _
    generalize max (floorLog2 num den) (-126) = E at *
    obtain ⟨k, rfl⟩ : ∃ k : ℕ, E = k - 126 := ⟨(E + 126).toNat, by omega⟩
    have hk : ((k : ℤ) - 126 + 126).toNat = k := by omega
    rw [hk] at hmag
    refine ⟨k, _, hfinite, hsign, hmag, hpar, ?_, hlow.imp (fun h => by omega) fun h => ?_⟩
    · rw [← div_two_zpow_eq_units_div, ← hscaled, exact_rneInt_div _ (scaledDen_pos hd _)]
    · rw [← le_div_iff₀ (by positivity), ← div_two_zpow_eq_units_div, le_div_iff₀ (by positivity)]
      refine le_trans (le_of_eq ?_) h
      rw [← zpow_natCast, ← zpow_add₀ two_ne_zero]
      congr 1
      push_cast
      ring

/-- Settles O32: below 2^-126 the rounding is to whole units, because a coarser one would need 24 bits. -/
theorem underflowIsGradual : Obligations.UnderflowIsGradual := by
  intro s num den hd hsmall
  have hov : num < overflowThreshold * den := by
    calc num ≤ num * 2 ^ 126 := Nat.le_mul_of_pos_right _ (by positivity)
      _ < den := hsmall
      _ ≤ overflowThreshold * den := Nat.le_mul_of_pos_left _ (by decide)
  have hQ : (num / den * 2 ^ 149 : ℚ) < 2 ^ 23 := by
    have hsmall' : (num * 2 ^ 126 : ℚ) < den := by exact_mod_cast hsmall
    rw [div_mul_eq_mul_div, div_lt_iff₀ (by exact_mod_cast hd)]
    linarith
  obtain ⟨k, n, hr⟩ := exists_roundsUnits_roundRNE s hd hov
  have hk : k = 0 := hr.normal.resolve_right fun h => by
    have hone : (1 : ℚ) ≤ 2 ^ k := one_le_pow₀ (by norm_num)
    linarith
  subst hk
  have hmag : (magUnits (roundRNE s num den) : ℤ) = Exact.rneInt ((num : ℚ) / den * 2 ^ 149) := by
    rw [hr.magnitude, pow_zero, mul_one, hr.rounded, pow_zero, div_one]
  exact ⟨hr.sign, hmag, fun h => eq_signedZero hr.sign (by omega)⟩

/-! ### Nearest, ties to even -/

/-- The magnitude of a finite pattern is a multiple of `2^k` units, or has fewer than 24 bits above them. -/
theorem two_pow_dvd_magUnits_or_lt (y : Word) (k : ℕ) : 2 ^ k ∣ magUnits y ∨ (0 < k ∧ magUnits y < 2 ^ 23 * 2 ^ k) := by
  have hf := fracNat_lt y
  rcases Nat.eq_zero_or_pos k with rfl | hk
  · exact .inl (by simp)
  · rcases Nat.eq_zero_or_pos (expNat y) with he | he
    · refine .inr ⟨hk, ?_⟩
      rw [magUnits_of_exp_zero he]
      exact hf.trans_le (Nat.le_mul_of_pos_right _ (Nat.two_pow_pos k))
    · rw [magUnits_of_exp_pos he]
      by_cases hle : k ≤ expNat y - 1
      · exact .inl ((pow_dvd_pow 2 hle).mul_left _)
      · refine .inr ⟨hk, ?_⟩
        calc (2 ^ 23 + fracNat y) * 2 ^ (expNat y - 1)
            < 2 ^ 24 * 2 ^ (expNat y - 1) := Nat.mul_lt_mul_of_pos_right (by omega) (Nat.two_pow_pos _)
          _ ≤ 2 ^ 24 * 2 ^ (k - 1) := Nat.mul_le_mul_left _ (Nat.pow_le_pow_right (by omega) (by omega))
          _ = 2 ^ 23 * 2 ^ k := by rw [← pow_add, ← pow_add]; congr 1; omega

/-- The nearest multiple of `2^k`, the even one of two as near. -/
theorem rneInt_mul_two_pow_nearest (Q : ℚ) (k : ℕ) (j : ℤ) :
    |(Exact.rneInt (Q / 2 ^ k) : ℚ) * 2 ^ k - Q| ≤ |(j : ℚ) * 2 ^ k - Q| ∧
      (|(Exact.rneInt (Q / 2 ^ k) : ℚ) * 2 ^ k - Q| = |(j : ℚ) * 2 ^ k - Q| →
        j = Exact.rneInt (Q / 2 ^ k) ∨ Exact.rneInt (Q / 2 ^ k) % 2 = 0) := by
  have hpos : (0 : ℚ) < 2 ^ k := by positivity
  have hscale (i : ℤ) : |(i : ℚ) * 2 ^ k - Q| = |(i : ℚ) - Q / 2 ^ k| * 2 ^ k := by
    rw [← abs_of_pos hpos, ← abs_mul, abs_of_pos hpos, sub_mul, div_mul_cancel₀ Q hpos.ne']
  obtain ⟨hle, heq⟩ := exact_rneInt_nearest (Q / 2 ^ k) j
  rw [hscale, hscale]
  exact ⟨mul_le_mul_of_nonneg_right hle hpos.le, fun h => heq (mul_right_cancel₀ hpos.ne' h)⟩

/-- Among the magnitudes of finite patterns, in units, none is nearer to `Q` than the rounded one, and another is as near only
when its significand is even: a multiple of `2^k` is no nearer than the nearest multiple, and a magnitude of fewer bits lies
below the multiple `2^23 × 2^k`, which is not above `Q`. -/
theorem RoundsUnits.nearest {s : BitVec 1} {Q : ℚ} {r : Word} {k n : ℕ} (hr : RoundsUnits s Q r k n) (y : Word) :
    |(magUnits r : ℚ) - Q| ≤ |(magUnits y : ℚ) - Q| ∧
      (|(magUnits r : ℚ) - Q| = |(magUnits y : ℚ) - Q| → magUnits y = magUnits r ∨ fracNat r % 2 = 0) := by
  have hmag : (magUnits r : ℚ) = (Exact.rneInt (Q / 2 ^ k) : ℚ) * 2 ^ k := by
    rw [hr.magnitude, ← hr.rounded]
    push_cast
    rfl
  rw [hmag]
  rcases two_pow_dvd_magUnits_or_lt y k with ⟨j, hj⟩ | ⟨hk, hlt⟩
  · obtain ⟨hle, heq⟩ := rneInt_mul_two_pow_nearest Q k j
    have hy : (magUnits y : ℚ) = ((j : ℤ) : ℚ) * 2 ^ k := by rw [hj]; push_cast; ring
    rw [hy]
    refine ⟨hle, fun h => (heq h).imp (fun hjn => ?_) fun heven => ?_⟩
    · have hjn' : j = n := by have := hr.rounded; omega
      rw [hj, hr.magnitude, hjn', Nat.mul_comm]
    · have := hr.parity
      have := hr.rounded
      omega
  · have hfull : 2 ^ 23 * 2 ^ k ≤ Q := hr.normal.resolve_left hk.ne'
    have hlt' : (magUnits y : ℚ) < 2 ^ 23 * 2 ^ k := by exact_mod_cast hlt
    have hle := (rneInt_mul_two_pow_nearest Q k (2 ^ 23)).1
    have hdist : |((2 ^ 23 : ℤ) : ℚ) * 2 ^ k - Q| = Q - 2 ^ 23 * 2 ^ k := by
      rw [Int.cast_pow, Int.cast_ofNat, abs_sub_comm, abs_of_nonneg (by linarith)]
    have hdist' : |(magUnits y : ℚ) - Q| = Q - magUnits y := by rw [abs_sub_comm, abs_of_nonneg (by linarith)]
    rw [hdist] at hle
    rw [hdist']
    exact ⟨by linarith, fun h => by linarith⟩

theorem abs_val_eq_magUnits {x : Word} (h : isFinite x = true) : |Exact.val x| = magUnits x / 2 ^ 149 := by
  have hunits : |(units x : ℚ)| = magUnits x := by
    rw [← units_natAbs, Nat.cast_natAbs, Int.cast_abs]
  rw [val_eq_units h, abs_div, hunits, Nat.abs_cast, unitsPerOne, Nat.cast_pow, Nat.cast_ofNat]

theorem exists_fraction {q : ℚ} (hq : 0 ≤ q) : ∃ num den : ℕ, 0 < den ∧ q = num / den :=
  ⟨q.num.toNat, q.den, q.den_pos, by
    rw [← Int.cast_natCast q.num.toNat, Int.toNat_of_nonneg (Rat.num_nonneg.mpr hq), Rat.num_div_den]⟩

/-- Settles O28: the distances of values are those of magnitudes in units, 2^149 times smaller. -/
theorem roundRNEIsNearestEven : Obligations.RoundRNEIsNearestEven := by
  intro s q hq hov
  obtain ⟨num, den, hd, rfl⟩ := exists_fraction hq
  rw [← integerRoundingIsRoundRNE s num den hd]
  obtain ⟨k, n, hr⟩ := exists_roundsUnits_roundRNE s hd
    (not_le.mp (mt (overflowThreshold_mul_le_iff num hd).mp (not_le.mpr hov)))
  refine ⟨hr.finite, hr.sign, fun y hy => ?_⟩
  have hdist (m : ℚ) : |m / 2 ^ 149 - num / den| = |m - num / den * 2 ^ 149| / 2 ^ 149 := by
    have hpos : (0 : ℚ) < 2 ^ 149 := by positivity
    rw [← abs_of_pos hpos, ← abs_div, abs_of_pos hpos, sub_div, mul_div_cancel_right₀ _ hpos.ne']
  obtain ⟨hle, heq⟩ := hr.nearest y
  rw [abs_val_eq_magUnits hr.finite, abs_val_eq_magUnits hy, hdist, hdist]
  exact ⟨by gcongr, fun h => (heq (div_left_inj' (by positivity) |>.mp h)).imp (fun hm => by rw [hm]) id⟩

end Sys2Proof.Machine

/-! PROOFS. The family of 41_rounding_normalize_nan, the rounding engine: `round_and_pack` (R124, R125, R127) and
`norm_round_and_pack` (R131, R132) round their working triple once, by `RoundRNE`. -/

namespace Sys2Proof.Machine

/-! ### RoundRNE at a known exponent -/

/-- `RoundRNE` below the threshold, at the exponent given by the operand's binade, or at the least one. -/
theorem exact_roundRNE_eq_assemble_at {s : BitVec 1} {q : ℚ} {E : ℤ} (h0 : 0 ≤ q) (hov : q < 2 ^ 128 - 2 ^ 103)
    (hE : -126 ≤ E) (hup : q < 2 ^ (E + 1)) (hlow : E = -126 ∨ 2 ^ E ≤ q) :
    Exact.roundRNE s q = assembleRounded s E (Exact.rneInt (q / 2 ^ (E - 23))).toNat := by
  rcases h0.eq_or_lt with rfl | hq
  · have hn : Exact.rneInt (0 / 2 ^ (E - 23) : ℚ) = 0 := by norm_num [Exact.rneInt]
    rw [exact_roundRNE_zero, hn]
    rfl
  · have hlt : Int.log 2 q < E + 1 := (Int.lt_zpow_iff_log_lt (b := 2) (by norm_num) hq).mp (by exact_mod_cast hup)
    have hmax : max (Int.log 2 q) (-126) = E := by
      rcases hlow with rfl | hlow
      · omega
      · have hle : E ≤ Int.log 2 q := (Int.zpow_le_iff_le_log (b := 2) (by norm_num) hq).mp (by exact_mod_cast hlow)
        omega
    rw [exact_roundRNE_eq_assemble s hq hov, hmax]

/-! ### Packing -/

/-- The pattern of a rounded significand, with its implicit bit, or the carry of the rounding, folded into the exponent field
(41_rounding R127). -/
theorem assembleRounded_eq_pattern {s : BitVec 1} {e n : ℕ} (hn : n ≤ 2 ^ 24) (hlow : n < 2 ^ 23 → e = 0) :
    assembleRounded s ((e : ℤ) - 126) n = pattern s (e + n / 2 ^ 23) (n % 2 ^ 23) := by
  unfold assembleRounded
  split_ifs with h0 hcarry hsub
  · rw [h0, hlow (by omega), signedZero_eq_pattern]
    rfl
  · have hexp : ((e : ℤ) - 126 + 1 + 127).toNat = e + 2 := by omega
    rw [hexp, hcarry]
    rfl
  · rw [hlow hsub, Nat.div_eq_of_lt hsub, Nat.mod_eq_of_lt hsub]
  · have hexp : ((e : ℤ) - 126 + 127).toNat = e + 1 := by omega
    have hdiv : n / 2 ^ 23 = 1 := by omega
    have hmod : n % 2 ^ 23 = n - 2 ^ 23 := by omega
    rw [hexp, hdiv, hmod]

theorem packRaw_of_lt {s : BitVec 1} {E : ℤ} {F : ℕ} (hE : 0 ≤ E) (hE' : E ≤ 255) (hF : F < 2 ^ 23) :
    packRaw s E F = .ok (pattern s E.toNat F) := if_pos ⟨hE, hE', hF⟩

/-- The tail of `round_and_pack` rounds 7 bits away: adding half and clearing the low bit on a tie is rounding to nearest even
(41_rounding R124, step 3). -/
theorem roundedSignificand_eq_rneNat (sig : ℕ) :
    (if sig % 128 = 64 then (sig + 64) / 128 / 2 * 2 else (sig + 64) / 128) = rneNat sig 128 := by
  unfold rneNat
  split_ifs <;> omega

/-- The tail of `round_and_pack` assembles the rounded significand. -/
theorem roundAndPackTail_eq_assemble {s : BitVec 1} {e sig : ℕ} (he : e ≤ 253) (hn : rneNat sig 128 ≤ 2 ^ 24)
    (hlow : rneNat sig 128 < 2 ^ 23 → e = 0) :
    roundAndPackTail s e sig = .ok (assembleRounded s ((e : ℤ) - 126) (rneNat sig 128)) := by
  rw [assembleRounded_eq_pattern hn hlow]
  unfold roundAndPackTail
  dsimp only
  rw [roundedSignificand_eq_rneNat]
  generalize rneNat sig 128 = n at *
  have hzero : (if n = 0 then 0 else (e : ℤ)) = e := by split_ifs with h <;> omega
  rw [hzero, packRaw_of_lt (by omega) (by omega) (Nat.mod_lt _ (by norm_num))]
  rfl

/-! ### The value of a working triple -/

/-- The value of a working triple, `sig × 2^(e-156)` (41_rounding R123). -/
def tripleValue (e : ℤ) (sig : ℕ) : ℚ := sig * 2 ^ (e - 156)

theorem tripleValue_nonneg (e : ℤ) (sig : ℕ) : 0 ≤ tripleValue e sig := by
  unfold tripleValue
  positivity

/-- Shifting the significand up and lowering the exponent by as much keeps the value. -/
theorem tripleValue_shift (e : ℤ) (sig sh : ℕ) : tripleValue (e - sh) (sig * 2 ^ sh) = tripleValue e sig := by
  rw [tripleValue, tripleValue, Nat.cast_mul, Nat.cast_pow, Nat.cast_ofNat, mul_assoc, ← zpow_natCast,
    ← zpow_add₀ two_ne_zero]
  congr 2
  omega

/-- A bound of the significand is a bound of the value. -/
theorem tripleValue_lt_two_zpow {e : ℤ} {sig k : ℕ} (h : sig < 2 ^ k) : tripleValue e sig < 2 ^ (e + (k - 156)) := by
  have hsig : (sig : ℚ) < 2 ^ k := by exact_mod_cast h
  calc (sig : ℚ) * 2 ^ (e - 156) < 2 ^ k * 2 ^ (e - 156) := mul_lt_mul_of_pos_right hsig (by positivity)
    _ = 2 ^ (e + (k - 156)) := by rw [← zpow_natCast, ← zpow_add₀ two_ne_zero]; congr 1; omega

theorem two_zpow_le_tripleValue {e : ℤ} {sig k : ℕ} (h : 2 ^ k ≤ sig) : 2 ^ (e + (k - 156)) ≤ tripleValue e sig := by
  have hsig : (2 : ℚ) ^ k ≤ sig := by exact_mod_cast h
  calc (2 : ℚ) ^ (e + (k - 156)) = 2 ^ k * 2 ^ (e - 156) := by
        rw [← zpow_natCast, ← zpow_add₀ two_ne_zero]; congr 1; omega
    _ ≤ sig * 2 ^ (e - 156) := mul_le_mul_of_nonneg_right hsig (by positivity)

/-- Measured in units of the last place at exponent `e + n - 126`, the value is the significand with `7 + n` bits to round
away. -/
theorem tripleValue_div (e : ℤ) (sig n : ℕ) :
    tripleValue e sig / 2 ^ (e + n - 126 - 23) = sig / ((2 ^ n * 128 : ℕ) : ℚ) := by
  rw [tripleValue, mul_div_assoc, ← zpow_sub₀ two_ne_zero, show e - 156 - (e + n - 126 - 23) = -((n + 7 : ℕ) : ℤ) by omega,
    zpow_neg, zpow_natCast, pow_add, div_eq_mul_inv]
  norm_num

/-- `RoundRNE` of a working triple at exponent `e + n`, where `n` more bits are to be rounded away. -/
theorem exact_roundRNE_tripleValue {s : BitVec 1} {e : ℤ} {sig n : ℕ} (hov : tripleValue e sig < 2 ^ 128 - 2 ^ 103)
    (hE : 0 ≤ e + n) (hsig : sig < 2 ^ 31) (hlow : e + n = 0 ∨ (n = 0 ∧ 2 ^ 30 ≤ sig)) :
    Exact.roundRNE s (tripleValue e sig) = assembleRounded s (e + n - 126) (rneNat sig (2 ^ n * 128)) := by
  have hup : tripleValue e sig < 2 ^ (e + n - 126 + 1) :=
    (tripleValue_lt_two_zpow hsig).trans_le (zpow_le_zpow_right₀ (by norm_num) (by omega))
  have hbinade : e + n - 126 = -126 ∨ 2 ^ (e + n - 126) ≤ tripleValue e sig := by
    refine hlow.imp (fun h => by omega) fun ⟨hn, hsig'⟩ => ?_
    subst hn
    exact (zpow_le_zpow_right₀ (by norm_num) (by omega)).trans (two_zpow_le_tripleValue hsig')
  rw [exact_roundRNE_eq_assemble_at (tripleValue_nonneg e sig) hov (by omega) hup hbinade, tripleValue_div,
    exact_rneInt_div _ (by positivity), Int.toNat_natCast]

/-! ### round_and_pack -/

/-- Rounding at least 7 bits of a 31-bit significand away leaves at most 24 bits and a carry. -/
theorem rneNat_le_of_lt {sig den : ℕ} (hsig : sig < 2 ^ 31) (hden : 128 ≤ den) : rneNat sig den ≤ 2 ^ 24 := by
  calc rneNat sig den ≤ rneNat (2 ^ 24 * den) den := rneNat_mono (by omega) (by omega)
    _ = 2 ^ 24 := rneNat_of_mul _ (by omega)

/-- Below exponent 0 the significand is first jammed to exponent 0, which loses nothing that rounding looks at. -/
theorem roundAndPackTail_jam {s : BitVec 1} {sig : ℕ} (n : ℕ) (hsig : sig < 2 ^ 31) :
    roundAndPackTail s 0 (jam 32 sig n) = .ok (assembleRounded s (-126) (rneNat sig (2 ^ n * 128))) := by
  have hjam : rneNat (jam 32 sig n) 128 = rneNat sig (2 ^ n * 128) := by
    rw [jam_eq_stickyQuotient (by omega)]
    exact rneNat_stickyQuotient (j := 7) (by positivity) (by omega)
  have hle : rneNat (jam 32 sig n) 128 ≤ 2 ^ 24 :=
    hjam ▸ rneNat_le_of_lt hsig (Nat.le_mul_of_pos_left _ (by positivity))
  rw [← hjam]
  exact roundAndPackTail_eq_assemble (e := 0) (by omega) hle fun _ => rfl

theorem two_pow_23_le_rneNat {sig : ℕ} (hsig : 2 ^ 30 ≤ sig) : 2 ^ 23 ≤ rneNat sig 128 := by
  calc 2 ^ 23 = rneNat (2 ^ 23 * 128) 128 := (rneNat_of_mul _ (by omega)).symm
    _ ≤ rneNat sig 128 := rneNat_mono (by omega) hsig

/-- The overflow test of `round_and_pack` (41_rounding R124, step 2) is that the value is at or above the threshold: at exponent
253, that its significand rounds up to 2^31. -/
theorem threshold_le_tripleValue_iff {e : ℤ} {sig : ℕ} (hsig : sig < 2 ^ 31) (hnorm : 1 ≤ e → 2 ^ 30 ≤ sig) :
    2 ^ 128 - 2 ^ 103 ≤ tripleValue e sig ↔ 0xFD < e ∨ (e = 0xFD ∧ 0x80000000 ≤ sig + 0x40) := by
  rcases lt_trichotomy e 0xFD with he | rfl | he
  · have hbelow : (2 : ℚ) ^ (e + ((31 : ℕ) - 156)) ≤ 2 ^ 128 - 2 ^ 103 :=
      (zpow_le_zpow_right₀ (by norm_num) (show e + ((31 : ℕ) - 156) ≤ (127 : ℕ) by omega)).trans (by norm_num)
    have hlt := (tripleValue_lt_two_zpow (e := e) hsig).trans_le hbelow
    exact iff_of_false (not_le.mpr hlt) (by omega)
  · have hthr : (2 ^ 128 - 2 ^ 103 : ℚ) = (2 ^ 31 - 64) * 2 ^ (0xFD - 156 : ℤ) := by norm_num
    have hvalue : (2 ^ 128 - 2 ^ 103 : ℚ) ≤ tripleValue 0xFD sig ↔ 2 ^ 31 ≤ sig + 64 := by
      rw [tripleValue, hthr, mul_le_mul_iff_left₀ (by positivity), sub_le_iff_le_add]
      exact_mod_cast Iff.rfl
    rw [hvalue]
    omega
  · have habove : (2 ^ 128 - 2 ^ 103 : ℚ) ≤ 2 ^ (e + ((30 : ℕ) - 156)) :=
      le_trans (by norm_num) (zpow_le_zpow_right₀ (by norm_num) (show ((128 : ℕ) : ℤ) ≤ e + ((30 : ℕ) - 156) by omega))
    exact iff_of_true (habove.trans (two_zpow_le_tripleValue (hnorm (by omega)))) (.inl he)

/-- `round_and_pack` is `RoundRNE` of its triple: by the three places it can go. -/
theorem roundAndPack_eq {s : BitVec 1} {e : ℤ} {sig : ℕ} (hsig : sig < 2 ^ 31) (hnorm : 1 ≤ e → 2 ^ 30 ≤ sig) :
    roundAndPack s e sig = .ok (Exact.roundRNE s (tripleValue e sig)) := by
  have hpre : ¬ (¬ sig < 2 ^ 31 ∨ (1 ≤ e ∧ sig < 2 ^ 30)) := by omega
  have hthr := threshold_le_tripleValue_iff hsig hnorm
  rw [roundAndPack, if_neg hpre]
  split_ifs with hneg hover
  · have hov : tripleValue e sig < 2 ^ 128 - 2 ^ 103 := not_le.mp (mt hthr.mp (by omega))
    obtain ⟨n, rfl⟩ : ∃ n : ℕ, e = -n := ⟨(-e).toNat, by omega⟩
    rw [exact_roundRNE_tripleValue (n := n) hov (by omega) hsig (.inl (by omega)), neg_neg, Int.toNat_natCast,
      roundAndPackTail_jam n hsig, neg_add_cancel, zero_sub]
  · rw [exact_roundRNE_overflow s (hthr.mpr hover)]
  · have hov : tripleValue e sig < 2 ^ 128 - 2 ^ 103 := not_le.mp (mt hthr.mp hover)
    obtain ⟨k, rfl⟩ : ∃ k : ℕ, e = k := ⟨e.toNat, by omega⟩
    have hbinade : k = 0 ∨ 2 ^ 30 ≤ sig := by omega
    have hlow : rneNat sig 128 < 2 ^ 23 → k = 0 := fun hlt =>
      hbinade.resolve_right fun h => (two_pow_23_le_rneNat h).not_gt hlt
    rw [roundAndPackTail_eq_assemble (by omega) (rneNat_le_of_lt hsig (by omega)) hlow,
      exact_roundRNE_tripleValue (n := 0) hov (by omega) hsig (hbinade.imp (by omega) fun h => ⟨rfl, h⟩), Nat.cast_zero,
      add_zero, pow_zero, one_mul]

/-- Settles O29: the value of the triple is written out in the statement. -/
theorem roundAndPackIsRoundRNE : Obligations.RoundAndPackIsRoundRNE := fun _ _ _ hsig hnorm => roundAndPack_eq hsig hnorm

/-! ### norm_round_and_pack -/

/-- A significand whose low 7 bits are 0, away from both ends of the exponent range: rounding changes nothing, and
`round_and_pack` packs directly. -/
theorem roundAndPack_of_exact {s : BitVec 1} {e : ℤ} {z : ℕ} (he : 0 ≤ e) (he' : e < 253) (hlow : 2 ^ 23 ≤ z)
    (hup : z < 2 ^ 24) : roundAndPack s e (z * 128) = packRaw s (e + (z / 2 ^ 23 : ℕ)) (z % 2 ^ 23) := by
  have hround : (if z * 128 % 128 = 64 then (z * 128 + 64) / 128 / 2 * 2 else (z * 128 + 64) / 128) = z := by
    rw [roundedSignificand_eq_rneNat, rneNat_of_mul z (by omega)]
  rw [roundAndPack, if_neg (by omega), if_neg (by omega), if_neg (by omega)]
  unfold roundAndPackTail
  dsimp only
  rw [hround, if_neg (by omega)]

/-- `norm_round_and_pack` is `round_and_pack` of the normalized triple; packing directly is a case where they agree. -/
theorem normRoundAndPack_eq_roundAndPack {s : BitVec 1} {e : ℤ} {sig : ℕ} (h0 : 0 < sig) (hsig : sig < 2 ^ 31) :
    normRoundAndPack s e sig = roundAndPack s (e - (clz32 sig - 1 : ℕ)) (sig * 2 ^ (clz32 sig - 1)) := by
  have hclz : 0 < clz32 sig := lt_clz32 h0 (by omega) hsig
  obtain ⟨hlow, hup⟩ := mul_two_pow_clz32_sub (k := 1) h0 (by omega) hclz
  rw [normRoundAndPack, if_pos ⟨h0, hsig⟩]
  dsimp only
  generalize clz32 sig - 1 = sh at *
  split_ifs with h
  · obtain ⟨hsh, he, he'⟩ := h
    have hshift : sig * 2 ^ sh = sig * 2 ^ (sh - 7) * 128 := by
      rw [Nat.mul_assoc, show 128 = 2 ^ 7 by rfl, ← pow_add, Nat.sub_add_cancel hsh]
    rw [hshift] at hlow hup ⊢
    exact (roundAndPack_of_exact he he' (by omega) (by omega)).symm
  · rfl

/-- Settles O30: normalizing keeps the value and gives what `round_and_pack` asks for. -/
theorem normRoundAndPackIsRoundRNE : Obligations.NormRoundAndPackIsRoundRNE := by
  intro s e sig h0 hsig
  obtain ⟨hlow, hup⟩ := mul_two_pow_clz32_sub (k := 1) h0 (by omega) (lt_clz32 h0 (by omega) hsig)
  rw [normRoundAndPack_eq_roundAndPack h0 hsig, roundAndPack_eq (by omega) fun _ => by omega, tripleValue_shift]
  rfl

end Sys2Proof.Machine

/-! PROOFS. The family of 41_rounding_normalize_nan, the results of arithmetic: overflow (R128), and NaN results (R140,
R143). -/

namespace Sys2Proof.Machine

/-! ### Overflow -/

theorem isInf_signedInf (s : BitVec 1) : isInf (signedInf s) = true := by
  rw [signedInf_eq_pattern, isInf_iff]
  exact ⟨expNat_pattern s (by omega) (by omega), fracNat_pattern s (by omega) (by omega)⟩

/-- `RoundRNE` gives an infinity exactly at and above the overflow threshold. -/
theorem isInf_roundRNE_iff (s : BitVec 1) (num : ℕ) {den : ℕ} (hd : 0 < den) :
    isInf (roundRNE s num den) = true ↔ overflows num den = true := by
  have hthr : 0 < overflowThreshold * den := Nat.mul_pos (by decide) hd
  rw [overflows, decide_eq_true_eq]
  by_cases hov : overflowThreshold * den ≤ num
  · simp only [roundRNE_overflow (hthr.trans_le hov) hov, isInf_signedInf, hov]
  · obtain ⟨k, n, hr⟩ := exists_roundsUnits_roundRNE s hd (not_le.mp hov)
    simp [not_isInf_of_isFinite hr.finite, hov]

/-- A sum or difference of 0 is the zero of some sign, which rounding 0 gives too. -/
theorem exists_roundRNE_units (q : ℤ) (negative : Prop) [Decidable negative] :
    ∃ sign, (if q = 0 then (if negative then 0x80000000#32 else 0x00000000#32) else roundUnits q) =
      roundRNE sign q.natAbs unitsPerOne := by
  split_ifs with hq hneg
  · exact ⟨1#1, by rw [hq]; rfl⟩
  · exact ⟨0#1, by rw [hq]; rfl⟩
  · exact ⟨_, rfl⟩

theorem addValue_of_isFinite {a b : Word} (ha : isFinite a = true) (hb : isFinite b = true) :
    ∃ sign, addValue a b = roundRNE sign (units a + units b).natAbs unitsPerOne := by
  simpa [addValue, not_isNaN_of_isFinite, not_isInf_of_isFinite, ha, hb] using exists_roundRNE_units _ _

theorem subValue_of_isFinite {a b : Word} (ha : isFinite a = true) (hb : isFinite b = true) :
    ∃ sign, subValue a b = roundRNE sign (units a - units b).natAbs unitsPerOne := by
  simpa [subValue, not_isNaN_of_isFinite, not_isInf_of_isFinite, ha, hb] using exists_roundRNE_units _ _

theorem mulValue_of_isFinite {a b : Word} (ha : isFinite a = true) (hb : isFinite b = true) :
    mulValue a b = roundRNE (signOf a ^^^ signOf b) (magUnits a * magUnits b) (unitsPerOne * unitsPerOne) := by
  simp only [mulValue, not_isNaN_of_isFinite ha, not_isNaN_of_isFinite hb, not_isInf_of_isFinite ha,
    not_isInf_of_isFinite hb, Bool.or_self, Bool.false_eq_true, if_false]
  split_ifs with hz
  · have hprod : magUnits a * magUnits b = 0 := by simpa [magUnits_eq_zero_iff] using hz
    rw [hprod, roundRNE_zero]
  · rfl

theorem divValue_of_isFinite {a b : Word} (ha : isFinite a = true) (hb : isFinite b = true) (hz : isZero b = false) :
    divValue a b = roundRNE (signOf a ^^^ signOf b) (magUnits a) (magUnits b) := by
  simp only [divValue, not_isNaN_of_isFinite ha, not_isNaN_of_isFinite hb, not_isInf_of_isFinite ha,
    not_isInf_of_isFinite hb, hz, Bool.or_self, Bool.and_self, Bool.false_eq_true, if_false]
  split_ifs with hza
  · rw [(magUnits_eq_zero_iff a).mpr hza, roundRNE_zero]
  · rfl

theorem fromInt32Value_eq_roundRNE (a : Word) : ∃ sign, fromInt32Value a = roundRNE sign (int32Of a).natAbs 1 := by
  unfold fromInt32Value
  split_ifs with h0
  · exact ⟨0#1, by rw [h0]; rfl⟩
  · exact ⟨_, rfl⟩
  · exact ⟨_, rfl⟩

/-- An operation with an exact magnitude answers that magnitude rounded once, with some sign. -/
theorem answersR_of_exactMagnitude {i : Instr} {num den : ℕ} (h : exactMagnitude i = some (num, den)) :
    0 < den ∧ ∃ sign, ∀ s, AnswersR i s (roundRNE sign num den) := by
  have hone : 0 < unitsPerOne := by decide
  cases i with
  | add a b =>
    simp only [exactMagnitude, Option.ite_none_right_eq_some, Bool.and_eq_true, Option.some.injEq, Prod.mk.injEq] at h
    obtain ⟨⟨ha, hb⟩, rfl, rfl⟩ := h
    obtain ⟨sign, hval⟩ := addValue_of_isFinite ha hb
    exact ⟨hone, sign, fun s => hval ▸ answersR_of_exec rfl⟩
  | sub a b =>
    simp only [exactMagnitude, Option.ite_none_right_eq_some, Bool.and_eq_true, Option.some.injEq, Prod.mk.injEq] at h
    obtain ⟨⟨ha, hb⟩, rfl, rfl⟩ := h
    obtain ⟨sign, hval⟩ := subValue_of_isFinite ha hb
    exact ⟨hone, sign, fun s => hval ▸ answersR_of_exec rfl⟩
  | mul a b =>
    simp only [exactMagnitude, Option.ite_none_right_eq_some, Bool.and_eq_true, Option.some.injEq, Prod.mk.injEq] at h
    obtain ⟨⟨ha, hb⟩, rfl, rfl⟩ := h
    exact ⟨Nat.mul_pos hone hone, signOf a ^^^ signOf b, fun s => mulValue_of_isFinite ha hb ▸ answersR_of_exec rfl⟩
  | div a b =>
    simp only [exactMagnitude, Option.ite_none_right_eq_some, Bool.and_eq_true, Bool.not_eq_true', Option.some.injEq,
      Prod.mk.injEq] at h
    obtain ⟨⟨⟨ha, hb⟩, hz⟩, rfl, rfl⟩ := h
    have hpos : 0 < magUnits b := Nat.pos_of_ne_zero fun hb0 => by simp [(magUnits_eq_zero_iff b).mp hb0] at hz
    exact ⟨hpos, signOf a ^^^ signOf b, fun s => divValue_of_isFinite ha hb hz ▸ answersR_of_exec rfl⟩
  | fromInt32 a =>
    simp only [exactMagnitude, Option.some.injEq, Prod.mk.injEq] at h
    obtain ⟨rfl, rfl⟩ := h
    obtain ⟨sign, hval⟩ := fromInt32Value_eq_roundRNE a
    exact ⟨Nat.one_pos, sign, fun s => hval ▸ answersR_of_exec rfl⟩
  | _ => simp [exactMagnitude] at h

/-- Settles O31: every operation with an exact magnitude answers it rounded once, and rounding overflows at the threshold. -/
theorem overflowIsAlwaysInfinity : Obligations.OverflowIsAlwaysInfinity := by
  refine ⟨fun s num den hd hov => ?_, fun i s num den h => ?_⟩
  · have hthr : 0 < overflowThreshold * den := Nat.mul_pos (by decide) hd
    rw [roundRNE_overflow (hthr.trans_le hov) hov, signedInf_eq_pattern]
  · obtain ⟨hd, sign, hans⟩ := answersR_of_exactMagnitude h
    exact ⟨_, hans s, isInf_roundRNE_iff sign num hd⟩

/-! ### Results that are not NaNs -/

@[simp] theorem isNaN_signedZero (s : BitVec 1) : isNaN (signedZero s) = false :=
  not_isNaN_of_isFinite (roundsUnits_zero s).finite

theorem isNaN_pattern_fraction_zero (s : BitVec 1) {E : ℕ} (hE : E < 256) : isNaN (pattern s E 0) = false := by
  simp [isNaN, fracNat_pattern s hE (F := 0) (by omega)]

@[simp] theorem isNaN_signedInf (s : BitVec 1) : isNaN (signedInf s) = false := by
  rw [signedInf_eq_pattern, isNaN_pattern_fraction_zero s (by omega)]

theorem isNaN_pattern_of_lt (s : BitVec 1) {E F : ℕ} (hE : E < 255) (hF : F < 2 ^ 23) : isNaN (pattern s E F) = false := by
  apply not_isNaN_of_isFinite
  rwa [isFinite_iff, expNat_pattern s (by omega) hF]

/-- Flipping the sign bit of a pattern keeps the exponent and the fraction. -/
theorem isNaN_xor_signBit (x : Word) : isNaN (x ^^^ 0x80000000#32) = isNaN x := by
  simp [isNaN, expNat, fracNat, expOf, fracOf, BitVec.extractLsb'_xor]

theorem assembleRounded_not_nan (s : BitVec 1) {E : ℤ} {n : ℕ} (hE : E ≤ 127) (hn : n ≤ 2 ^ 24) :
    isNaN (assembleRounded s E n) = false := by
  unfold assembleRounded
  split_ifs with h0 hcarry hsub
  · exact isNaN_signedZero s
  · exact isNaN_pattern_fraction_zero s (by omega)
  · exact isNaN_pattern_of_lt s (by omega) hsub
  · exact isNaN_pattern_of_lt s (by omega) (by omega)

/-- The root of a number below 2^48 rounds to at most 2^24. -/
theorem rneSqrt_le_of_lt {num den : ℕ} (hd : 0 < den) (h : num < 2 ^ 48 * den) : rneSqrt num den ≤ 2 ^ 24 := by
  obtain ⟨-, hroot, -, -⟩ := rneSqrt_spec (num := num) hd
  by_contra hgt
  have hsq : (2 ^ 25) ^ 2 * den ≤ (2 * rneSqrt num den - 1) ^ 2 * den :=
    Nat.mul_le_mul_right _ (Nat.pow_le_pow_left (by omega) 2)
  have := hroot (by omega)
  omega

/-- The exponent and the integer that `roundSqrtRNE` takes are in range: the root of a number in `[4^E, 4^(E+1))` is below
`2^(E+1)`. -/
theorem roundSqrtRNE_range {num den : ℕ} (hn : 0 < num) (hd : 0 < den)
    (hov : num < overflowThreshold * overflowThreshold * den) :
    max (floorLog2 num den / 2) (-126) ≤ 127 ∧
      rneSqrt (scaledNum num (2 * (max (floorLog2 num den / 2) (-126) - 23)))
        (scaledDen den (2 * (max (floorLog2 num den / 2) (-126) - 23))) ≤ 2 ^ 24 := by
  obtain ⟨hlog, hlog'⟩ := floorLog2_spec hn hd
  have hd' : (0 : ℚ) < den := by exact_mod_cast hd
  have hq : (num / den : ℚ) < 2 ^ (256 : ℤ) := by
    have hthr : overflowThreshold * overflowThreshold * den < 2 ^ 256 * den := Nat.mul_lt_mul_of_pos_right (by decide) hd
    rw [div_lt_iff₀ hd']
    exact_mod_cast hov.trans hthr
  have hfl : floorLog2 num den < 256 := (zpow_lt_zpow_iff_right₀ (by norm_num)).mp (hlog.trans_lt hq)
  refine ⟨by omega, ?_⟩
  have hE : floorLog2 num den + 1 ≤ 2 * max (floorLog2 num den / 2) (-126) + 2 := by omega
  generalize max (floorLog2 num den / 2) (-126) = E at *
  have hpos := scaledDen_pos hd (2 * (E - 23))
  refine rneSqrt_le_of_lt hpos ?_
  have hlt : (num / den / 2 ^ (2 * (E - 23)) : ℚ) < 2 ^ 48 := by
    rw [div_lt_iff₀ (by positivity)]
    calc (num / den : ℚ) < 2 ^ (2 * E + 2) := hlog'.trans_le (zpow_le_zpow_right₀ (by norm_num) hE)
      _ = 2 ^ 48 * 2 ^ (2 * (E - 23)) := by
        rw [← zpow_natCast, ← zpow_add₀ two_ne_zero]
        congr 1
        push_cast
        ring
  rw [← scaled_eq num hd, div_lt_iff₀ (by exact_mod_cast hpos)] at hlt
  exact_mod_cast hlt

theorem roundSqrtRNE_not_nan (s : BitVec 1) (num : ℕ) {den : ℕ} (hd : 0 < den) :
    isNaN (roundSqrtRNE s num den) = false := by
  unfold roundSqrtRNE
  split_ifs with h0 hov
  · exact isNaN_signedZero s
  · exact isNaN_signedInf s
  · obtain ⟨hE, hn⟩ := roundSqrtRNE_range (Nat.pos_of_ne_zero h0) hd (not_le.mp hov)
    exact assembleRounded_not_nan s hE hn

/-! ### NaN results -/

theorem not_isInf_of_isNaN {x : Word} (h : isNaN x = true) : isInf x = false := by
  simp [isInf, ((isNaN_iff x).mp h).2]

theorem not_isZero_of_isNaN {x : Word} (h : isNaN x = true) : isZero x = false := by
  simp [isZero, ((isNaN_iff x).mp h).2]

theorem isNaN_of_quietNaN {x : Word} (h : classify x = .quietNaN) : isNaN x = true := by
  obtain ⟨-, -, -, -, hquiet, -⟩ := classify_iff x
  obtain ⟨hexp, hbit⟩ := hquiet.mp h
  exact (isNaN_iff x).mpr ⟨hexp, fracNat_ne_zero_of_quietBit hbit⟩

theorem classify_quiet_of_isNaN {x : Word} (h : isNaN x = true) : classify (quiet x) = .quietNaN :=
  (classify_eq_quietNaN_iff _).mpr (mag_quiet_of_isNaN h)

/-- A pattern whose bits 30 to 22 are all ones is a quiet NaN. -/
theorem classify_append_ones (s : BitVec 1) (p : BitVec 22) : classify (s ++ (0x1FF#9 ++ p)) = .quietNaN := by
  obtain ⟨-, -, -, -, hquiet, -⟩ := classify_iff (s ++ (0x1FF#9 ++ p))
  have hexp : (s ++ (0x1FF#9 ++ p)).extractLsb' 23 8 = 0xFF#8 := by
    rw [BitVec.extractLsb'_append_eq_of_add_le (by omega), BitVec.extractLsb'_append_eq_of_le (by omega)]
    rfl
  have hbit : (s ++ (0x1FF#9 ++ p)).getLsbD 22 = true := by
    rw [BitVec.getLsbD_append, BitVec.getLsbD_append]
    rfl
  exact hquiet.mpr ⟨(expNat_eq_255_iff _).mpr hexp, hbit⟩

/-- `DEFAULT_NAN` is quiet whatever its open bits are (00_scope R10). -/
theorem classify_defaultNan : classify Config.defaultNan = .quietNaN := classify_append_ones _ _

/-- What 41_rounding R143 allows the result `r` of an arithmetic operation to be, exactly one of three. -/
inductive NanRule (i : Instr) (r : Word) : Prop where
  /-- A NaN operand: the result is one of the operands, quieted, and a quiet NaN. -/
  | ofOperand (hnan : hasNaNOperand i = true) (hvalid : invalidOperation i = false) (hquiet : classify r = .quietNaN)
      (hoperand : ∃ x ∈ floatOperands i, r = quiet x)
  /-- An invalid operation: the result is `DEFAULT_NAN`. -/
  | ofInvalid (hnan : hasNaNOperand i = false) (hinvalid : invalidOperation i = true) (hr : r = Config.defaultNan)
  /-- Any other: the result is no NaN. -/
  | ofNumber (hnan : hasNaNOperand i = false) (hvalid : invalidOperation i = false) (hr : isNaN r = false)

theorem NanRule.classify_of_isNaN {i : Instr} {r : Word} (h : NanRule i r) (hr : isNaN r = true) :
    classify r = .quietNaN ∧ (r = Config.defaultNan ∨ ∃ x ∈ floatOperands i, r = quiet x) := by
  cases h with
  | ofOperand _ _ hquiet hoperand => exact ⟨hquiet, .inr hoperand⟩
  | ofInvalid _ _ hdefault => exact ⟨hdefault ▸ classify_defaultNan, .inl hdefault⟩
  | ofNumber _ _ hnumber => simp [hnumber] at hr

theorem NanRule.isNaN_iff {i : Instr} {r : Word} (h : NanRule i r) :
    isNaN r = true ↔ hasNaNOperand i = true ∨ invalidOperation i = true := by
  cases h with
  | ofOperand hnan _ hquiet _ => simp [hnan, isNaN_of_quietNaN hquiet]
  | ofInvalid _ hinvalid hdefault => simp [hinvalid, hdefault, isNaN_of_quietNaN classify_defaultNan]
  | ofNumber hnan hvalid hnumber => simp [hnan, hvalid, hnumber]

/-- A NaN is neither an infinity nor a zero, so it is in none of the invalid operations. -/
theorem invalidOperation_of_hasNaNOperand {i : Instr} (h : hasNaNOperand i = true) : invalidOperation i = false := by
  cases i with
  | add a b | sub a b | mul a b | div a b =>
    have hor : isNaN a = true ∨ isNaN b = true := by simpa [hasNaNOperand, floatOperands] using h
    rcases hor with hnan | hnan <;> simp [invalidOperation, not_isInf_of_isNaN hnan, not_isZero_of_isNaN hnan]
  | sqrt a =>
    have hnan : isNaN a = true := by simpa [hasNaNOperand, floatOperands] using h
    simp [invalidOperation, hnan]
  | _ => rfl

/-- An operation of two operands, one of them a NaN, that answers the choice of `propagate_nan`. -/
theorem nanRule_nanChoice {i : Instr} {a b : Word} (hops : floatOperands i = [a, b])
    (hnan : (isNaN a || isNaN b) = true) : NanRule i (nanChoice a b) := by
  have hhas : hasNaNOperand i = true := by simpa [hasNaNOperand, hops] using hnan
  refine .ofOperand hhas (invalidOperation_of_hasNaNOperand hhas) (classify_nanChoice (by simpa using hnan)) ?_
  rw [hops]
  obtain ⟨heq, -⟩ | ⟨heq, -⟩ := nanChoice_cases a b
  · exact ⟨a, by simp, heq⟩
  · exact ⟨b, by simp, heq⟩

theorem zero_or_roundUnits_not_nan (q : ℤ) (negative : Prop) [Decidable negative] :
    isNaN (if q = 0 then (if negative then 0x80000000#32 else 0x00000000#32) else roundUnits q) = false := by
  obtain ⟨sign, h⟩ := exists_roundRNE_units q negative
  rw [h, roundRNE_not_nan sign _ (by decide)]

/-- The branches that ADD and SUB share: two infinities are valid when `same`, and an infinite `b` alone gives `y`. -/
theorem nanRule_sum {i : Instr} {a b y v : Word} {same : Prop} [Decidable same] (hops : floatOperands i = [a, b])
    (hinvalid : invalidOperation i = true ↔ (isInf a && isInf b) = true ∧ ¬ same)
    (hy : isNaN y = isNaN b) (hv : isNaN v = false) :
    NanRule i (if isNaN a || isNaN b then nanChoice a b
      else if isInf a && isInf b then (if same then a else invalidResult)
      else if isInf a then a else if isInf b then y else v) := by
  by_cases hnan : (isNaN a || isNaN b) = true
  · rw [if_pos hnan]
    exact nanRule_nanChoice hops hnan
  · have hhas : hasNaNOperand i = false := by simpa [hasNaNOperand, hops] using hnan
    obtain ⟨ha, hb⟩ : isNaN a = false ∧ isNaN b = false := by simpa using hnan
    rw [if_neg hnan]
    by_cases hinf : (isInf a && isInf b) = true
    · rw [if_pos hinf]
      split_ifs with hsame
      · exact .ofNumber hhas (Bool.eq_false_iff.mpr fun h => (hinvalid.mp h).2 hsame) ha
      · exact .ofInvalid hhas (hinvalid.mpr ⟨hinf, hsame⟩) rfl
    · rw [if_neg hinf]
      refine .ofNumber hhas (Bool.eq_false_iff.mpr fun h => hinf (hinvalid.mp h).1) ?_
      split_ifs
      · exact ha
      · exact hy.trans hb
      · exact hv

theorem nanRule_addValue (a b : Word) : NanRule (.add a b) (addValue a b) :=
  nanRule_sum rfl (by simp [invalidOperation]) rfl (zero_or_roundUnits_not_nan _ _)

theorem nanRule_subValue (a b : Word) : NanRule (.sub a b) (subValue a b) :=
  nanRule_sum rfl (by simp [invalidOperation]) (isNaN_xor_signBit b) (zero_or_roundUnits_not_nan _ _)

theorem not_isZero_of_isInf {x : Word} (h : isInf x = true) : isZero x = false := by
  simp [isZero, ((isInf_iff x).mp h).1]

theorem nanRule_mulValue (a b : Word) : NanRule (.mul a b) (mulValue a b) := by
  by_cases hnan : (isNaN a || isNaN b) = true
  · rw [mulValue, if_pos hnan]
    exact nanRule_nanChoice rfl hnan
  · have hhas : hasNaNOperand (.mul a b) = false := by simpa [hasNaNOperand, floatOperands] using hnan
    have hinvalid : invalidOperation (.mul a b) = ((isInf a || isInf b) && (isZero a || isZero b)) := by
      cases hia : isInf a <;> cases hib : isInf b <;> simp [invalidOperation, hia, hib, not_isZero_of_isInf]
    rw [mulValue, if_neg hnan]
    split_ifs with hinf hzero hzero
    · exact .ofInvalid hhas (by rw [hinvalid, hinf, hzero]; rfl) rfl
    · exact .ofNumber hhas (by rw [hinvalid, Bool.eq_false_iff.mpr hzero, Bool.and_false]) (isNaN_signedInf _)
    · exact .ofNumber hhas (by rw [hinvalid, Bool.eq_false_iff.mpr hinf, Bool.false_and]) (isNaN_signedZero _)
    · exact .ofNumber hhas (by rw [hinvalid, Bool.eq_false_iff.mpr hinf, Bool.false_and])
        (roundRNE_not_nan _ _ (by decide))

theorem nanRule_divValue (a b : Word) : NanRule (.div a b) (divValue a b) := by
  by_cases hnan : (isNaN a || isNaN b) = true
  · rw [divValue, if_pos hnan]
    exact nanRule_nanChoice rfl hnan
  · have hhas : hasNaNOperand (.div a b) = false := by simpa [hasNaNOperand, floatOperands] using hnan
    rw [divValue, if_neg hnan]
    split_ifs with hinf hia hib hzb hza hza
    · exact .ofInvalid hhas (by simp [invalidOperation, hinf]) rfl
    · exact .ofNumber hhas (by simpa [invalidOperation, hia, not_isZero_of_isInf hia] using hinf) (isNaN_signedInf _)
    · exact .ofNumber hhas (by simp [invalidOperation, hia, not_isZero_of_isInf hib]) (isNaN_signedZero _)
    · exact .ofInvalid hhas (by simp [invalidOperation, hza, hzb]) rfl
    · exact .ofNumber hhas (by simp [invalidOperation, hia, hza]) (isNaN_signedInf _)
    · exact .ofNumber hhas (by simp [invalidOperation, hia, hzb]) (isNaN_signedZero _)
    · have hpos : 0 < magUnits b := Nat.pos_of_ne_zero (mt (magUnits_eq_zero_iff b).mp hzb)
      exact .ofNumber hhas (by simp [invalidOperation, hia, hzb]) (roundRNE_not_nan _ _ hpos)

theorem nanRule_sqrtValue (a : Word) : NanRule (.sqrt a) (sqrtValue a) := by
  have hhas : hasNaNOperand (.sqrt a) = isNaN a := by simp [hasNaNOperand, floatOperands]
  unfold sqrtValue
  split_ifs with hnan hzero hneg hinf
  · exact .ofOperand (hhas.trans hnan) (invalidOperation_of_hasNaNOperand (hhas.trans hnan))
      (classify_quiet_of_isNaN hnan) ⟨a, by simp [floatOperands], rfl⟩
  all_goals rw [Bool.not_eq_true] at hnan
  · exact .ofNumber (hhas.trans hnan) (by simp [invalidOperation, hzero]) hnan
  · exact .ofInvalid (hhas.trans hnan) (by simp [invalidOperation, hnan, hzero, hneg]) rfl
  · exact .ofNumber (hhas.trans hnan) (by simp [invalidOperation, hneg]) hnan
  · exact .ofNumber (hhas.trans hnan) (by simp [invalidOperation, hneg]) (roundSqrtRNE_not_nan _ _ (by decide))

/-- Every arithmetic operation answers a result that R143 allows. -/
theorem exists_nanRule {i : Instr} (h : isArithmetic i = true) : ∃ r, (∀ s, AnswersR i s r) ∧ NanRule i r := by
  cases i with
  | add a b => exact ⟨_, fun _ => answersR_of_exec rfl, nanRule_addValue a b⟩
  | sub a b => exact ⟨_, fun _ => answersR_of_exec rfl, nanRule_subValue a b⟩
  | mul a b => exact ⟨_, fun _ => answersR_of_exec rfl, nanRule_mulValue a b⟩
  | div a b => exact ⟨_, fun _ => answersR_of_exec rfl, nanRule_divValue a b⟩
  | sqrt a => exact ⟨_, fun _ => answersR_of_exec rfl, nanRule_sqrtValue a⟩
  | _ => simp [isArithmetic] at h

/-- Settles O22: a NaN result is a quieted operand or `DEFAULT_NAN`; PACK gives the signaling NaN 0x7F800001. -/
theorem nanResultsAreQuiet : Obligations.NanResultsAreQuiet := by
  intro i s h
  obtain ⟨r, hans, hrule⟩ := exists_nanRule h
  exact ⟨r, hans s, hrule.classify_of_isNaN, fun _ => rfl, 0#32, 0xFF#32, 1#32, 0x7F800001#32,
    answersR_pack 0#32 0xFF#32 1#32 s, by decide⟩

/-- Settles O23: of the three results that R143 allows, the first two are NaNs and the last is none. -/
theorem nanResultIffNanOperandOrInvalid : Obligations.NanResultIffNanOperandOrInvalid := by
  intro i s h
  obtain ⟨r, hans, hrule⟩ := exists_nanRule h
  refine ⟨⟨r, hans s, hrule.isNaN_iff⟩, fun hinvalid => ?_, invalidOperation_of_hasNaNOperand⟩
  cases hrule with
  | ofInvalid _ _ hr => exact hr ▸ hans s
  | ofOperand _ hvalid _ _ => simp [hvalid] at hinvalid
  | ofNumber _ hvalid _ => simp [hvalid] at hinvalid

end Sys2Proof.Machine

/-! PROOFS. The family of 42_fp_adder, the value rules: ADD (R170) and SUB (R171) over the exact rationals. -/

namespace Sys2Proof.Machine

/-! ### The branches that ADD and SUB share -/

/-- The value rules of ADD and SUB, as one (42_fp_adder R170, R171): two infinities are valid when `same`, an infinite `b` alone
gives `y`, and finite operands give `v`. -/
def sumRule (a b : Word) (same : Prop) [Decidable same] (y v : Word) : Word :=
  if isNaN a || isNaN b then nanChoice a b
  else if isInf a && isInf b then (if same then a else Config.defaultNan)
  else if isInf a then a
  else if isInf b then y
  else v

theorem addValue_eq_sumRule (a b : Word) : addValue a b = sumRule a b (signOf a = signOf b) b
    (if units a + units b = 0 then (if signOf a = 1#1 ∧ signOf b = 1#1 then 0x80000000#32 else 0x00000000#32)
      else roundUnits (units a + units b)) := rfl

theorem subValue_eq_sumRule (a b : Word) : subValue a b = sumRule a b (signOf a ≠ signOf b) (b ^^^ 0x80000000#32)
    (if units a - units b = 0 then (if signOf a = 1#1 ∧ signOf b = 0#1 then 0x80000000#32 else 0x00000000#32)
      else roundUnits (units a - units b)) := rfl

/-- The exact sum `q` of finite operands, rounded with its own sign, or the given zero when it is 0. -/
def roundSum (zero : Word) (q : ℚ) : Word := if q = 0 then zero else Exact.roundRNE (Exact.signOfRat q) |q|

theorem exact_add_eq_sumRule (a b : Word) : Exact.add a b = sumRule a b (signOf a = signOf b) b
    (roundSum (if signOf a = 1#1 ∧ signOf b = 1#1 then 0x80000000#32 else 0x00000000#32)
      (Exact.val a + Exact.val b)) := rfl

theorem exact_sub_eq_sumRule (a b : Word) : Exact.sub a b = sumRule a b (signOf a ≠ signOf b) (b ^^^ 0x80000000#32)
    (roundSum (if signOf a = 1#1 ∧ signOf b = 0#1 then 0x80000000#32 else 0x00000000#32)
      (Exact.val a - Exact.val b)) := rfl

theorem not_isNaN_of_isInf {x : Word} (h : isInf x = true) : isNaN x = false := by
  simp [isNaN, ((isInf_iff x).mp h).2]

theorem sumRule_of_nan {a b : Word} (h : isNaN a = true ∨ isNaN b = true) (same : Prop) [Decidable same] (y v : Word) :
    sumRule a b same y v = nanChoice a b := if_pos (by simpa using h)

theorem sumRule_of_isInf {a b : Word} (ha : isInf a = true) (hb : isInf b = true) (same : Prop) [Decidable same]
    (y v : Word) : sumRule a b same y v = if same then a else Config.defaultNan := by
  simp [sumRule, not_isNaN_of_isInf, ha, hb]

theorem sumRule_of_isInf_left {a b : Word} (ha : isInf a = true) (hb : isFinite b = true) (same : Prop) [Decidable same]
    (y v : Word) : sumRule a b same y v = a := by
  simp [sumRule, ha, not_isNaN_of_isInf ha, not_isNaN_of_isFinite hb, not_isInf_of_isFinite hb]

theorem sumRule_of_isInf_right {a b : Word} (ha : isFinite a = true) (hb : isInf b = true) (same : Prop) [Decidable same]
    (y v : Word) : sumRule a b same y v = y := by
  simp [sumRule, hb, not_isNaN_of_isInf hb, not_isNaN_of_isFinite ha, not_isInf_of_isFinite ha]

theorem sumRule_of_isFinite {a b : Word} (ha : isFinite a = true) (hb : isFinite b = true) (same : Prop) [Decidable same]
    (y v : Word) : sumRule a b same y v = v := by
  simp [sumRule, not_isNaN_of_isFinite, not_isInf_of_isFinite, ha, hb]

/-- Only finite operands reach the last branch. -/
theorem sumRule_congr {a b y y' v v' : Word} {same same' : Prop} [Decidable same] [Decidable same'] (hsame : same ↔ same')
    (hy : isInf b = true → y = y') (hv : isFinite a = true → isFinite b = true → v = v') :
    sumRule a b same y v = sumRule a b same' y' v' := by
  refine ite_congr rfl (fun _ => rfl) fun hnan => ite_congr rfl (fun _ => if_congr hsame rfl rfl) fun _ =>
    ite_congr rfl (fun _ => rfl) fun hia => ite_congr rfl hy fun hib => ?_
  simp only [Bool.or_eq_true, not_or] at hnan
  obtain ⟨hna, hnb⟩ := hnan
  exact hv ((finite_inf_or_nan a).resolve_right (not_or.mpr ⟨hia, hna⟩))
    ((finite_inf_or_nan b).resolve_right (not_or.mpr ⟨hib, hnb⟩))

/-! ### The value rules over the exact rationals -/

/-- Rounding a whole number of units is rounding the rational it stands for, and the one is 0 when the other is. -/
theorem zero_or_roundUnits_eq_roundSum (q : ℤ) (zero : Word) :
    (if q = 0 then zero else roundUnits q) = roundSum zero (q / unitsPerOne) := by
  have hone : 0 < unitsPerOne := by decide
  have hpos : (0 : ℚ) < unitsPerOne := by exact_mod_cast hone
  have hzero : (q / unitsPerOne : ℚ) = 0 ↔ q = 0 := by simp [hpos.ne']
  have hneg : (q / unitsPerOne : ℚ) < 0 ↔ q < 0 := by rw [div_lt_iff₀ hpos, zero_mul, Int.cast_lt_zero]
  have habs : |(q / unitsPerOne : ℚ)| = (q.natAbs : ℚ) / unitsPerOne := by
    rw [abs_div, abs_of_pos hpos, Nat.cast_natAbs, Int.cast_abs]
  simp only [roundSum, hzero, Exact.signOfRat, hneg, habs, ← integerRoundingIsRoundRNE _ _ _ hone, roundUnits]

theorem addValue_eq_exact (a b : Word) : addValue a b = Exact.add a b := by
  rw [addValue_eq_sumRule, exact_add_eq_sumRule]
  refine sumRule_congr Iff.rfl (fun _ => rfl) fun ha hb => ?_
  rw [val_eq_units ha, val_eq_units hb, ← add_div, ← Int.cast_add]
  exact zero_or_roundUnits_eq_roundSum _ _

theorem subValue_eq_exact (a b : Word) : subValue a b = Exact.sub a b := by
  rw [subValue_eq_sumRule, exact_sub_eq_sumRule]
  refine sumRule_congr Iff.rfl (fun _ => rfl) fun ha hb => ?_
  rw [val_eq_units ha, val_eq_units hb, ← sub_div, ← Int.cast_sub]
  exact zero_or_roundUnits_eq_roundSum _ _

theorem answersR_add (a b : Word) (s : State) : AnswersR (.add a b) s (Exact.add a b) :=
  addValue_eq_exact a b ▸ answersR_of_exec rfl

theorem answersR_sub (a b : Word) (s : State) : AnswersR (.sub a b) s (Exact.sub a b) :=
  subValue_eq_exact a b ▸ answersR_of_exec rfl

theorem answersR_add_of_eq {a b r : Word} (h : Exact.add a b = r) (s : State) : AnswersR (.add a b) s r :=
  h ▸ answersR_add a b s

theorem answersR_sub_of_eq {a b r : Word} (h : Exact.sub a b = r) (s : State) : AnswersR (.sub a b) s r :=
  h ▸ answersR_sub a b s

/-- Settles O33: the units that the model adds are those of the rational sum. -/
theorem addGivesTheRoundedSum : Obligations.AddGivesTheRoundedSum := fun a b c s =>
  ⟨decode_requestBits 0x2#4 a b c, answersR_add a b s⟩

/-- Settles O34: the units that the model subtracts are those of the rational difference. -/
theorem subGivesTheRoundedDifference : Obligations.SubGivesTheRoundedDifference := fun a b c s =>
  ⟨decode_requestBits 0x3#4 a b c, answersR_sub a b s⟩

end Sys2Proof.Machine

/-! PROOFS. Rounding a significand that keeps its sticky bit: what 41_rounding R121 and R124 leave to the units that align their
operands or divide. -/

namespace Sys2Proof.Machine

/-! ### The sticky quotient -/

/-- A sticky quotient is at or above an even bound exactly when the exact quotient is: the sticky bit only turns an even number
into the next odd one. -/
theorem le_stickyQuotient_iff {num den T : ℕ} (hd : 0 < den) (hT : 2 ∣ T) :
    T ≤ stickyQuotient num den ↔ T * den ≤ num := by
  rw [← Nat.le_div_iff_mul_le hd, stickyQuotient]
  split_ifs
  · rw [or_one_eq]
    omega
  · rw [Nat.or_zero]

theorem le_stickyQuotient_iff_le_div {num den T : ℕ} (hd : 0 < den) (hT : 2 ∣ T) :
    T ≤ stickyQuotient num den ↔ (T : ℚ) ≤ num / den := by
  rw [le_stickyQuotient_iff hd hT, le_div_iff₀ (by exact_mod_cast hd)]
  exact_mod_cast Iff.rfl

theorem stickyQuotient_of_dvd {num den : ℕ} (h : den ∣ num) : stickyQuotient num den = num / den := by
  rw [stickyQuotient, if_neg (not_not.mpr (Nat.mod_eq_zero_of_dvd h)), Nat.or_zero]

/-- An even number may be added after the quotient or before. -/
theorem add_stickyQuotient {y : ℕ} (hy : 2 ∣ y) (x : ℕ) {den : ℕ} (hd : 0 < den) :
    y + stickyQuotient x den = stickyQuotient (y * den + x) den := by
  simp only [stickyQuotient, Nat.add_comm (y * den), Nat.add_mul_div_right _ _ hd, Nat.add_mul_mod_self_right]
  split_ifs
  · rw [or_one_eq, or_one_eq]
    omega
  · rw [Nat.or_zero, Nat.or_zero, Nat.add_comm]

/-- A sticky quotient may be taken away from an even number after the quotient or before. -/
theorem sub_stickyQuotient {x y den : ℕ} (hy : 2 ∣ y) (hd : 0 < den) (hxy : x ≤ y * den) :
    y - stickyQuotient x den = stickyQuotient (y * den - x) den := by
  have hsplit := Nat.div_add_mod x den
  have hlt := Nat.mod_lt x hd
  have hexp : y * den = (y - x / den) * den + den * (x / den) := by
    rw [Nat.mul_comm den, ← Nat.add_mul, Nat.sub_add_cancel (Nat.div_le_of_le_mul (by rwa [Nat.mul_comm]))]
  by_cases hr : x % den = 0
  · have hsub : y * den - x = (y - x / den) * den := by omega
    rw [stickyQuotient_of_dvd (Nat.dvd_of_mod_eq_zero hr), hsub, stickyQuotient_of_dvd (Nat.dvd_mul_left _ _),
      Nat.mul_div_cancel _ hd]
  · obtain ⟨k, hk⟩ : ∃ k, y - x / den = k + 1 := Nat.exists_eq_add_one.mpr (Nat.pos_of_ne_zero fun h0 => by
      rw [h0] at hexp; omega)
    have hsub : y * den - x = den - x % den + k * den := by rw [hk, Nat.add_mul] at hexp; omega
    have hdiv : (y * den - x) / den = k := by
      rw [hsub, Nat.add_mul_div_right _ _ hd, Nat.div_eq_of_lt (by omega), Nat.zero_add]
    have hmod : (y * den - x) % den ≠ 0 := by
      rw [hsub, Nat.add_mul_mod_self_right, Nat.mod_eq_of_lt (by omega)]
      omega
    rw [stickyQuotient, stickyQuotient, hdiv, if_pos hr, if_pos hmod, or_one_eq, or_one_eq]
    omega

/-! ### Rounding it -/

/-- The overflow threshold as a bound of the significand. -/
theorem threshold_le_mul_two_zpow_iff (x : ℚ) (e : ℤ) :
    2 ^ 128 - 2 ^ 103 ≤ x * 2 ^ (e - 156) ↔ (2 ^ 25 - 1) * 2 ^ (259 - e) ≤ x := by
  have hthr : (2 ^ 128 - 2 ^ 103 : ℚ) = (2 ^ 25 - 1) * 2 ^ (259 - e) * 2 ^ (e - 156) := by
    rw [mul_assoc, ← zpow_add₀ two_ne_zero, show 259 - e + (e - 156) = 103 by omega]
    norm_num
  rw [hthr, mul_le_mul_iff_left₀ (by positivity)]

/-- Both are at or above the overflow threshold, or neither is. -/
theorem threshold_le_stickyQuotient_iff {num den : ℕ} (hd : 0 < den) (hbits : 2 ^ 25 ≤ stickyQuotient num den) (e : ℤ) :
    2 ^ 128 - 2 ^ 103 ≤ tripleValue e (stickyQuotient num den) ↔
      (2 ^ 128 - 2 ^ 103 : ℚ) ≤ num / den * 2 ^ (e - 156) := by
  rw [tripleValue, threshold_le_mul_two_zpow_iff, threshold_le_mul_two_zpow_iff]
  by_cases he : e < 259
  · obtain ⟨i, rfl⟩ : ∃ i : ℕ, e = 258 - i := ⟨(258 - e).toNat, by omega⟩
    have heven := le_stickyQuotient_iff_le_div (num := num) hd (T := (2 ^ 25 - 1) * 2 ^ (i + 1)) (by rw [pow_succ]; omega)
    have hT : ((2 ^ 25 - 1) * 2 ^ (259 - (258 - (i : ℤ))) : ℚ) = (((2 ^ 25 - 1) * 2 ^ (i + 1) : ℕ) : ℚ) := by
      rw [show 259 - (258 - (i : ℤ)) = ((i + 1 : ℕ) : ℤ) by omega, zpow_natCast]
      norm_num
    rw [hT, Nat.cast_le, heven]
  · have hsmall : ((2 ^ 25 - 1) * 2 ^ (259 - e) : ℚ) ≤ (2 ^ 25 : ℕ) := by
      have hle : (2 : ℚ) ^ (259 - e) ≤ 2 ^ (0 : ℤ) := zpow_le_zpow_right₀ (by norm_num) (by omega)
      calc ((2 ^ 25 - 1) * 2 ^ (259 - e) : ℚ) ≤ (2 ^ 25 - 1) * 2 ^ (0 : ℤ) := by gcongr
        _ ≤ (2 ^ 25 : ℕ) := by norm_num
    exact iff_of_true (hsmall.trans (by exact_mod_cast hbits))
      (hsmall.trans ((le_stickyQuotient_iff_le_div hd (by omega)).mp hbits))

/-- `RoundRNE` of `x × 2^(e-156)`, where the leading bit of `x` has weight `2^L`. -/
theorem exact_roundRNE_mul_two_zpow {s : BitVec 1} {x : ℚ} {L : ℕ} {e E : ℤ} (hE : E = max (L + e - 156) (-126))
    (hlow : 2 ^ L ≤ x) (hup : x < 2 ^ (L + 1)) (hov : x * 2 ^ (e - 156) < 2 ^ 128 - 2 ^ 103) :
    Exact.roundRNE s (x * 2 ^ (e - 156)) = assembleRounded s E (Exact.rneInt (x / 2 ^ (E + 133 - e))).toNat := by
  have hx : 0 < x := (pow_pos two_pos L).trans_le hlow
  have hlow' : (2 : ℚ) ^ (L + e - 156) ≤ x * 2 ^ (e - 156) := by
    rw [add_sub_assoc, zpow_add₀ two_ne_zero, zpow_natCast]
    gcongr
  have hup' : x * 2 ^ (e - 156) < 2 ^ (L + e - 156 + 1) := by
    rw [show (L : ℤ) + e - 156 + 1 = ((L + 1 : ℕ) : ℤ) + (e - 156) by omega, zpow_add₀ two_ne_zero, zpow_natCast]
    gcongr
  have hscale : x * 2 ^ (e - 156) / 2 ^ (E - 23) = x / 2 ^ (E + 133 - e) := by
    rw [mul_div_assoc, ← zpow_sub₀ two_ne_zero, div_eq_mul_inv, ← zpow_neg]
    congr 2
    omega
  rw [← hscale]
  refine exact_roundRNE_eq_assemble_at (by positivity) hov (by omega)
    (hup'.trans_le (zpow_le_zpow_right₀ (by norm_num) (by omega))) ?_
  rcases max_choice (L + e - 156) (-126) with h | h
  · rw [hE, h]
    exact .inr hlow'
  · exact .inl (hE.trans h)

/-- A significand of 26 bits or more that keeps its sticky bit rounds as the exact value does: at least two of its bits are
rounded away. -/
theorem exact_roundRNE_stickyQuotient {s : BitVec 1} {num den : ℕ} (hd : 0 < den) (hbits : 2 ^ 25 ≤ stickyQuotient num den)
    (e : ℤ) : Exact.roundRNE s (tripleValue e (stickyQuotient num den)) =
      Exact.roundRNE s (num / den * 2 ^ (e - 156) : ℚ) := by
  have hthr := threshold_le_stickyQuotient_iff hd hbits e
  by_cases hov : (2 ^ 128 - 2 ^ 103 : ℚ) ≤ num / den * 2 ^ (e - 156)
  · rw [exact_roundRNE_overflow s hov, exact_roundRNE_overflow s (hthr.mpr hov)]
  · have hne : stickyQuotient num den ≠ 0 := by omega
    obtain ⟨hlow, hup⟩ := log2_spec hne
    have hL : 25 ≤ Nat.log2 (stickyQuotient num den) := (Nat.le_log2 hne).mpr hbits
    have hlow' := (le_stickyQuotient_iff_le_div hd (dvd_pow_self 2 (by omega))).mp hlow
    have hup' := not_le.mp (mt (le_stickyQuotient_iff_le_div hd (dvd_pow_self 2 (by omega))).mpr (not_le.mpr hup))
    obtain ⟨j, hj, hE⟩ : ∃ j : ℕ, 2 ≤ j ∧ max (Nat.log2 (stickyQuotient num den) + e - 156) (-126) + 133 - e = j :=
      ⟨(max (Nat.log2 (stickyQuotient num den) + e - 156) (-126) + 133 - e).toNat, by omega, by omega⟩
    have hround : Exact.rneInt (stickyQuotient num den / 2 ^ j : ℚ) = Exact.rneInt (num / den / 2 ^ j : ℚ) := by
      have hsticky := exact_rneInt_div (stickyQuotient num den) (den := 2 ^ j) (by positivity)
      have hexact := exact_rneInt_div num (den := den * 2 ^ j) (by positivity)
      rw [rneNat_stickyQuotient hd hj, ← hexact] at hsticky
      push_cast at hsticky
      rw [hsticky, div_div]
    rw [exact_roundRNE_mul_two_zpow rfl (by exact_mod_cast hlow') (by exact_mod_cast hup') (not_le.mp hov), tripleValue,
      exact_roundRNE_mul_two_zpow rfl (by exact_mod_cast hlow) (by exact_mod_cast hup) (not_le.mp (mt hthr.mp hov)), hE,
      zpow_natCast, hround]

end Sys2Proof.Machine

/-! PROOFS. The family of 42_fp_adder, the magnitude units `add_mags` (R161) and `sub_mags` (R162) on finite operands: each is
`RoundRNE` of the exact sum or difference. -/

namespace Sys2Proof.Machine

/-! ### Arithmetic of working triples -/

theorem tripleValue_add (e : ℤ) (x y : ℕ) : tripleValue e x + tripleValue e y = tripleValue e (x + y) := by
  rw [tripleValue, tripleValue, tripleValue, Nat.cast_add, add_mul]

theorem tripleValue_sub (e : ℤ) {x y : ℕ} (h : y ≤ x) : tripleValue e x - tripleValue e y = tripleValue e (x - y) := by
  rw [tripleValue, tripleValue, tripleValue, Nat.cast_sub h, sub_mul]

theorem tripleValue_lt_iff (e : ℤ) (x y : ℕ) : tripleValue e x < tripleValue e y ↔ x < y := by
  rw [tripleValue, tripleValue, mul_lt_mul_iff_left₀ (by positivity), Nat.cast_lt]

/-- One guard bit more lowers the exponent by one. -/
theorem tripleValue_mul_two (e : ℤ) (sig : ℕ) : tripleValue (e - 1) (sig * 2) = tripleValue e sig :=
  tripleValue_shift e sig 1

/-- A significand shifted right by `n` places with its sticky bit rounds as the exact value does, when no 1 bit is shifted out or
26 bits are left. -/
theorem exact_roundRNE_tripleValue_sticky {s : BitVec 1} {e : ℤ} {sig n : ℕ}
    (h : 2 ^ n ∣ sig ∨ 2 ^ 25 ≤ stickyQuotient sig (2 ^ n)) :
    Exact.roundRNE s (tripleValue e (stickyQuotient sig (2 ^ n))) = Exact.roundRNE s (tripleValue (e - n) sig) := by
  have hpos : 0 < 2 ^ n := Nat.two_pow_pos n
  rcases h with hdvd | hbits
  · rw [stickyQuotient_of_dvd hdvd, ← tripleValue_shift e _ n, Nat.div_mul_cancel hdvd]
  · rw [exact_roundRNE_stickyQuotient hpos hbits, tripleValue, sub_right_comm, zpow_sub₀ two_ne_zero (e - 156),
      zpow_natCast, Nat.cast_pow, Nat.cast_ofNat, div_mul_eq_mul_div, mul_div_assoc]

/-! ### Operands as working triples -/

theorem addAligned_zero (f : ℕ) : addAligned 0 f = f * 128 := by
  rw [addAligned, if_neg (not_not.mpr rfl)]
  omega

theorem addAligned_of_pos {e : ℕ} (he : 0 < e) (f : ℕ) : addAligned e f = (2 ^ 23 + f) * 64 := by
  rw [addAligned, if_pos he.ne']
  omega

theorem addAligned_lt (x : Word) : addAligned (expNat x) (fracNat x) < 2 ^ 30 := by
  have hf := fracNat_lt x
  rw [addAligned]
  split_ifs <;> omega

theorem dvd_addAligned (e f : ℕ) : 64 ∣ addAligned e f := by
  rw [addAligned]
  split_ifs <;> omega

/-- The operands of `sub_mags` are those of `add_mags` with one more guard bit. -/
theorem subAligned_eq (e f : ℕ) : subAligned e f = addAligned e f * 2 := by
  rw [subAligned, addAligned]
  split_ifs <;> omega

theorem subLarger_eq {e f : ℕ} (he : 0 < e) (hf : f < 2 ^ 23) : subLarger f = addAligned e f * 2 := by
  rw [subLarger, addAligned_of_pos he, Nat.or_comm, ← Nat.two_pow_add_eq_or_of_lt (i := 30) (b := f * 2 ^ 7) (by omega) 1]
  omega

/-- The operand that `add_mags` aligns has the value of the pattern at the pattern's own exponent field, a subnormal too: its
fraction is doubled because its exponent field is 0 and not 1. -/
theorem abs_val_eq_tripleValue {x : Word} (h : isFinite x = true) :
    |Exact.val x| = tripleValue (expNat x) (addAligned (expNat x) (fracNat x)) := by
  have hpow : (2 : ℚ) ^ (-156 : ℤ) = (2 ^ 156)⁻¹ := by rw [zpow_neg]; norm_cast
  rw [abs_val_eq_magUnits h, tripleValue, sub_eq_add_neg, zpow_add₀ two_ne_zero, hpow, zpow_natCast]
  rcases Nat.eq_zero_or_pos (expNat x) with he | he
  · rw [magUnits_of_exp_zero he, he, addAligned_zero]
    push_cast
    ring
  · obtain ⟨k, hk⟩ : ∃ k, expNat x = k + 1 := ⟨expNat x - 1, by omega⟩
    rw [magUnits_of_exp_pos he, addAligned_of_pos he, hk, Nat.add_sub_cancel]
    push_cast
    ring

theorem abs_val_lt_of_expNat_lt {x y : Word} (hx : isFinite x = true) (hy : isFinite y = true) (h : expNat x < expNat y) :
    |Exact.val x| < |Exact.val y| := by
  have hnormal := addAligned_of_pos (by omega : 0 < expNat y) (fracNat y)
  rw [abs_val_eq_tripleValue hx, abs_val_eq_tripleValue hy]
  calc tripleValue (expNat x) (addAligned (expNat x) (fracNat x)) < 2 ^ ((expNat x : ℤ) + ((30 : ℕ) - 156)) :=
        tripleValue_lt_two_zpow (addAligned_lt x)
    _ ≤ 2 ^ ((expNat y : ℤ) + ((29 : ℕ) - 156)) := zpow_le_zpow_right₀ (by norm_num) (by omega)
    _ ≤ tripleValue (expNat y) (addAligned (expNat y) (fracNat y)) := two_zpow_le_tripleValue (by omega)

/-- Between patterns of one exponent the fractions decide. -/
theorem abs_val_lt_iff_of_expNat_eq {x y : Word} (hx : isFinite x = true) (hy : isFinite y = true) (h : expNat x = expNat y) :
    |Exact.val x| < |Exact.val y| ↔ fracNat x < fracNat y := by
  rw [abs_val_eq_tripleValue hx, abs_val_eq_tripleValue hy, h, tripleValue_lt_iff, addAligned, addAligned]
  split_ifs <;> omega

/-! ### Exact results -/

/-- A value of at most 24 bits in units of its last place is packed as it stands. -/
theorem exact_roundRNE_of_exact {s : BitVec 1} {e n : ℕ} (he : e ≤ 253) (hn : n < 2 ^ 24) (hbits : e = 0 ∨ 2 ^ 23 ≤ n) :
    Exact.roundRNE s (tripleValue e (n * 128)) = pattern s (e + n / 2 ^ 23) (n % 2 ^ 23) := by
  have hov := mt (threshold_le_tripleValue_iff (e := e) (sig := n * 128) (by omega) (by omega)).mp (by omega)
  rw [exact_roundRNE_tripleValue (n := 0) (not_le.mp hov) (by omega) (by omega) (by omega), pow_zero, one_mul,
    rneNat_of_mul n (by omega), Nat.cast_zero, add_zero, assembleRounded_eq_pattern (by omega) (by omega)]

/-- A finite pattern is what its own value rounds to. -/
theorem exact_roundRNE_abs_val {x : Word} (h : isFinite x = true) : Exact.roundRNE (signOf x) |Exact.val x| = x := by
  have hf := fracNat_lt x
  have hexp := (isFinite_iff x).mp h
  rw [abs_val_eq_tripleValue h]
  conv_rhs => rw [← pattern_fields x]
  rcases Nat.eq_zero_or_pos (expNat x) with he | he
  · rw [he, addAligned_zero, exact_roundRNE_of_exact (by omega) (by omega) (.inl rfl), Nat.div_eq_of_lt hf,
      Nat.mod_eq_of_lt hf]
  · obtain ⟨k, hk⟩ : ∃ k, expNat x = k + 1 := ⟨expNat x - 1, by omega⟩
    rw [addAligned_of_pos he, ← tripleValue_mul_two, hk, Nat.mul_assoc, Nat.cast_add_one, add_sub_cancel_right,
      exact_roundRNE_of_exact (by omega) (by omega) (.inr (by omega))]
    congr 1 <;> omega

/-! ### add_mags -/

theorem addMagsTail_eq {s : BitVec 1} {e : ℤ} {z : ℕ} (hlow : 2 ^ 29 ≤ z) (hup : z < 2 ^ 31) :
    addMagsTail s e z = .ok (Exact.roundRNE s (tripleValue e z)) := by
  rw [addMagsTail]
  split_ifs with h
  · rw [roundAndPack_eq (by omega) (by omega), tripleValue_mul_two]
  · exact roundAndPack_eq hup (by omega)

/-- A number below an even bound is below it with its sticky bit too. -/
theorem jam_lt {x W n T : ℕ} (hW : x < 2 ^ W) (hT : 2 ∣ T) (h : x < T * 2 ^ n) : jam W x n < T := by
  rw [jam_eq_stickyQuotient hW]
  exact not_le.mp (mt (le_stickyQuotient_iff (Nat.two_pow_pos n) hT).mp (not_le.mpr h))

/-- Operands of different exponents: the smaller one is aligned with its sticky bit, which rounding does not miss. -/
theorem addMagsTail_of_expNat_lt {x y : Word} (s : BitVec 1) (hx : isFinite x = true) (hy : isFinite y = true)
    (h : expNat x < expNat y) : addMagsTail s (expNat y) (0x20000000 +
      jam 32 (addAligned (expNat x) (fracNat x)) (expNat y - expNat x) + fracNat y * 2 ^ 6) =
      .ok (Exact.roundRNE s (|Exact.val x| + |Exact.val y|)) := by
  obtain ⟨d, hd⟩ : ∃ d : ℕ, expNat y - expNat x = d := ⟨_, rfl⟩
  have hexp : (expNat x : ℤ) = expNat y - d := by omega
  have hpos : 0 < 2 ^ d := Nat.two_pow_pos d
  have hltX := addAligned_lt x
  have hltY := addAligned_lt y
  have hdvd := dvd_addAligned (expNat y) (fracNat y)
  have hnormal := addAligned_of_pos (by omega : 0 < expNat y) (fracNat y)
  rw [abs_val_eq_tripleValue hx, abs_val_eq_tripleValue hy, hexp, hd]
  generalize addAligned (expNat x) (fracNat x) = u at *
  generalize addAligned (expNat y) (fracNat y) = v at *
  have hjam : jam 32 u d < 2 ^ 30 := jam_lt (by omega) (by norm_num) (hltX.trans_le (Nat.le_mul_of_pos_right _ hpos))
  have hz : 0x20000000 + jam 32 u d + fracNat y * 2 ^ 6 = v + jam 32 u d := by omega
  have hsticky := jam_eq_stickyQuotient (W := 32) (x := u) (n := d) (by omega)
  have hsum := add_stickyQuotient (by omega : 2 ∣ v) u hpos
  rw [hz, addMagsTail_eq (by omega) (by omega), hsticky, hsum, exact_roundRNE_tripleValue_sticky (.inr (by omega)),
    ← tripleValue_add, tripleValue_shift, add_comm]

/-- Operands of one exponent: the sum is exact in 25 bits, and is packed as it stands when its last bit is 0 and it does not
overflow. -/
theorem addMags_of_expNat_eq {a b : Word} (s : BitVec 1) (ha : isFinite a = true) (hb : isFinite b = true)
    (h : expNat a = expNat b) : addMags a b s = .ok (Exact.roundRNE s (|Exact.val a| + |Exact.val b|)) := by
  have hfa := fracNat_lt a
  have hfb := fracNat_lt b
  have hea := (isFinite_iff a).mp ha
  rw [abs_val_eq_tripleValue ha, abs_val_eq_tripleValue hb, ← h, tripleValue_add, addMags, if_pos h, if_neg hea.ne]
  rcases Nat.eq_zero_or_pos (expNat a) with he | he
  · rw [if_pos he, he, addAligned_zero, addAligned_zero, ← Nat.add_mul,
      exact_roundRNE_of_exact (by omega) (by omega) (.inl rfl), packRaw_of_lt (by omega) (by omega)
      (Nat.mod_lt _ (by norm_num)), Int.toNat_natCast, Nat.zero_add]
  · rw [if_neg he.ne', addAligned_of_pos he, addAligned_of_pos he, show (2 ^ 23 + fracNat a) * 64 +
      (2 ^ 23 + fracNat b) * 64 = (0x01000000 + fracNat a + fracNat b) * 64 by omega]
    dsimp only
    generalize hz : 0x01000000 + fracNat a + fracNat b = z
    split_ifs with heven
    · rw [show z * 64 = z / 2 * 128 by omega, exact_roundRNE_of_exact (by omega) (by omega) (.inr (by omega)),
        packRaw_of_lt (by omega) (by omega) (Nat.mod_lt _ (by norm_num)),
        show ((expNat a : ℤ) + 1).toNat = expNat a + z / 2 / 2 ^ 23 by omega]
    · exact roundAndPack_eq (by omega) (by omega)

theorem addMags_of_isFinite {a b : Word} (s : BitVec 1) (ha : isFinite a = true) (hb : isFinite b = true) :
    addMags a b s = .ok (Exact.roundRNE s (|Exact.val a| + |Exact.val b|)) := by
  have hea := (isFinite_iff a).mp ha
  have heb := (isFinite_iff b).mp hb
  rcases lt_trichotomy (expNat a) (expNat b) with h | h | h
  · rw [addMags, if_neg h.ne, if_pos h, if_neg heb.ne, addMagsTail_of_expNat_lt s ha hb h]
  · exact addMags_of_expNat_eq s ha hb h
  · rw [addMags, if_neg h.ne', if_neg h.not_gt, if_neg hea.ne, Nat.add_right_comm, addMagsTail_of_expNat_lt s hb ha h,
      add_comm]

/-! ### sub_mags -/

theorem normRoundAndPack_eq (s : BitVec 1) (e : ℤ) {sig : ℕ} (h0 : 0 < sig) (hsig : sig < 2 ^ 31) :
    normRoundAndPack s e sig = .ok (Exact.roundRNE s (tripleValue e sig)) := normRoundAndPackIsRoundRNE s e sig h0 hsig

/-- Operands of different exponents: when the smaller one is shifted by one place nothing is lost, and when it is shifted
further at least 30 bits of the difference are left. -/
theorem normRoundAndPack_of_expNat_lt {x y : Word} (s : BitVec 1) (hx : isFinite x = true) (hy : isFinite y = true)
    (h : expNat x < expNat y) : normRoundAndPack s ((expNat y : ℤ) - 1)
      (subLarger (fracNat y) - jam 32 (subAligned (expNat x) (fracNat x)) (expNat y - expNat x)) =
      .ok (Exact.roundRNE s (|Exact.val y| - |Exact.val x|)) := by
  obtain ⟨d, hd⟩ : ∃ d : ℕ, expNat y - expNat x = d + 1 := ⟨expNat y - expNat x - 1, by omega⟩
  have hexp : (expNat x : ℤ) - 1 = expNat y - 1 - (d + 1 : ℕ) := by omega
  have hy0 : 0 < expNat y := by omega
  have hltX := addAligned_lt x
  have hltY := addAligned_lt y
  have hdvdX := dvd_addAligned (expNat x) (fracNat x)
  have hdvdY := dvd_addAligned (expNat y) (fracNat y)
  have hnormal := addAligned_of_pos hy0 (fracNat y)
  rw [abs_val_eq_tripleValue hx, abs_val_eq_tripleValue hy, subAligned_eq, subLarger_eq hy0 (fracNat_lt y), hd,
    ← tripleValue_mul_two (expNat x), ← tripleValue_mul_two (expNat y), hexp]
  generalize addAligned (expNat x) (fracNat x) = u at *
  generalize addAligned (expNat y) (fracNat y) = v at *
  have hpos : 0 < 2 ^ d := Nat.two_pow_pos d
  have hle : u * 2 ≤ v * 2 * 2 ^ (d + 1) :=
    (by omega : u * 2 ≤ v * 2 * 2).trans (Nat.mul_le_mul_left _ (by rw [pow_succ]; omega))
  have hjam : jam 32 (u * 2) (d + 1) < 2 ^ 30 := jam_lt (by omega) (by norm_num) (by rw [pow_succ]; omega)
  have hsticky := jam_eq_stickyQuotient (W := 32) (x := u * 2) (n := d + 1) (by omega)
  have hdiff := sub_stickyQuotient (Nat.dvd_mul_left 2 v) (Nat.two_pow_pos (d + 1)) hle
  have hkept : 2 ^ (d + 1) ∣ v * 2 * 2 ^ (d + 1) - u * 2 ∨
      2 ^ 25 ≤ stickyQuotient (v * 2 * 2 ^ (d + 1) - u * 2) (2 ^ (d + 1)) := by
    rcases Nat.eq_zero_or_pos d with rfl | hd0
    · exact .inl (by omega)
    · obtain ⟨i, rfl⟩ : ∃ i, d = i + 1 := ⟨d - 1, by omega⟩
      have hpos' : 0 < 2 ^ i := Nat.two_pow_pos i
      have hjam' : jam 32 (u * 2) (i + 1 + 1) < 2 ^ 29 := jam_lt (by omega) (by norm_num) (by rw [pow_succ, pow_succ]; omega)
      exact .inr (by omega)
  rw [normRoundAndPack_eq _ _ (by omega) (by omega), hsticky, hdiff, exact_roundRNE_tripleValue_sticky hkept,
    ← tripleValue_sub _ hle, tripleValue_shift]

/-- Operands of one exponent: the difference is exact. -/
theorem normRoundAndPack_of_expNat_eq {x y : Word} (s : BitVec 1) (hx : isFinite x = true) (hy : isFinite y = true)
    (h : expNat x = expNat y) (hlt : fracNat x < fracNat y) :
    normRoundAndPack s (max (expNat y : ℤ) 1) ((fracNat y - fracNat x) * 2 ^ 6) =
      .ok (Exact.roundRNE s (|Exact.val y| - |Exact.val x|)) := by
  have hfy := fracNat_lt y
  rw [abs_val_eq_tripleValue hx, abs_val_eq_tripleValue hy, h, normRoundAndPack_eq _ _ (by omega) (by omega)]
  rcases Nat.eq_zero_or_pos (expNat y) with he | he
  · rw [he, addAligned_zero, addAligned_zero, tripleValue_sub _ (by omega), show fracNat y * 128 - fracNat x * 128 =
      (fracNat y - fracNat x) * 2 ^ 6 * 2 by omega]
    exact congrArg (fun q => Except.ok (Exact.roundRNE s q)) (tripleValue_mul_two 1 _).symm
  · rw [addAligned_of_pos he, addAligned_of_pos he, tripleValue_sub _ (by omega), max_eq_left (by omega)]
    congr 3
    omega

theorem subMags_of_isFinite {a b : Word} (s : BitVec 1) (ha : isFinite a = true) (hb : isFinite b = true) :
    subMags a b s = .ok (if |Exact.val a| = |Exact.val b| then 0x00000000#32
      else if |Exact.val a| < |Exact.val b| then Exact.roundRNE (~~~s) (|Exact.val b| - |Exact.val a|)
      else Exact.roundRNE s (|Exact.val a| - |Exact.val b|)) := by
  have hea := (isFinite_iff a).mp ha
  have heb := (isFinite_iff b).mp hb
  rcases lt_trichotomy (expNat a) (expNat b) with h | h | h
  · have hval := abs_val_lt_of_expNat_lt ha hb h
    rw [subMags, if_neg h.ne, if_pos h, if_neg heb.ne, if_neg hval.ne, if_pos hval,
      normRoundAndPack_of_expNat_lt _ ha hb h]
  · have hltab := abs_val_lt_iff_of_expNat_eq ha hb h
    have hltba := abs_val_lt_iff_of_expNat_eq hb ha h.symm
    rw [subMags, if_pos h, if_neg hea.ne]
    rcases lt_trichotomy (fracNat a) (fracNat b) with hf | hf | hf
    · have hval := hltab.mpr hf
      rw [if_neg hf.ne, if_neg hf.not_gt, if_neg hval.ne, if_pos hval, h, normRoundAndPack_of_expNat_eq _ ha hb h hf]
    · rw [if_pos hf, if_pos (le_antisymm (not_lt.mp (mt hltba.mp hf.not_gt)) (not_lt.mp (mt hltab.mp hf.not_lt)))]
    · have hval := hltba.mpr hf
      rw [if_neg hf.ne', if_pos hf, if_neg hval.ne', if_neg hval.not_gt, normRoundAndPack_of_expNat_eq _ hb ha h.symm hf]
  · have hval := abs_val_lt_of_expNat_lt hb ha h
    rw [subMags, if_neg h.ne', if_neg h.not_gt, if_neg hea.ne, if_neg hval.ne', if_neg hval.not_gt,
      normRoundAndPack_of_expNat_lt _ hb ha h]

/-- Settles O36: by how the exponents of the operands compare. -/
theorem magnitudeUnitsAreExact : Obligations.MagnitudeUnitsAreExact := fun _ _ s ha hb =>
  ⟨addMags_of_isFinite s ha hb, subMags_of_isFinite s ha hb⟩

end Sys2Proof.Machine

/-! PROOFS. The family of 42_fp_adder, the reference datapath: the dispatch by effective sign (R160) gives the value rules. -/

namespace Sys2Proof.Machine

/-! ### Sums of signed magnitudes -/

theorem sign_cases (s : BitVec 1) : s = 0#1 ∨ s = 1#1 := by revert s; decide

theorem eq_not_iff_ne (s t : BitVec 1) : s = ~~~t ↔ s ≠ t := by revert s t; decide

/-- The magnitude `x` with the sign `s`. -/
def withSign (s : BitVec 1) (x : ℚ) : ℚ := if s = 1#1 then -x else x

@[simp] theorem withSign_zero (s : BitVec 1) : withSign s 0 = 0 := by simp [withSign]

theorem withSign_neg (s : BitVec 1) (x : ℚ) : withSign s (-x) = -withSign s x := by
  unfold withSign
  split_ifs <;> rfl

theorem withSign_not (s : BitVec 1) (x : ℚ) : withSign (~~~s) x = withSign s (-x) := by
  rcases sign_cases s with rfl | rfl <;> simp [withSign]

theorem withSign_add (s : BitVec 1) (x y : ℚ) : withSign s x + withSign s y = withSign s (x + y) := by
  unfold withSign
  split_ifs <;> ring

theorem val_eq_withSign {x : Word} (h : isFinite x = true) : Exact.val x = withSign (signOf x) |Exact.val x| := by
  have hpos : (0 : ℚ) ≤ magUnits x / unitsPerOne := by positivity
  rw [val_eq_units h, units, withSign]
  split_ifs
  · rw [Int.cast_neg, Int.cast_natCast, neg_div, abs_neg, abs_of_nonneg hpos]
  · rw [Int.cast_natCast, abs_of_nonneg hpos]

/-- A sum that is not 0 rounds its magnitude with its sign. -/
theorem roundSum_withSign (zero : Word) (s : BitVec 1) {x : ℚ} (hx : 0 < x) :
    roundSum zero (withSign s x) = Exact.roundRNE s x := by
  rcases sign_cases s with rfl | rfl
  · simp [roundSum, withSign, Exact.signOfRat, hx.ne', hx.not_gt, abs_of_pos hx]
  · simp [roundSum, withSign, Exact.signOfRat, hx.ne', hx, abs_of_pos hx]

/-- The sum of two magnitudes of signs `s` and `t`, by the units that add and subtract magnitudes (42_fp_adder R160 to R162). -/
def magnitudeSum (s t : BitVec 1) (x y : ℚ) : Word :=
  if s = t then Exact.roundRNE s (x + y)
  else if x = y then 0x00000000#32
  else if x < y then Exact.roundRNE (~~~s) (y - x)
  else Exact.roundRNE s (x - y)

theorem magnitudeSum_self (s : BitVec 1) (x y : ℚ) : magnitudeSum s s x y = Exact.roundRNE s (x + y) := if_pos rfl

theorem magnitudeSum_of_ne {s t : BitVec 1} (h : s ≠ t) (x y : ℚ) : magnitudeSum s t x y =
    if x = y then 0x00000000#32 else if x < y then Exact.roundRNE (~~~s) (y - x) else Exact.roundRNE s (x - y) := if_neg h

/-- The sum of the value rules, whose zero is -0 only when both signs are 1, is the sum of the magnitudes. -/
theorem roundSum_eq_magnitudeSum (s t : BitVec 1) {x y : ℚ} (hx : 0 ≤ x) (hy : 0 ≤ y) :
    roundSum (if s = 1#1 ∧ t = 1#1 then 0x80000000#32 else 0x00000000#32) (withSign s x + withSign t y) =
      magnitudeSum s t x y := by
  by_cases hst : s = t
  · subst hst
    rw [magnitudeSum_self, withSign_add]
    rcases (add_nonneg hx hy).eq_or_lt with h0 | hpos
    · rw [← h0, exact_roundRNE_zero, withSign_zero, roundSum, if_pos rfl]
      revert s
      decide
    · exact roundSum_withSign _ s hpos
  · obtain rfl : t = ~~~s := (eq_not_iff_ne t s).mpr (Ne.symm hst)
    rw [magnitudeSum_of_ne hst]
    rcases lt_trichotomy x y with h | rfl | h
    · have hflip : withSign s x = withSign (~~~s) (-x) := by rw [withSign_not, neg_neg]
      rw [if_neg h.ne, if_pos h, hflip, withSign_add, neg_add_eq_sub]
      exact roundSum_withSign _ _ (sub_pos.mpr h)
    · rw [if_pos rfl, withSign_not, withSign_add, add_neg_cancel, withSign_zero, roundSum, if_pos rfl]
      revert s
      decide
    · rw [if_neg h.ne', if_neg h.not_gt, withSign_not, withSign_add, ← sub_eq_add_neg]
      exact roundSum_withSign _ _ (sub_pos.mpr h)

/-! ### The value rules by effective sign -/

/-- The sum of `a` and `b` when `b` counts with the sign `t`. -/
def effectiveSum (a b : Word) (t : BitVec 1) : Word :=
  sumRule a b (signOf a = t) (signedInf t) (magnitudeSum (signOf a) t |Exact.val a| |Exact.val b|)

theorem eq_signedInf {x : Word} (h : isInf x = true) : x = signedInf (signOf x) := by
  obtain ⟨he, hf⟩ := (isInf_iff x).mp h
  rw [signedInf_eq_pattern, ← he, ← hf, pattern_fields]

theorem signedInf_xor_signBit (s : BitVec 1) : signedInf s ^^^ 0x80000000#32 = signedInf (~~~s) := by revert s; decide

theorem exact_add_eq_effectiveSum (a b : Word) : Exact.add a b = effectiveSum a b (signOf b) := by
  rw [exact_add_eq_sumRule]
  refine sumRule_congr Iff.rfl eq_signedInf fun ha hb => ?_
  rw [← roundSum_eq_magnitudeSum _ _ (abs_nonneg _) (abs_nonneg _), ← val_eq_withSign ha, ← val_eq_withSign hb]

theorem exact_sub_eq_effectiveSum (a b : Word) : Exact.sub a b = effectiveSum a b (~~~signOf b) := by
  have hneg : ∀ t : BitVec 1, ~~~t = 1#1 ↔ t = 0#1 := by decide
  rw [exact_sub_eq_sumRule]
  refine sumRule_congr (eq_not_iff_ne _ _).symm (fun hb => ?_) fun ha hb => ?_
  · rw [← signedInf_xor_signBit, ← eq_signedInf hb]
  · rw [← roundSum_eq_magnitudeSum _ _ (abs_nonneg _) (abs_nonneg _), ← val_eq_withSign ha, withSign_not, withSign_neg,
      ← val_eq_withSign hb, ← sub_eq_add_neg]
    simp only [hneg]

/-! ### The magnitude units beyond the finite operands -/

theorem addMags_of_nan {a b : Word} (h : isNaN a = true ∨ isNaN b = true) (s : BitVec 1) :
    addMags a b s = .ok (nanChoice a b) := by
  have ha := expNat_lt a
  have hb := expNat_lt b
  have hfields := h
  rw [isNaN_iff, isNaN_iff] at hfields
  rw [addMags]
  split_ifs
  -- what is left after the branches that no NaN reaches
  any_goals omega
  all_goals exact propagateNan_of_nan h

theorem subMags_of_nan {a b : Word} (h : isNaN a = true ∨ isNaN b = true) (s : BitVec 1) :
    subMags a b s = .ok (nanChoice a b) := by
  have ha := expNat_lt a
  have hb := expNat_lt b
  have hfields := h
  rw [isNaN_iff, isNaN_iff] at hfields
  rw [subMags]
  split_ifs
  any_goals omega
  all_goals exact propagateNan_of_nan h

theorem addMags_of_isInf {a b : Word} (ha : isInf a = true) (hb : isInf b = true) (s : BitVec 1) :
    addMags a b s = .ok (signedInf s) := by
  obtain ⟨hea, hfa⟩ := (isInf_iff a).mp ha
  obtain ⟨heb, hfb⟩ := (isInf_iff b).mp hb
  simp [addMags, hea, hfa, heb, hfb]

theorem addMags_of_isInf_left {a b : Word} (ha : isInf a = true) (hb : isFinite b = true) (s : BitVec 1) :
    addMags a b s = .ok (signedInf s) := by
  obtain ⟨hea, hfa⟩ := (isInf_iff a).mp ha
  have heb := (isFinite_iff b).mp hb
  simp [addMags, hea, hfa, heb.ne', heb.not_gt]

theorem addMags_of_isInf_right {a b : Word} (ha : isFinite a = true) (hb : isInf b = true) (s : BitVec 1) :
    addMags a b s = .ok (signedInf s) := by
  have hea := (isFinite_iff a).mp ha
  obtain ⟨heb, hfb⟩ := (isInf_iff b).mp hb
  simp [addMags, heb, hfb, hea.ne, hea]

theorem subMags_of_isInf {a b : Word} (ha : isInf a = true) (hb : isInf b = true) (s : BitVec 1) :
    subMags a b s = .ok Config.defaultNan := by
  obtain ⟨hea, hfa⟩ := (isInf_iff a).mp ha
  obtain ⟨heb, hfb⟩ := (isInf_iff b).mp hb
  simp [subMags, hea, hfa, heb, hfb, invalidResult]

theorem subMags_of_isInf_left {a b : Word} (ha : isInf a = true) (hb : isFinite b = true) (s : BitVec 1) :
    subMags a b s = .ok (signedInf s) := by
  obtain ⟨hea, hfa⟩ := (isInf_iff a).mp ha
  have heb := (isFinite_iff b).mp hb
  simp [subMags, hea, hfa, heb.ne', heb.not_gt]

theorem subMags_of_isInf_right {a b : Word} (ha : isFinite a = true) (hb : isInf b = true) (s : BitVec 1) :
    subMags a b s = .ok (signedInf (~~~s)) := by
  have hea := (isFinite_iff a).mp ha
  obtain ⟨heb, hfb⟩ := (isInf_iff b).mp hb
  simp [subMags, heb, hfb, hea.ne, hea]

/-! ### The dispatch -/

/-- The dispatch by effective sign, when `b` counts with the sign `t` (42_fp_adder R160). -/
def dispatchBySign (a b : Word) (t : BitVec 1) : Except Refusal Word :=
  if signOf a = t then addMags a b (signOf a) else subMags a b (signOf a)

theorem addDatapath_eq_dispatch (a b : Word) : addDatapath a b = dispatchBySign a b (signOf b) := rfl

theorem subDatapath_eq_dispatch (a b : Word) : subDatapath a b = dispatchBySign a b (~~~signOf b) := by
  simp only [dispatchBySign, subDatapath, eq_not_iff_ne, ne_eq, ite_not]

/-- A datapath that dispatches by effective sign gives the sum, by the classes of the operands. -/
theorem dispatchBySign_eq (a b : Word) (t : BitVec 1) : dispatchBySign a b t = .ok (effectiveSum a b t) := by
  unfold dispatchBySign effectiveSum
  rcases finite_inf_or_nan a with ha | ha | ha
  · rcases finite_inf_or_nan b with hb | hb | hb
    · rw [sumRule_of_isFinite ha hb, addMags_of_isFinite _ ha hb, subMags_of_isFinite _ ha hb, magnitudeSum]
      split_ifs <;> rfl
    · rw [sumRule_of_isInf_right ha hb, addMags_of_isInf_right ha hb, subMags_of_isInf_right ha hb]
      split_ifs with hst
      · rw [hst]
      · rw [(eq_not_iff_ne t (signOf a)).mpr (Ne.symm hst)]
    · rw [sumRule_of_nan (.inr hb), addMags_of_nan (.inr hb), subMags_of_nan (.inr hb), ite_self]
  · rcases finite_inf_or_nan b with hb | hb | hb
    · rw [sumRule_of_isInf_left ha hb, addMags_of_isInf_left ha hb, subMags_of_isInf_left ha hb, ite_self, ← eq_signedInf ha]
    · rw [sumRule_of_isInf ha hb, addMags_of_isInf ha hb, subMags_of_isInf ha hb, ← eq_signedInf ha]
      split_ifs <;> rfl
    · rw [sumRule_of_nan (.inr hb), addMags_of_nan (.inr hb), subMags_of_nan (.inr hb), ite_self]
  · rw [sumRule_of_nan (.inl ha), addMags_of_nan (.inl ha), subMags_of_nan (.inl ha), ite_self]

/-- Settles O37: both datapaths dispatch by the effective sign of `b`, and both value rules are the sum with that sign. -/
theorem adderDatapathGivesTheValueRule : Obligations.AdderDatapathGivesTheValueRule := fun a b => by
  rw [addDatapath_eq_dispatch, subDatapath_eq_dispatch, dispatchBySign_eq, dispatchBySign_eq, exact_add_eq_effectiveSum,
    exact_sub_eq_effectiveSum]
  exact ⟨rfl, rfl⟩

end Sys2Proof.Machine

/-! PROOFS. The family of 42_fp_adder, the laws of ADD and SUB (R172). -/

namespace Sys2Proof.Machine

/-! ### Commutativity and identity -/

theorem exact_add_comm (a b : Word) : Exact.add a b = Exact.add b a := by
  rw [exact_add_eq_sumRule, exact_add_eq_sumRule]
  rcases finite_inf_or_nan a with ha | ha | ha
  · rcases finite_inf_or_nan b with hb | hb | hb
    · rw [sumRule_of_isFinite ha hb, sumRule_of_isFinite hb ha, add_comm]
      simp only [and_comm]
    · rw [sumRule_of_isInf_right ha hb, sumRule_of_isInf_left hb ha]
    · rw [sumRule_of_nan (.inr hb), sumRule_of_nan (.inl hb), nanChoice_comm]
  · rcases finite_inf_or_nan b with hb | hb | hb
    · rw [sumRule_of_isInf_left ha hb, sumRule_of_isInf_right hb ha]
    · rw [sumRule_of_isInf ha hb, sumRule_of_isInf hb ha]
      refine ite_congr (propext eq_comm) (fun h => ?_) fun _ => rfl
      rw [eq_signedInf ha, eq_signedInf hb, h]
    · rw [sumRule_of_nan (.inr hb), sumRule_of_nan (.inl hb), nanChoice_comm]
  · rw [sumRule_of_nan (.inl ha), sumRule_of_nan (.inr ha), nanChoice_comm]

theorem abs_val_eq_zero_iff {x : Word} (h : isFinite x = true) : |Exact.val x| = 0 ↔ isZero x = true := by
  rw [abs_val_eq_magUnits h, div_eq_zero_iff, or_iff_left (by positivity), Nat.cast_eq_zero, magUnits_eq_zero_iff]

/-- Adding a zero gives the other operand back, but for +0 added to -0. -/
theorem exact_add_signedZero {a : Word} {t : BitVec 1} (hnan : isNaN a = false) (h : a = signedZero 1#1 → t = 1#1) :
    Exact.add a (signedZero t) = a := by
  have hz := roundsUnits_zero t
  rw [exact_add_eq_effectiveSum, hz.sign, effectiveSum]
  rcases finite_inf_or_nan a with ha | ha | ha
  · rw [sumRule_of_isFinite ha hz.finite, (abs_val_eq_zero_iff hz.finite).mpr (isZero_signedZero t), magnitudeSum, add_zero,
      sub_zero, exact_roundRNE_abs_val ha]
    split_ifs with hst hzero hneg
    · rfl
    · have hself : a = signedZero (signOf a) :=
        eq_signedZero rfl ((magUnits_eq_zero_iff a).mpr ((abs_val_eq_zero_iff ha).mp hzero))
      rcases signOf_cases a with hs | hs
      · rw [hself, hs]
        rfl
      · exact absurd (hs.trans (h (by rw [hself, hs])).symm) hst
    · exact absurd hneg (abs_nonneg _).not_gt
    · rfl
  · exact sumRule_of_isInf_left ha hz.finite _ _ _
  · simp [hnan] at ha

theorem exact_sub_self {a : Word} (h : isFinite a = true) : Exact.sub a a = 0x00000000#32 := by
  have hne : signOf a ≠ ~~~signOf a := fun hs => (eq_not_iff_ne _ _).mp hs rfl
  rw [exact_sub_eq_effectiveSum, effectiveSum, sumRule_of_isFinite h h, magnitudeSum_of_ne hne, if_pos rfl]

/-! ### Negation of an operand -/

theorem signOf_xor_signBit (x : Word) : signOf (x ^^^ 0x80000000#32) = ~~~signOf x := by
  have hbit : BitVec.extractLsb' 31 1 0x80000000#32 = 1#1 := by decide
  have hflip : ∀ s : BitVec 1, s ^^^ 1#1 = ~~~s := by decide
  rw [signOf, BitVec.extractLsb'_xor, hbit, hflip, signOf]

theorem expNat_xor_signBit (x : Word) : expNat (x ^^^ 0x80000000#32) = expNat x := by
  simp [expNat, expOf, BitVec.extractLsb'_xor]

theorem fracNat_xor_signBit (x : Word) : fracNat (x ^^^ 0x80000000#32) = fracNat x := by
  simp [fracNat, fracOf, BitVec.extractLsb'_xor]

theorem isInf_xor_signBit (x : Word) : isInf (x ^^^ 0x80000000#32) = isInf x := by
  rw [isInf, isInf, expNat_xor_signBit, fracNat_xor_signBit]

theorem val_of_expNat_eq_255 {x : Word} (h : expNat x = 255) : Exact.val x = 0 := by
  simp [Exact.val, isZero, isSubnormal, isNormal, h]

theorem abs_val_xor_signBit (x : Word) : |Exact.val (x ^^^ 0x80000000#32)| = |Exact.val x| := by
  have hexp := expNat_xor_signBit x
  by_cases h : expNat x = 255
  · rw [val_of_expNat_eq_255 h, val_of_expNat_eq_255 (hexp.trans h)]
  · have hfinite := (isFinite_iff_ne x).mpr h
    rw [abs_val_eq_magUnits hfinite, abs_val_eq_magUnits ((isFinite_iff_ne _).mpr (hexp ▸ h)), magUnits, hexp,
      fracNat_xor_signBit, ← magUnits]

theorem signOf_quiet (x : Word) : signOf (quiet x) = signOf x := by
  simp [signOf, quiet, BitVec.extractLsb'_or]

/-- A quiet NaN has its quiet bit already. -/
theorem quiet_eq_self_of_not_isSignaling {x : Word} (hnan : isNaN x = true) (hsig : isSignaling x = false) : quiet x = x := by
  obtain ⟨hexp, hfrac⟩ := (isNaN_iff x).mp hnan
  have hbit : x.getLsbD 22 = true := by
    by_contra hclear
    rw [Bool.not_eq_true] at hclear
    exact Bool.eq_false_iff.mp hsig ((isSignaling_iff x).mpr
      ⟨hexp, hclear, mt (fracNat_eq_zero_iff_of_not_quietBit hclear).mpr hfrac⟩)
  refine eq_of_mag (signOf_quiet x) ?_
  rw [mag_quiet, mag_eq, fracNat_eq_quietBit_add, hbit, Bool.toNat_true]
  omega

/-- A NaN beside a non-NaN wins, but for 0xFFC00000 beside an infinity: the other NaN that ties with a quieted infinity is the
least pattern of its magnitude (41_rounding R142). -/
theorem nanChoice_eq_quiet_left {a b : Word} (ha : isNaN a = true) (hb : isNaN b = false)
    (h : ¬ (a = 0xFFC00000#32 ∧ isInf b = true)) : nanChoice a b = quiet a := by
  obtain ⟨-, -, -, hwins, -⟩ := propagatedNanIsQuietAndSymmetric a b (.inl ha)
  obtain ⟨htie, hmost⟩ := hwins ha hb
  rw [propagateNan_of_nan (.inl ha), Except.ok.injEq] at htie hmost
  by_cases hinf : (quiet a = 0x7FC00000#32 ∨ quiet a = 0xFFC00000#32) ∧ isInf b = true
  · obtain ⟨hleast, hib⟩ := hinf
    have hsig : isSignaling a = false := Bool.eq_false_iff.mpr fun hs =>
      (mag_quiet_of_isSignaling hs).ne' ((quiet_eq_least_iff a).mp hleast)
    have hself : quiet a = a := quiet_eq_self_of_not_isSignaling ha hsig
    have hqa : quiet a = 0x7FC00000#32 := hleast.resolve_right fun hq => h ⟨hself ▸ hq, hib⟩
    have hle : (quiet a).toNat ≤ (quiet b).toNat := by
      have hmag := mag_quiet_of_isInf hib
      rw [mag_eq] at hmag
      have hleastNat : (0x7FC00000#32 : Word).toNat = 0x7FC00000 := rfl
      rw [hqa, hleastNat, toNat_eq_fields (quiet b)]
      omega
    rw [htie ⟨hleast, hib⟩, if_pos hle]
  · exact hmost hinf

/-- The operand `b` counts with the sign `t`: its own sign does not matter, but to the one tie of NaNs. -/
theorem effectiveSum_xor_signBit {a b : Word} (hb : isNaN b = false) (h : ¬ (a = 0xFFC00000#32 ∧ isInf b = true))
    (t : BitVec 1) : effectiveSum a (b ^^^ 0x80000000#32) t = effectiveSum a b t := by
  rw [effectiveSum, effectiveSum, sumRule, sumRule, isNaN_xor_signBit, isInf_xor_signBit, abs_val_xor_signBit]
  refine ite_congr rfl (fun hnan => ?_) fun _ => rfl
  have ha : isNaN a = true := by simpa [hb] using hnan
  rw [nanChoice_eq_quiet_left ha hb h, nanChoice_eq_quiet_left ha (by rwa [isNaN_xor_signBit]) (by rwa [isInf_xor_signBit])]

theorem exact_sub_eq_add {a b : Word} (hb : isNaN b = false) (h : ¬ (a = 0xFFC00000#32 ∧ isInf b = true)) :
    Exact.sub a b = Exact.add a (b ^^^ 0x80000000#32) := by
  rw [exact_sub_eq_effectiveSum, exact_add_eq_effectiveSum, signOf_xor_signBit, effectiveSum_xor_signBit hb h]

/-- The exception to law (e): one tie, decided with infinities of opposite sign (log 21). -/
theorem exact_sub_ne_add_at_nan_tie : Exact.sub 0xFFC00000#32 0x7F800000#32 = 0x7FC00000#32 ∧
    Exact.add 0xFFC00000#32 0xFF800000#32 = 0xFFC00000#32 := by
  rw [← subValue_eq_exact, ← addValue_eq_exact]
  decide

/-- Settles O35: the laws are those of the exact value rules; a NaN operand gives a NaN by R143. -/
theorem lawsOfAddAndSub : Obligations.LawsOfAddAndSub := by
  intro a b s
  obtain ⟨hsubTie, haddTie⟩ := exact_sub_ne_add_at_nan_tie
  refine ⟨⟨_, answersR_add a b s, answersR_add_of_eq (exact_add_comm b a) s⟩,
    fun hnan hne => answersR_add_of_eq (exact_add_signedZero (t := 0#1) hnan (absurd · hne)) s,
    answersR_add_of_eq ((exact_add_comm _ _).trans (exact_add_signedZero (t := 1#1) rfl fun _ => rfl)) s,
    fun hnan => answersR_add_of_eq (exact_add_signedZero (t := 1#1) hnan fun _ => rfl) s,
    fun ha => answersR_sub_of_eq (exact_sub_self ha) s,
    fun hb h => ⟨_, answersR_sub a b s, answersR_add_of_eq (exact_sub_eq_add hb h).symm s⟩,
    ⟨answersR_sub_of_eq hsubTie s, answersR_add_of_eq haddTie s⟩, fun hnan => ?_⟩
  obtain ⟨hadd, hsub⟩ : hasNaNOperand (.add a b) = true ∧ hasNaNOperand (.sub a b) = true := by
    simpa [hasNaNOperand, floatOperands] using hnan
  exact ⟨_, _, answersR_of_exec rfl, (nanRule_addValue a b).isNaN_iff.mpr (.inl hadd), answersR_of_exec rfl,
    (nanRule_subValue a b).isNaN_iff.mpr (.inl hsub)⟩

end Sys2Proof.Machine

/-! PROOFS. The family of 43_fp_multiplier, the value rule: MUL (R190) over the exact rationals. -/

namespace Sys2Proof.Machine

/-! ### The value rule over the exact rationals -/

/-- What the tests of the value rules for NaNs and infinities leave. -/
theorem isFinite_of_not_isNaN_of_not_isInf {a b : Word} (hnan : ¬ (isNaN a || isNaN b) = true)
    (hinf : ¬ (isInf a || isInf b) = true) : isFinite a = true ∧ isFinite b = true := by
  simp only [Bool.or_eq_true, not_or] at hnan hinf
  obtain ⟨hna, hnb⟩ := hnan
  obtain ⟨hia, hib⟩ := hinf
  exact ⟨(finite_inf_or_nan a).resolve_right (not_or.mpr ⟨hia, hna⟩),
    (finite_inf_or_nan b).resolve_right (not_or.mpr ⟨hib, hnb⟩)⟩

/-- A product in units of 2^-298 rounds as the product of the rationals. -/
theorem roundRNE_magUnits_mul {a b : Word} (ha : isFinite a = true) (hb : isFinite b = true) (s : BitVec 1) :
    roundRNE s (magUnits a * magUnits b) (unitsPerOne * unitsPerOne) =
      Exact.roundRNE s (|Exact.val a| * |Exact.val b|) := by
  rw [integerRoundingIsRoundRNE _ _ _ (by decide), abs_val_eq_magUnits ha, abs_val_eq_magUnits hb, div_mul_div_comm,
    unitsPerOne]
  norm_cast

theorem mulValue_eq_exact (a b : Word) : mulValue a b = Exact.mul a b := by
  refine ite_congr rfl (fun _ => rfl) fun hnan => ite_congr rfl (fun _ => rfl) fun hinf =>
    ite_congr rfl (fun _ => rfl) fun _ => ?_
  obtain ⟨ha, hb⟩ := isFinite_of_not_isNaN_of_not_isInf hnan hinf
  exact roundRNE_magUnits_mul ha hb _

theorem answersR_mul (a b : Word) (s : State) : AnswersR (.mul a b) s (Exact.mul a b) :=
  mulValue_eq_exact a b ▸ answersR_of_exec rfl

theorem answersR_mul_of_eq {a b r : Word} (h : Exact.mul a b = r) (s : State) : AnswersR (.mul a b) s r :=
  h ▸ answersR_mul a b s

/-- Settles O38: the product that the model rounds is the rational product. -/
theorem mulGivesTheRoundedProduct : Obligations.MulGivesTheRoundedProduct := fun a b c s =>
  ⟨decode_requestBits 0x4#4 a b c, answersR_mul a b s⟩

end Sys2Proof.Machine

/-! PROOFS. The family of 43_fp_multiplier, the laws of MUL (R192). -/

namespace Sys2Proof.Machine

theorem exact_mul_comm (a b : Word) : Exact.mul a b = Exact.mul b a := by
  simp only [Exact.mul, nanChoice_comm a b, Bool.or_comm (isNaN a), Bool.or_comm (isInf a), Bool.or_comm (isZero a),
    BitVec.xor_comm (signOf a), mul_comm |Exact.val a|]

/-- On finite operands the branch for zeros is the rounding of a product that is 0. -/
theorem exact_mul_of_isFinite {a b : Word} (ha : isFinite a = true) (hb : isFinite b = true) :
    Exact.mul a b = Exact.roundRNE (signOf a ^^^ signOf b) (|Exact.val a| * |Exact.val b|) := by
  rw [← mulValue_eq_exact, mulValue_of_isFinite ha hb, roundRNE_magUnits_mul ha hb]

theorem exact_mul_of_isInf_left {a b : Word} (ha : isInf a = true) (hb : isFinite b = true) (hz : isZero b = false) :
    Exact.mul a b = signedInf (signOf a ^^^ signOf b) := by
  simp [Exact.mul, ha, hz, not_isNaN_of_isInf ha, not_isNaN_of_isFinite hb, not_isZero_of_isInf ha, signedInf, signedZero]

theorem abs_val_one : |Exact.val 0x3F800000#32| = 1 := by
  have hunits : magUnits 0x3F800000#32 = 2 ^ 149 := by decide
  rw [abs_val_eq_magUnits (by decide), hunits, Nat.cast_pow, Nat.cast_ofNat, div_self (by positivity)]

theorem exact_mul_one {a : Word} (hnan : isNaN a = false) : Exact.mul a 0x3F800000#32 = a := by
  have hsign : signOf a ^^^ signOf 0x3F800000#32 = signOf a := BitVec.xor_zero
  rcases finite_inf_or_nan a with ha | ha | ha
  · rw [exact_mul_of_isFinite ha (by decide), hsign, abs_val_one, mul_one, exact_roundRNE_abs_val ha]
  · rw [exact_mul_of_isInf_left ha (by decide) (by decide), hsign, ← eq_signedInf ha]
  · simp [hnan] at ha

/-- Settles O39: the laws are those of the exact value rule; a NaN operand gives a NaN by R143. -/
theorem lawsOfMul : Obligations.LawsOfMul := by
  intro a b s
  refine ⟨⟨_, answersR_mul a b s, answersR_mul_of_eq (exact_mul_comm b a) s⟩,
    fun hnan => answersR_mul_of_eq (exact_mul_one hnan) s, fun hnan => ?_⟩
  have hhas : hasNaNOperand (.mul a b) = true := by simpa [hasNaNOperand, floatOperands] using hnan
  exact ⟨_, answersR_of_exec rfl, (nanRule_mulValue a b).isNaN_iff.mpr (.inl hhas)⟩

end Sys2Proof.Machine

/-! PROOFS. The family of 43_fp_multiplier, the reference datapath (R191): the widening product with its sticky bit, rounded by
`round_and_pack`, gives the value rule. -/

namespace Sys2Proof.Machine

/-- `k` guard bits of a significand are a factor `2^k` of its value. -/
theorem tripleValue_mul_two_pow (e : ℤ) (sig k : ℕ) : tripleValue e (sig * 2 ^ k) = sig * 2 ^ (e + k - 156) := by
  have hshift := tripleValue_shift (e + k) sig k
  rwa [add_sub_cancel_right] at hshift

/-- The exponent and significand of a finite nonzero pattern: 24 bits with the leading bit 1, subnormals too, and the value kept
(41_rounding R122). -/
theorem exists_significandOf {x : Word} (h : isFinite x = true) (hz : isZero x = false) :
    ∃ (e : ℤ) (m : ℕ), significandOf x = .ok (e, m) ∧ 2 ^ 23 ≤ m ∧ m < 2 ^ 24 ∧
      |Exact.val x| = m * 2 ^ (e - 150) := by
  have hf := fracNat_lt x
  rcases Nat.eq_zero_or_pos (expNat x) with he | he
  · have hfrac : 0 < fracNat x := Nat.pos_of_ne_zero fun h0 => by simp [(isZero_iff x).mpr ⟨he, h0⟩] at hz
    obtain ⟨sh, -, -, -, hnorm, hlow, hup, hval⟩ := normSubnormalKeepsTheValue (fracNat x) hfrac hf
    refine ⟨_, _, (if_pos he).trans hnorm, hlow, hup, ?_⟩
    rw [hval, abs_val_eq_magUnits h, magUnits_of_exp_zero he, zpow_neg, div_eq_mul_inv]
    norm_cast
  · refine ⟨expNat x, 2 ^ 23 + fracNat x, if_neg he.ne', Nat.le_add_right _ _, by omega, ?_⟩
    rw [abs_val_eq_tripleValue h, addAligned_of_pos he]
    refine (tripleValue_mul_two_pow _ _ 6).trans ?_
    congr 2
    omega

theorem mulCoreTail_eq_addMagsTail (s : BitVec 1) (e : ℤ) (z : ℕ) : mulCoreTail s e z = addMagsTail s e z := rfl

/-- The product of two 24-bit significands leaves 30 or 31 bits above the 32 that are jammed, the sticky bit among them, so that
rounding misses nothing. -/
theorem mulCoreTail_jam {s : BitVec 1} {mA mB : ℕ} (hA : 2 ^ 23 ≤ mA) (hA' : mA < 2 ^ 24) (hB : 2 ^ 23 ≤ mB)
    (hB' : mB < 2 ^ 24) (e : ℤ) : mulCoreTail s e (jam 64 (mA * 2 ^ 7 * (mB * 2 ^ 8)) 32) =
      .ok (Exact.roundRNE s (tripleValue (e - 32) (mA * mB * 2 ^ 15))) := by
  have hlow : 2 ^ 23 * 2 ^ 23 ≤ mA * mB := Nat.mul_le_mul hA hB
  have hup : mA * mB < 2 ^ 24 * 2 ^ 24 := Nat.mul_lt_mul'' hA' hB'
  rw [show mA * 2 ^ 7 * (mB * 2 ^ 8) = mA * mB * 2 ^ 15 by ring]
  generalize mA * mB = p at *
  have hjam : jam 64 (p * 2 ^ 15) 32 = stickyQuotient (p * 2 ^ 15) (2 ^ 32) := jam_eq_stickyQuotient (by omega)
  have hz : 2 ^ 29 ≤ stickyQuotient (p * 2 ^ 15) (2 ^ 32) :=
    (le_stickyQuotient_iff (by norm_num) (by norm_num)).mpr (by omega)
  have hz' : jam 64 (p * 2 ^ 15) 32 < 2 ^ 31 := jam_lt (by omega) (by norm_num) (by omega)
  rw [mulCoreTail_eq_addMagsTail, addMagsTail_eq (hjam ▸ hz) hz', hjam,
    exact_roundRNE_tripleValue_sticky (.inr (by omega)), Nat.cast_ofNat]

theorem mulCore_eq {a b : Word} (ha : isFinite a = true) (hb : isFinite b = true) (hza : isZero a = false)
    (hzb : isZero b = false) :
    mulCore a b = .ok (Exact.roundRNE (signOf a ^^^ signOf b) (|Exact.val a| * |Exact.val b|)) := by
  obtain ⟨eA, mA, hsigA, hlowA, hupA, hvalA⟩ := exists_significandOf ha hza
  obtain ⟨eB, mB, hsigB, hlowB, hupB, hvalB⟩ := exists_significandOf hb hzb
  have hproduct : tripleValue (eA + eB - 127 - 32) (mA * mB * 2 ^ 15) = mA * 2 ^ (eA - 150) * (mB * 2 ^ (eB - 150)) := by
    rw [tripleValue_mul_two_pow, mul_mul_mul_comm, ← zpow_add₀ two_ne_zero, Nat.cast_mul]
    congr 2
    omega
  rw [mulCore, hsigA, hsigB]
  exact (mulCoreTail_jam hlowA hupA hlowB hupB _).trans (by rw [hproduct, hvalA, hvalB])

/-- Settles O40: the special cases are those of the value rule, and only finite nonzero operands reach `mul_core`. -/
theorem multiplierDatapathGivesTheValueRule : Obligations.MultiplierDatapathGivesTheValueRule := by
  intro a b
  simp only [mulDatapath, Exact.mul]
  split_ifs with hnan hinf hzero hzero
  · exact propagateNan_of_nan (by simpa using hnan)
  · rfl
  · rfl
  · rfl
  · obtain ⟨ha, hb⟩ := isFinite_of_not_isNaN_of_not_isInf hnan hinf
    obtain ⟨hza, hzb⟩ : isZero a = false ∧ isZero b = false := by simpa using hzero
    exact mulCore_eq ha hb hza hzb

end Sys2Proof.Machine

/-! PROOFS. The family of 44_fp_divider, the value rule: DIV (R200) over the exact rationals. -/

namespace Sys2Proof.Machine

/-- The quotient of two magnitudes in the same units rounds as the quotient of the rationals. -/
theorem roundRNE_magUnits_div {a b : Word} (ha : isFinite a = true) (hb : isFinite b = true) (hz : isZero b = false)
    (s : BitVec 1) : roundRNE s (magUnits a) (magUnits b) = Exact.roundRNE s (|Exact.val a| / |Exact.val b|) := by
  have hpos : 0 < magUnits b := Nat.pos_of_ne_zero fun h0 => by simp [(magUnits_eq_zero_iff b).mp h0] at hz
  rw [integerRoundingIsRoundRNE _ _ _ hpos, abs_val_eq_magUnits ha, abs_val_eq_magUnits hb,
    div_div_div_cancel_right₀ (by positivity)]

theorem divValue_eq_exact (a b : Word) : divValue a b = Exact.div a b := by
  refine ite_congr rfl (fun _ => rfl) fun hnan => ite_congr rfl (fun _ => rfl) fun _ =>
    ite_congr rfl (fun _ => rfl) fun hia => ite_congr rfl (fun _ => rfl) fun hib =>
    ite_congr rfl (fun _ => rfl) fun hzb => ite_congr rfl (fun _ => rfl) fun _ => ?_
  obtain ⟨ha, hb⟩ := isFinite_of_not_isNaN_of_not_isInf hnan (by simp [hia, hib])
  exact roundRNE_magUnits_div ha hb (Bool.eq_false_of_not_eq_true hzb) _

theorem answersR_div (a b : Word) (s : State) : AnswersR (.div a b) s (Exact.div a b) :=
  divValue_eq_exact a b ▸ answersR_of_exec rfl

theorem answersR_div_of_eq {a b r : Word} (h : Exact.div a b = r) (s : State) : AnswersR (.div a b) s r :=
  h ▸ answersR_div a b s

/-- Settles O41: the quotient that the model rounds is the rational quotient. -/
theorem divGivesTheRoundedQuotient : Obligations.DivGivesTheRoundedQuotient := fun a b c s =>
  ⟨decode_requestBits 0x5#4 a b c, answersR_div a b s⟩

end Sys2Proof.Machine

/-! PROOFS. The family of 44_fp_divider, the laws of DIV (R203). -/

namespace Sys2Proof.Machine

/-- On finite operands with a nonzero divisor the branch for a zero dividend is the rounding of a quotient that is 0. -/
theorem exact_div_of_isFinite {a b : Word} (ha : isFinite a = true) (hb : isFinite b = true) (hz : isZero b = false) :
    Exact.div a b = Exact.roundRNE (signOf a ^^^ signOf b) (|Exact.val a| / |Exact.val b|) := by
  rw [← divValue_eq_exact, divValue_of_isFinite ha hb hz, roundRNE_magUnits_div ha hb hz]

theorem exact_div_of_isInf_left {a b : Word} (ha : isInf a = true) (hb : isFinite b = true) :
    Exact.div a b = signedInf (signOf a ^^^ signOf b) := by
  simp [Exact.div, ha, not_isNaN_of_isInf ha, not_isNaN_of_isFinite hb, not_isInf_of_isFinite hb, signedInf, signedZero]

/-- A quotient that a finite pattern represents is that pattern: laws (a), (b) and (d) are cases of it. -/
theorem exact_div_of_quotient {a b y : Word} (ha : isFinite a = true) (hb : isFinite b = true) (hz : isZero b = false)
    (hy : isFinite y = true) (hsign : signOf y = signOf a ^^^ signOf b)
    (hval : |Exact.val y| = |Exact.val a| / |Exact.val b|) : Exact.div a b = y := by
  rw [exact_div_of_isFinite ha hb hz, ← hsign, ← hval, exact_roundRNE_abs_val hy]

theorem exact_div_one {a : Word} (hnan : isNaN a = false) : Exact.div a 0x3F800000#32 = a := by
  have hsign : signOf a ^^^ signOf 0x3F800000#32 = signOf a := BitVec.xor_zero
  rcases finite_inf_or_nan a with ha | ha | ha
  · exact exact_div_of_quotient ha (by decide) (by decide) ha hsign.symm (by rw [abs_val_one, div_one])
  · rw [exact_div_of_isInf_left ha (by decide), hsign, ← eq_signedInf ha]
  · simp [hnan] at ha

theorem exact_div_self {a : Word} (ha : isFinite a = true) (hz : isZero a = false) : Exact.div a a = 0x3F800000#32 := by
  have hne : |Exact.val a| ≠ 0 := fun h0 => by simp [(abs_val_eq_zero_iff ha).mp h0] at hz
  exact exact_div_of_quotient ha ha hz (by decide) BitVec.xor_self.symm (by rw [abs_val_one, div_self hne])

/-- Settles O42: the laws are those of the exact value rule; a NaN operand gives a NaN by R143. -/
theorem lawsOfDiv : Obligations.LawsOfDiv := by
  intro a b s
  refine ⟨fun hnan => answersR_div_of_eq (exact_div_one hnan) s,
    fun ha hz => answersR_div_of_eq (exact_div_self ha hz) s, fun hnan => ?_, fun y ha hb hz hy hsign hval => ?_⟩
  · have hhas : hasNaNOperand (.div a b) = true := by simpa [hasNaNOperand, floatOperands] using hnan
    exact ⟨_, answersR_of_exec rfl, (nanRule_divValue a b).isNaN_iff.mpr (.inl hhas)⟩
  · exact answersR_div_of_eq (exact_div_of_quotient ha hb hz hy hsign (by rw [hval, abs_div])) s

end Sys2Proof.Machine

/-! PROOFS. The family of 44_fp_divider, the reference datapath (R201): the exact wide quotient with its sticky bit, rounded by
`round_and_pack`, gives the value rule. -/

namespace Sys2Proof.Machine

/-- A quotient of 31 bits with its sticky bit meets the precondition of `round_and_pack` at every exponent, and rounds as the
exact quotient does. -/
theorem roundAndPack_stickyQuotient {s : BitVec 1} {num den : ℕ} (hd : 0 < den) (hlow : 2 ^ 30 * den ≤ num)
    (hup : num < 2 ^ 31 * den) (e : ℤ) :
    roundAndPack s e (stickyQuotient num den) = .ok (Exact.roundRNE s (num / den * 2 ^ (e - 156) : ℚ)) := by
  have hz : 2 ^ 30 ≤ stickyQuotient num den := (le_stickyQuotient_iff hd (by norm_num)).mpr hlow
  have hz' : stickyQuotient num den < 2 ^ 31 :=
    not_le.mp (mt (le_stickyQuotient_iff hd (by norm_num)).mp (not_le.mpr hup))
  rw [roundAndPack_eq hz' fun _ => hz, exact_roundRNE_stickyQuotient hd (by omega)]

/-- A dividend shifted up by `k` bits, at the exponent lowered by as much, gives the quotient of the values; 156 is the offset of a
working triple (41_rounding R123). -/
theorem shifted_quotient_eq (mA mB k : ℕ) (eA eB : ℤ) :
    ((mA * 2 ^ k : ℕ) : ℚ) / mB * 2 ^ (eA - eB + 156 - k - 156) = mA * 2 ^ (eA - 150) / (mB * 2 ^ (eB - 150)) := by
  rw [mul_div_mul_comm, ← zpow_sub₀ two_ne_zero, Nat.cast_mul, Nat.cast_pow, Nat.cast_ofNat, mul_div_right_comm, mul_assoc,
    ← zpow_natCast, ← zpow_add₀ two_ne_zero]
  congr 2
  omega

/-- The dividend is shifted by one bit more when its significand is the smaller one, so that the quotient has 31 bits. -/
theorem divCore_eq {a b : Word} (ha : isFinite a = true) (hb : isFinite b = true) (hza : isZero a = false)
    (hzb : isZero b = false) :
    divCore a b = .ok (Exact.roundRNE (signOf a ^^^ signOf b) (|Exact.val a| / |Exact.val b|)) := by
  obtain ⟨eA, mA, hsigA, hlowA, hupA, hvalA⟩ := exists_significandOf ha hza
  obtain ⟨eB, mB, hsigB, hlowB, hupB, hvalB⟩ := exists_significandOf hb hzb
  rw [divCore, hsigA, hsigB, hvalA, hvalB]
  dsimp only
  rcases lt_or_ge mA mB with hlt | hge
  · simp only [if_pos hlt]
    rw [← shifted_quotient_eq mA mB 31, show eA - eB + 126 - 1 = eA - eB + 156 - (31 : ℕ) by omega]
    exact roundAndPack_stickyQuotient (by omega) (by omega) (by omega) _
  · simp only [if_neg hge.not_gt]
    rw [← shifted_quotient_eq mA mB 30, show eA - eB + 126 = eA - eB + 156 - (30 : ℕ) by omega]
    exact roundAndPack_stickyQuotient (by omega) (by omega) (by omega) _

/-- Settles O43: the special cases are those of the value rule, and only finite nonzero operands reach `div_core`. -/
theorem dividerDatapathGivesTheValueRule : Obligations.DividerDatapathGivesTheValueRule := by
  intro a b
  simp only [divDatapath, Exact.div]
  split_ifs with hnan hinf hia hib hzb hza hza
  · exact propagateNan_of_nan (by simpa using hnan)
  · rfl
  · rfl
  · rfl
  · rfl
  · rfl
  · rfl
  · obtain ⟨ha, hb⟩ := isFinite_of_not_isNaN_of_not_isInf hnan (by simp [hia, hib])
    exact divCore_eq ha hb (Bool.eq_false_of_not_eq_true hza) (Bool.eq_false_of_not_eq_true hzb)

end Sys2Proof.Machine

/-! PROOFS. Rounding near a normal pattern: what `RoundRNE` (41_rounding R126) gives for a number, rational or real, that is
less than half a unit of the last place away from a normal pattern. -/

namespace Sys2Proof.Machine

/-! ### Normal patterns -/

theorem isFinite_of_isNormal {x : Word} (h : isNormal x = true) : isFinite x = true :=
  (isFinite_iff x).mpr ((isNormal_iff x).mp h).2

theorem not_isZero_of_isNormal {x : Word} (h : isNormal x = true) : isZero x = false :=
  Bool.eq_false_iff.mpr fun hz => ((isNormal_iff x).mp h).1.ne' ((isZero_iff x).mp hz).1

theorem not_isNormal_signedInf (s : BitVec 1) : isNormal (signedInf s) = false :=
  Bool.eq_false_iff.mpr fun h => ((isNormal_iff _).mp h).2.ne ((isInf_iff _).mp (isInf_signedInf s)).1

/-- The significand of a normal pattern, with its implicit bit. -/
def normalSignificand (x : Word) : ℕ := 2 ^ 23 + fracNat x

theorem normalSignificand_ge (x : Word) : 2 ^ 23 ≤ normalSignificand x := Nat.le_add_right _ _

theorem normalSignificand_lt (x : Word) : normalSignificand x < 2 ^ 24 := by
  have := fracNat_lt x
  rw [normalSignificand]
  omega

/-- The value of a normal pattern is its 24-bit significand in units of its last place (40_codec R108). -/
theorem abs_val_of_isNormal {x : Word} (h : isNormal x = true) :
    |Exact.val x| = normalSignificand x * 2 ^ ((expNat x : ℤ) - 150) := by
  rw [abs_val_eq_tripleValue (isFinite_of_isNormal h), addAligned_of_pos ((isNormal_iff x).mp h).1]
  refine (tripleValue_mul_two_pow _ _ 6).trans ?_
  congr 2
  omega

/-- A normal significand at its own exponent assembles to its pattern. -/
theorem assembleRounded_of_isNormal {x : Word} (h : isNormal x = true) :
    assembleRounded (signOf x) ((expNat x : ℤ) - 127) (normalSignificand x) = x := by
  obtain ⟨k, hk⟩ : ∃ k, expNat x = k + 1 := Nat.exists_eq_add_one.mpr ((isNormal_iff x).mp h).1
  have hf := fracNat_lt x
  conv_rhs => rw [← pattern_fields x]
  rw [normalSignificand, hk, show ((k + 1 : ℕ) : ℤ) - 127 = k - 126 by omega, assembleRounded_eq_pattern (by omega) (by omega)]
  congr 1 <;> omega

/-! ### RoundRNE near a normal pattern -/

section
variable {K : Type} [Field K] [LinearOrder K] [IsStrictOrderedRing K]

theorem two_zpow_natCast_add (k : ℕ) (z : ℤ) : (2 : K) ^ (k + z) = 2 ^ k * 2 ^ z := by
  rw [zpow_add₀ two_ne_zero, zpow_natCast]

/-- A normal significand has 24 bits. -/
theorem normalSignificand_bounds (x : Word) :
    (2 ^ 23 : K) ≤ normalSignificand x ∧ (normalSignificand x : K) ≤ 2 ^ 24 - 1 := by
  have hge := normalSignificand_ge x
  have hlt := normalSignificand_lt x
  rw [le_sub_iff_add_le]
  exact ⟨by exact_mod_cast hge, by exact_mod_cast hlt⟩

/-- The unit of the last place of a normal pattern is at most 2^104. -/
theorem two_zpow_ulp_le {x : Word} (h : isNormal x = true) : (2 : K) ^ ((expNat x : ℤ) - 150) ≤ 2 ^ 104 := by
  have hexp := ((isNormal_iff x).mp h).2
  exact_mod_cast zpow_le_zpow_right₀ (one_le_two (α := K)) (by omega : (expNat x : ℤ) - 150 ≤ (104 : ℕ))

/-- A number less than a half away from an integer rounds to it. -/
theorem exact_rneInt_of_near [FloorRing K] {y : K} {n : ℕ} (hlow : n - 1 / 2 < y) (hup : y < n + 1 / 2) :
    Exact.rneInt y = n := by
  rcases le_or_gt (n : K) y with hy | hy
  · have hfloor : ⌊y⌋ = n := Int.floor_eq_iff.mpr ⟨by exact_mod_cast hy, by push_cast; linarith⟩
    rw [Exact.rneInt, hfloor, if_pos (by push_cast; linarith)]
  · have hfloor : ⌊y⌋ = n - 1 := Int.floor_eq_iff.mpr ⟨by push_cast; linarith, by push_cast; linarith⟩
    rw [Exact.rneInt, hfloor, if_neg (by push_cast; linarith), if_pos (by push_cast; linarith), sub_add_cancel]

/-- A number in the binade of a normal pattern, and less than half a unit of the last place away from it, rounds to it. -/
theorem exact_roundRNE_of_near [FloorRing K] {x : Word} (hx : isNormal x = true) {y : K} (hbinade : 2 ^ 23 ≤ y)
    (hlow : normalSignificand x - 1 / 2 < y) (hup : y < normalSignificand x + 1 / 2) :
    Exact.roundRNE (signOf x) (y * 2 ^ ((expNat x : ℤ) - 150)) = x := by
  have hlt : y < 2 ^ 24 - 1 / 2 := by linarith [(normalSignificand_bounds (K := K) x).2]
  have hulp : (0 : K) < 2 ^ ((expNat x : ℤ) - 150) := by positivity
  have hpos : 0 < y * 2 ^ ((expNat x : ℤ) - 150) := mul_pos ((pow_pos two_pos 23).trans_le hbinade) hulp
  have hov : y * 2 ^ ((expNat x : ℤ) - 150) < 2 ^ 128 - 2 ^ 103 := by
    calc y * 2 ^ ((expNat x : ℤ) - 150) < (2 ^ 24 - 1 / 2) * 2 ^ ((expNat x : ℤ) - 150) := by gcongr
      _ ≤ (2 ^ 24 - 1 / 2) * 2 ^ 104 := mul_le_mul_of_nonneg_left (two_zpow_ulp_le hx) (by norm_num)
      _ = 2 ^ 128 - 2 ^ 103 := by norm_num
  have hlog : Int.log 2 (y * 2 ^ ((expNat x : ℤ) - 150)) = expNat x - 127 := by
    have hge : ((2 : ℕ) : K) ^ ((expNat x : ℤ) - 127) ≤ y * 2 ^ ((expNat x : ℤ) - 150) := by
      rw [show (expNat x : ℤ) - 127 = (23 : ℕ) + (expNat x - 150) by omega, Nat.cast_ofNat, two_zpow_natCast_add]
      gcongr
    have hlt' : y * 2 ^ ((expNat x : ℤ) - 150) < ((2 : ℕ) : K) ^ ((expNat x : ℤ) - 126) := by
      rw [show (expNat x : ℤ) - 126 = (24 : ℕ) + (expNat x - 150) by omega, Nat.cast_ofNat, two_zpow_natCast_add]
      gcongr
      linarith
    have := (Int.zpow_le_iff_le_log one_lt_two hpos).mp hge
    have := (Int.lt_zpow_iff_log_lt one_lt_two hpos).mp hlt'
    omega
  have hn := normalSignificand_ge x
  have hn' := normalSignificand_lt x
  have hexp := ((isNormal_iff x).mp hx).1
  have hmax : max ((expNat x : ℤ) - 127) (-126) = expNat x - 127 := by omega
  have hfrac : (normalSignificand x : ℤ) - 2 ^ 23 = (fracNat x : ℕ) := by
    rw [normalSignificand]
    omega
  rw [Exact.roundRNE, if_neg hpos.ne', if_neg hov.not_ge, hlog, hmax]
  dsimp only
  rw [show (expNat x : ℤ) - 127 - 23 = expNat x - 150 by omega, mul_div_cancel_right₀ _ hulp.ne',
    exact_rneInt_of_near hlow hup, if_neg (by omega), if_neg (by omega), if_neg (by omega),
    show (expNat x : ℤ) - 127 + 127 = (expNat x : ℕ) by omega,
    hfrac, BitVec.ofInt_natCast, BitVec.ofInt_natCast]
  exact pattern_fields x

end

end Sys2Proof.Machine

/-! PROOFS. The family of 45_fp_sqrt, the rounded root (R215): a normal pattern less than half a unit of its last place away from
the root of a radicand is what `RoundRNE` of the exact real root gives, and what the integer arithmetic of the model gives. -/

namespace Sys2Proof.Machine

/-- A radicand in units of the square of the last place of `x`: its root is in units of the last place. -/
def scaledRadicand (v : ℚ) (x : Word) : ℚ := v / 2 ^ (2 * ((expNat x : ℤ) - 150))

/-- `x` is the positive normal pattern whose value is less than half a unit of the last place away from the root of `v`, and in
its binade: with the significand `m` of `x`, and `v` in units of the square of its last place, `(m - 1/2)^2 < v < (m + 1/2)^2`
and `2^46 ≤ v`. -/
structure NearestRoot (v : ℚ) (x : Word) : Prop where
  sign : signOf x = 0#1
  normal : isNormal x = true
  binade : 2 ^ 46 ≤ scaledRadicand v x
  low : (2 * normalSignificand x - 1) ^ 2 < 4 * scaledRadicand v x
  up : 4 * scaledRadicand v x < (2 * normalSignificand x + 1) ^ 2

theorem sqrt_eq_mul_ulp (v : ℚ) (x : Word) :
    Real.sqrt v = Real.sqrt (scaledRadicand v x) * 2 ^ ((expNat x : ℤ) - 150) := by
  have hulp : (0 : ℝ) ≤ 2 ^ ((expNat x : ℤ) - 150) := by positivity
  rw [← Real.sqrt_sq hulp, ← Real.sqrt_mul' _ (sq_nonneg _), ← zpow_natCast, ← zpow_mul, mul_comm _ ((2 : ℕ) : ℤ),
    scaledRadicand]
  push_cast
  rw [div_mul_cancel₀ _ (by positivity)]

/-- The exact real root rounds to it (45_fp_sqrt R215). -/
theorem NearestRoot.exact_roundRNE_eq {v : ℚ} {x : Word} (h : NearestRoot v x) : Exact.roundRNE 0#1 (Real.sqrt v) = x := by
  have hsig := (normalSignificand_bounds (K := ℝ) x).1
  have hbinade : (2 ^ 46 : ℝ) ≤ scaledRadicand v x := by exact_mod_cast h.binade
  have hlow : (2 * normalSignificand x - 1 : ℝ) ^ 2 < 4 * scaledRadicand v x := by exact_mod_cast h.low
  have hup : 4 * scaledRadicand v x < (2 * normalSignificand x + 1 : ℝ) ^ 2 := by exact_mod_cast h.up
  rw [sqrt_eq_mul_ulp v x, ← h.sign]
  refine exact_roundRNE_of_near h.normal (Real.le_sqrt_of_sq_le ?_) (Real.lt_sqrt_of_sq_lt ?_)
    ((Real.sqrt_lt' (by positivity)).mpr ?_)
  · linarith
  · linarith
  · linarith

/-! ### The integer arithmetic -/

/-- Strict bounds determine the rounded root. -/
theorem rneSqrt_eq_of_lt {num den n : ℕ} (hd : 0 < den) (hlow : (2 * n - 1) ^ 2 * den < 4 * num)
    (hup : 4 * num < (2 * n + 1) ^ 2 * den) : rneSqrt num den = n := by
  obtain ⟨habove, hbelow, -, -⟩ := rneSqrt_spec (num := num) hd
  have hge : 2 * n - 1 < 2 * rneSqrt num den + 1 :=
    lt_of_pow_lt_pow_left' 2 (Nat.lt_of_mul_lt_mul_right (hlow.trans_le habove))
  rcases Nat.eq_zero_or_pos (rneSqrt num den) with h0 | hpos
  · omega
  · have hle : 2 * rneSqrt num den - 1 < 2 * n + 1 :=
      lt_of_pow_lt_pow_left' 2 (Nat.lt_of_mul_lt_mul_right ((hbelow hpos).trans_lt hup))
    omega

/-- The exponent that `roundSqrtRNE` takes is that of the root. -/
theorem floorLog2_div_two {num den : ℕ} (hn : 0 < num) (hd : 0 < den) {E : ℤ} (hlow : (2 : ℚ) ^ (2 * E) ≤ num / den)
    (hup : (num / den : ℚ) < 2 ^ (2 * E + 2)) : floorLog2 num den / 2 = E := by
  obtain ⟨hlog, hlog'⟩ := floorLog2_spec hn hd
  have := (zpow_lt_zpow_iff_right₀ (one_lt_two (α := ℚ))).mp (hlow.trans_lt hlog')
  have := (zpow_lt_zpow_iff_right₀ (one_lt_two (α := ℚ))).mp (hlog.trans_lt hup)
  omega

theorem NearestRoot.two_zpow_le {v : ℚ} {x : Word} (h : NearestRoot v x) : 2 ^ (2 * ((expNat x : ℤ) - 127)) ≤ v := by
  have hbinade := h.binade
  rwa [scaledRadicand, le_div_iff₀ (by positivity), ← two_zpow_natCast_add,
    show ((46 : ℕ) : ℤ) + 2 * (expNat x - 150) = 2 * (expNat x - 127) by omega] at hbinade

theorem NearestRoot.radicand_lt {v : ℚ} {x : Word} (h : NearestRoot v x) :
    v < (2 ^ 24 - 1 / 2) ^ 2 * 2 ^ (2 * ((expNat x : ℤ) - 150)) := by
  obtain ⟨hsig, hsig'⟩ := normalSignificand_bounds (K := ℚ) x
  have hsq : (2 * normalSignificand x + 1 : ℚ) ^ 2 ≤ (2 * (2 ^ 24 - 1) + 1) ^ 2 := by gcongr
  have hlt : scaledRadicand v x < (2 ^ 24 - 1 / 2) ^ 2 := by linarith [h.up]
  rwa [scaledRadicand, div_lt_iff₀ (by positivity)] at hlt

theorem NearestRoot.lt_overflowThreshold {num den : ℕ} (hd : 0 < den) {x : Word} (h : NearestRoot (num / den) x) :
    num < overflowThreshold * overflowThreshold * den := by
  have hthr : ((2 ^ 24 - 1 / 2) ^ 2 * (2 ^ 104) ^ 2 : ℚ) = (overflowThreshold * overflowThreshold : ℕ) := by
    norm_num [overflowThreshold]
  have hulp : (2 : ℚ) ^ (2 * ((expNat x : ℤ) - 150)) ≤ (2 ^ 104) ^ 2 := by
    rw [mul_comm, zpow_mul]
    exact pow_le_pow_left₀ (by positivity) (two_zpow_ulp_le h.normal) 2
  have hlt := h.radicand_lt.trans_le (mul_le_mul_of_nonneg_left hulp (by positivity))
  rw [hthr, div_lt_iff₀ (by exact_mod_cast hd)] at hlt
  exact_mod_cast hlt

theorem NearestRoot.floorLog2_eq {num den : ℕ} (hn : 0 < num) (hd : 0 < den) {x : Word} (h : NearestRoot (num / den) x) :
    floorLog2 num den / 2 = expNat x - 127 := by
  refine floorLog2_div_two hn hd h.two_zpow_le (h.radicand_lt.trans_le ?_)
  rw [show 2 * ((expNat x : ℤ) - 127) + 2 = (48 : ℕ) + 2 * (expNat x - 150) by omega, two_zpow_natCast_add]
  exact mul_le_mul_of_nonneg_right (by norm_num) (by positivity)

theorem NearestRoot.rneSqrt_eq {num den : ℕ} (hd : 0 < den) {x : Word} (h : NearestRoot (num / den) x) :
    rneSqrt (scaledNum num (2 * ((expNat x : ℤ) - 150))) (scaledDen den (2 * ((expNat x : ℤ) - 150))) =
      normalSignificand x := by
  have hpos := scaledDen_pos hd (2 * ((expNat x : ℤ) - 150))
  have hpos' : (0 : ℚ) < scaledDen den (2 * ((expNat x : ℤ) - 150)) := by exact_mod_cast hpos
  have hsig := normalSignificand_ge x
  have hlow := h.low
  have hup := h.up
  rw [scaledRadicand, ← scaled_eq num hd, ← mul_div_assoc, lt_div_iff₀ hpos'] at hlow
  rw [scaledRadicand, ← scaled_eq num hd, ← mul_div_assoc, div_lt_iff₀ hpos'] at hup
  refine rneSqrt_eq_of_lt hpos ?_ (by exact_mod_cast hup)
  rw [← Nat.cast_lt (α := ℚ), Nat.cast_mul, Nat.cast_pow, Nat.cast_sub (by omega)]
  exact_mod_cast hlow

/-- The integer arithmetic of the model rounds the root to it (log 13). -/
theorem NearestRoot.roundSqrtRNE_eq {num den : ℕ} (hd : 0 < den) {x : Word} (h : NearestRoot (num / den) x) :
    roundSqrtRNE 0#1 num den = x := by
  have hn : 0 < num := Nat.pos_of_ne_zero fun h0 => by
    have hle := h.two_zpow_le
    rw [h0, Nat.cast_zero, zero_div] at hle
    exact absurd hle (not_le.mpr (by positivity))
  have hexp := ((isNormal_iff x).mp h.normal).1
  have hmax : max ((expNat x : ℤ) - 127) (-126) = expNat x - 127 := by omega
  rw [roundSqrtRNE, if_neg hn.ne', if_neg (h.lt_overflowThreshold hd).not_ge, h.floorLog2_eq hn hd, hmax]
  dsimp only
  rw [show (expNat x : ℤ) - 127 - 23 = expNat x - 150 by omega, h.rneSqrt_eq hd, ← h.sign, assembleRounded_of_isNormal h.normal]

end Sys2Proof.Machine

/-! PROOFS. The family of 45_fp_sqrt, the integer square root of the reference datapath (R216): its sticky bit keeps all that
rounding looks at, and every finite nonzero magnitude has a normal pattern nearest to its root. -/

namespace Sys2Proof.Machine

/-! ### The sticky root -/

/-- The root rounded down, with a sticky low bit: 1 when the root is inexact (45_fp_sqrt R216). -/
def stickyRoot (X : ℕ) : ℕ := isqrt X ||| (if X - isqrt X * isqrt X ≠ 0 then 1 else 0)

/-- An even bound lies below the sticky root exactly when it lies below the exact root. -/
theorem lt_stickyRoot_iff {X T : ℕ} (hT : 2 ∣ T) : T < stickyRoot X ↔ T * T < X := by
  have hle : T ≤ isqrt X ↔ T * T ≤ X := by rw [isqrt_eq_sqrt, Nat.le_sqrt]
  rw [stickyRoot]
  split_ifs with hr
  · have hne : T * T ≠ X := by
      rintro rfl
      simp [isqrt_eq_sqrt] at hr
    rw [or_one_eq]
    omega
  · have hX : X = isqrt X * isqrt X := by
      have := (isqrt_spec X).1
      omega
    conv_rhs => rw [hX]
    rw [Nat.or_zero, Nat.mul_self_lt_mul_self_iff]

/-- The sticky root lies below an even bound exactly when the exact root does. -/
theorem stickyRoot_lt_iff {X T : ℕ} (hT : 2 ∣ T) : stickyRoot X < T ↔ X < T * T := by
  have hroot : X < T * T ↔ isqrt X < T := by
    rw [← not_le, ← not_le, isqrt_eq_sqrt, Nat.le_sqrt]
  rw [hroot, stickyRoot]
  split_ifs
  · rw [or_one_eq]
    omega
  · rw [Nat.or_zero]

theorem le_stickyRoot {X T : ℕ} (h : T * T ≤ X) : T ≤ stickyRoot X := by
  have hroot : T ≤ isqrt X := by rwa [isqrt_eq_sqrt, Nat.le_sqrt]
  exact hroot.trans Nat.left_le_or

/-! ### The radicand of sqrt_core -/

/-- A finite nonzero magnitude is at least the least subnormal, and below 2^128. -/
theorem abs_val_bounds {x : Word} (hx : isFinite x = true) (hz : isZero x = false) :
    (2 : ℚ) ^ (-149 : ℤ) ≤ |Exact.val x| ∧ |Exact.val x| < 2 ^ (128 : ℤ) := by
  have hpos : (1 : ℚ) ≤ magUnits x := by
    exact_mod_cast Nat.pos_of_ne_zero fun h0 => by simp [(magUnits_eq_zero_iff x).mp h0] at hz
  have hlt : (magUnits x : ℚ) < 2 ^ 24 * 2 ^ 253 := by exact_mod_cast magUnits_lt hx
  rw [abs_val_eq_magUnits hx, div_lt_iff₀ (by positivity), zpow_neg, inv_eq_one_div]
  exact ⟨by gcongr; norm_num, hlt.trans_le (by norm_num)⟩

/-- The exponent of a finite nonzero magnitude with a 24-bit significand. -/
theorem exponent_bounds {x : Word} (hx : isFinite x = true) (hz : isZero x = false) {e : ℤ} {m : ℕ} (hlow : 2 ^ 23 ≤ m)
    (hup : m < 2 ^ 24) (hval : |Exact.val x| = m * 2 ^ (e - 150)) : -22 ≤ e ∧ e ≤ 254 := by
  obtain ⟨hge, hlt⟩ := abs_val_bounds hx hz
  have hlow' : (2 : ℚ) ^ (e - 127) ≤ m * 2 ^ (e - 150) := by
    rw [show e - 127 = (23 : ℕ) + (e - 150) by omega, two_zpow_natCast_add]
    gcongr
    exact_mod_cast hlow
  have hup' : (m * 2 ^ (e - 150) : ℚ) < 2 ^ (e - 126) := by
    rw [show e - 126 = (24 : ℕ) + (e - 150) by omega, two_zpow_natCast_add]
    gcongr
    exact_mod_cast hup
  rw [hval] at hge hlt
  have := (zpow_lt_zpow_iff_right₀ (one_lt_two (α := ℚ))).mp (hge.trans_lt hup')
  have := (zpow_lt_zpow_iff_right₀ (one_lt_two (α := ℚ))).mp (hlow'.trans_lt hlt)
  omega

/-- What `sqrt_core` takes the root of: the significand, doubled when the unbiased exponent is odd, 37 bits up; and the exponent of
its result, where 156 is the offset of a working triple (41_rounding R123). -/
theorem sqrtCore_eq_roundAndPack {a : Word} (ha : isFinite a = true) (hz : isZero a = false) :
    ∃ (e : ℤ) (X : ℕ), sqrtCore a = roundAndPack 0#1 e (stickyRoot X) ∧ |Exact.val a| = X * 2 ^ (2 * (e - 156)) ∧
      51 ≤ e ∧ e ≤ 189 ∧ 2 ^ 60 ≤ X ∧ X ≤ (2 ^ 24 - 1) * 2 ^ 38 ∧ 2 ^ 37 ∣ X := by
  obtain ⟨eA, m, hsig, hlow, hup, hval⟩ := exists_significandOf ha hz
  obtain ⟨hexp, hexp'⟩ := exponent_bounds ha hz hlow hup hval
  refine ⟨(eA - 127) / 2 + 126, (if eA % 2 = 1 then m else m * 2) * 2 ^ 37, by rw [sqrtCore, hsig]; rfl, ?_, by omega,
    by omega, ?_⟩
  · rw [hval]
    split_ifs with hodd
    · rw [show eA - 150 = (37 : ℕ) + 2 * ((eA - 127) / 2 + 126 - 156) by omega, two_zpow_natCast_add]
      push_cast
      ring
    · rw [show eA - 150 = (38 : ℕ) + 2 * ((eA - 127) / 2 + 126 - 156) by omega, two_zpow_natCast_add]
      push_cast
      ring
  · split_ifs
    · exact ⟨by omega, by omega, Nat.dvd_mul_left _ _⟩
    · exact ⟨by omega, by omega, Nat.dvd_mul_left _ _⟩

/-- A radicand of `sqrt_core` has a root of 24 significant bits that is less than half a unit off: a tie would be an odd square
times 2^12, which 2^37 does not divide. -/
theorem exists_significand_of_root {X : ℕ} (hlow : 2 ^ 60 ≤ X) (hup : X ≤ (2 ^ 24 - 1) * 2 ^ 38) (hdvd : 2 ^ 37 ∣ X) :
    ∃ n, 2 ^ 23 ≤ n ∧ n < 2 ^ 24 ∧ ((2 * n - 1) * 64) * ((2 * n - 1) * 64) < X ∧
      X < ((2 * n + 1) * 64) * ((2 * n + 1) * 64) := by
  obtain ⟨hroot, hroot'⟩ := isqrt_spec X
  have hq : 2 ^ 30 ≤ isqrt X := by
    rw [isqrt_eq_sqrt, Nat.le_sqrt]
    omega
  have hq' : isqrt X < 2 ^ 31 - 64 := by
    rw [isqrt_eq_sqrt, Nat.sqrt_lt]
    omega
  generalize isqrt X = q at *
  refine ⟨(q + 64) / 128, by omega, by omega, lt_of_le_of_ne ((Nat.mul_self_le_mul_self (by omega)).trans hroot) ?_,
    hroot'.trans_le (Nat.mul_self_le_mul_self (by omega))⟩
  obtain ⟨i, hi⟩ : ∃ i, 2 * ((q + 64) / 128) - 1 = 2 * i + 1 := ⟨(q + 64) / 128 - 1, by omega⟩
  have hodd : (2 * i + 1) * 64 * ((2 * i + 1) * 64) = (2 * (2 * i * i + 2 * i) + 1) * 4096 := by ring
  rw [hi, hodd]
  omega

/-- `round_and_pack` of the sticky root gives the normal pattern that the exact root is near to: the bounds are even. -/
theorem roundAndPack_stickyRoot {x : Word} {X e : ℕ} (hx : isNormal x = true) (hexp : expNat x = e + 1) (hX : 2 ^ 60 ≤ X)
    (hlow : ((2 * normalSignificand x - 1) * 64) * ((2 * normalSignificand x - 1) * 64) < X)
    (hup : X < ((2 * normalSignificand x + 1) * 64) * ((2 * normalSignificand x + 1) * 64)) :
    roundAndPack (signOf x) e (stickyRoot X) = .ok x := by
  have hz : 2 ^ 30 ≤ stickyRoot X := le_stickyRoot (by omega)
  have hlow' := (lt_stickyRoot_iff (by omega)).mpr hlow
  have hup' := (stickyRoot_lt_iff (by omega)).mpr hup
  have hsig := normalSignificand_lt x
  generalize stickyRoot X = z at *
  have hbinade : (2 ^ 30 : ℚ) ≤ z := by exact_mod_cast hz
  have hnear : (128 * normalSignificand x : ℚ) < z + 64 := by
    exact_mod_cast (by omega : 128 * normalSignificand x < z + 64)
  have hnear' : (z : ℚ) < 128 * normalSignificand x + 64 := by
    exact_mod_cast (by omega : z < 128 * normalSignificand x + 64)
  have htriple : tripleValue e z = z / 128 * 2 ^ ((expNat x : ℤ) - 150) := by
    rw [tripleValue, hexp, show ((e + 1 : ℕ) : ℤ) - 150 = (7 : ℕ) + (e - 156) by omega, two_zpow_natCast_add]
    ring
  rw [roundAndPack_eq (by omega) (fun _ => hz), htriple,
    exact_roundRNE_of_near hx (by linarith) (by linarith) (by linarith)]

/-- A normal pattern with a given exponent and a given significand of 24 bits. -/
theorem exists_isNormal {e n : ℕ} (he : e < 254) (hn : 2 ^ 23 ≤ n) (hn' : n < 2 ^ 24) :
    ∃ x, signOf x = 0#1 ∧ isNormal x = true ∧ expNat x = e + 1 ∧ normalSignificand x = n := by
  have hexp : expNat (pattern 0#1 (e + 1) (n - 2 ^ 23)) = e + 1 := expNat_pattern _ (by omega) (by omega)
  refine ⟨pattern 0#1 (e + 1) (n - 2 ^ 23), signOf_pattern _ (by omega) (by omega), ?_, hexp, ?_⟩
  · rw [isNormal_iff, hexp]
    omega
  · rw [normalSignificand, fracNat_pattern _ (by omega) (by omega)]
    omega

/-- Every finite nonzero magnitude has a root that is nearest to a normal pattern, which `sqrt_core` gives. -/
theorem exists_nearestRoot {a : Word} (ha : isFinite a = true) (hz : isZero a = false) :
    ∃ x, NearestRoot |Exact.val a| x ∧ sqrtCore a = .ok x ∧ 52 ≤ expNat x ∧ expNat x ≤ 190 := by
  obtain ⟨e, X, hcore, hval, he, he', hX, hX', hdvd⟩ := sqrtCore_eq_roundAndPack ha hz
  obtain ⟨n, hn, hn', hlow, hup⟩ := exists_significand_of_root hX hX' hdvd
  obtain ⟨k, rfl⟩ : ∃ k : ℕ, e = k := ⟨e.toNat, by omega⟩
  obtain ⟨x, hsign, hnormal, hexp, rfl⟩ := exists_isNormal (e := k) (by omega) hn hn'
  have hscale : scaledRadicand |Exact.val a| x = X / 2 ^ 14 := by
    rw [scaledRadicand, hval, hexp, mul_div_assoc, ← zpow_sub₀ two_ne_zero,
      show 2 * ((k : ℤ) - 156) - 2 * (((k + 1 : ℕ) : ℤ) - 150) = -(14 : ℕ) by omega, zpow_neg, zpow_natCast, div_eq_mul_inv]
  have hXq : (2 ^ 60 : ℚ) ≤ X := by exact_mod_cast hX
  have hlowq : (((2 * normalSignificand x - 1) * 64) ^ 2 : ℚ) < X := by
    rw [← Nat.cast_lt (α := ℚ), ← sq, Nat.cast_pow, Nat.cast_mul, Nat.cast_sub (by omega)] at hlow
    exact_mod_cast hlow
  have hupq : (X : ℚ) < ((2 * normalSignificand x + 1) * 64) ^ 2 := by
    rw [sq]
    exact_mod_cast hup
  refine ⟨x, ⟨hsign, hnormal, ?_, ?_, ?_⟩, ?_, by omega, by omega⟩
  · linarith
  · linarith
  · linarith
  · rw [hcore, ← hsign]
    exact roundAndPack_stickyRoot hnormal hexp hX hlow hup

end Sys2Proof.Machine

/-! PROOFS. The family of 45_fp_sqrt, the value rule and the datapath (R215, R216). -/

namespace Sys2Proof.Machine

/-! ### What SQRT answers -/

theorem val_of_signOf_zero {x : Word} (hx : isFinite x = true) (hs : signOf x = 0#1) : Exact.val x = |Exact.val x| := by
  conv_lhs => rw [val_eq_withSign hx, hs]
  rfl

theorem sqrtValue_of_isNaN {a : Word} (h : isNaN a = true) : sqrtValue a = quiet a := if_pos h

theorem sqrtValue_of_isZero {a : Word} (h : isZero a = true) : sqrtValue a = a := by
  simp [sqrtValue, h, not_isNaN_of_isFinite ((isFinite_iff_zero_subnormal_or_normal a).mpr (.inl h))]

theorem sqrtValue_of_negative {a : Word} (hnan : isNaN a = false) (hz : isZero a = false) (hs : signOf a = 1#1) :
    sqrtValue a = Config.defaultNan := by
  simp [sqrtValue, hnan, hz, hs, invalidResult]

theorem sqrtValue_of_isInf {a : Word} (h : isInf a = true) (hs : signOf a = 0#1) : sqrtValue a = a := by
  simp [sqrtValue, not_isNaN_of_isInf h, not_isZero_of_isInf h, hs, h]

theorem sqrtValue_of_positive {a : Word} (ha : isFinite a = true) (hz : isZero a = false) (hs : signOf a = 0#1) :
    sqrtValue a = roundSqrtRNE 0#1 (magUnits a) unitsPerOne := by
  simp [sqrtValue, not_isNaN_of_isFinite ha, not_isInf_of_isFinite ha, hz, hs]

/-- SQRT of a positive finite operand gives the pattern that its root is nearest to. -/
theorem NearestRoot.sqrtValue_eq {a x : Word} (h : NearestRoot |Exact.val a| x) (ha : isFinite a = true)
    (hz : isZero a = false) (hs : signOf a = 0#1) : sqrtValue a = x := by
  rw [sqrtValue_of_positive ha hz hs]
  refine NearestRoot.roundSqrtRNE_eq (by decide) ?_
  rwa [abs_val_eq_magUnits ha, ← Nat.cast_ofNat (n := 2), ← Nat.cast_pow] at h

theorem answersR_sqrt (a : Word) (s : State) : AnswersR (.sqrt a) s (sqrtValue a) := answersR_of_exec rfl

theorem answersR_sqrt_of_eq {a r : Word} (h : sqrtValue a = r) (s : State) : AnswersR (.sqrt a) s r := h ▸ answersR_sqrt a s

/-! ### The statements -/

/-- Settles O44: the branches are those of the value rule; the root of a positive finite operand is nearest to a normal pattern,
which both the model and `RoundRNE` give. -/
theorem sqrtGivesTheRoundedRoot : Obligations.SqrtGivesTheRoundedRoot := by
  intro a b c s
  refine ⟨decode_requestBits 0x6#4 a b c, fun h => answersR_sqrt_of_eq (sqrtValue_of_isNaN h) s,
    fun h => answersR_sqrt_of_eq (sqrtValue_of_isZero h) s,
    fun hnan hz hs => answersR_sqrt_of_eq (sqrtValue_of_negative hnan hz hs) s,
    fun h hs => answersR_sqrt_of_eq (sqrtValue_of_isInf h hs) s, fun ha hz hs => ?_⟩
  obtain ⟨x, hx, -, hexp, hexp'⟩ := exists_nearestRoot ha hz
  rw [val_of_signOf_zero ha hs, hx.exact_roundRNE_eq]
  exact ⟨answersR_sqrt_of_eq (hx.sqrtValue_eq ha hz hs) s, hexp, hexp'⟩

/-- Settles O47: the special cases are those of the value rule, and only positive finite operands reach `sqrt_core`. -/
theorem sqrtDatapathGivesTheAnswer : Obligations.SqrtDatapathGivesTheAnswer := by
  intro a s
  refine ⟨sqrtValue a, ?_, answersR_sqrt a s⟩
  unfold sqrtDatapath sqrtValue
  split_ifs with hnan hz hs hinf
  · rfl
  · rfl
  · rfl
  · rfl
  · have ha : isFinite a = true := (finite_inf_or_nan a).resolve_right (not_or.mpr ⟨hinf, hnan⟩)
    rw [Bool.not_eq_true] at hz
    have hs' : signOf a = 0#1 := (signOf_cases a).resolve_right hs
    obtain ⟨x, hx, hcore, -⟩ := exists_nearestRoot ha hz
    rw [hcore, ← sqrtValue_of_positive ha hz hs', hx.sqrtValue_eq ha hz hs']

end Sys2Proof.Machine

/-! PROOFS. The family of 45_fp_sqrt, the laws of SQRT (R218). -/

namespace Sys2Proof.Machine

/-! ### Exact roots, and NaNs -/

/-- A root that a normal pattern represents is nearest to that pattern. -/
theorem nearestRoot_of_sq {v : ℚ} {x : Word} (hs : signOf x = 0#1) (hx : isNormal x = true)
    (hv : |Exact.val x| * |Exact.val x| = v) : NearestRoot v x := by
  have hscale : scaledRadicand v x = normalSignificand x ^ 2 := by
    rw [scaledRadicand, ← hv, abs_val_of_isNormal hx, ← sq, mul_pow, mul_comm 2, zpow_mul, zpow_ofNat,
      mul_div_cancel_right₀ _ (by positivity)]
  have hsig := (normalSignificand_bounds (K := ℚ) x).1
  have hsq : (2 ^ 23 : ℚ) ^ 2 ≤ normalSignificand x ^ 2 := by gcongr
  exact ⟨hs, hx, by linarith, by linarith, by linarith⟩

/-- A finite pattern whose square is at least the least subnormal is normal. -/
theorem isNormal_of_sq {y : Word} (hy : isFinite y = true) (h : 2 ^ (-149 : ℤ) ≤ |Exact.val y| * |Exact.val y|) :
    isNormal y = true := by
  rw [isNormal_iff]
  refine ⟨Nat.pos_of_ne_zero fun hexp => ?_, (isFinite_iff y).mp hy⟩
  have hfrac : (fracNat y : ℚ) < 2 ^ 23 := by exact_mod_cast fracNat_lt y
  have hsmall : |Exact.val y| < 2 ^ 23 / 2 ^ 149 := by
    rw [abs_val_eq_magUnits hy, magUnits_of_exp_zero hexp]
    gcongr
  have hsq := mul_lt_mul'' hsmall hsmall (abs_nonneg _) (abs_nonneg _)
  exact absurd (h.trans_lt hsq) (by norm_num)

/-- Settles O45: the root of a nonzero operand that a pattern represents is normal, and the nearest to itself; NaN results are those
of R143. -/
theorem sqrtIsExactWhereItCanBe : Obligations.SqrtIsExactWhereItCanBe := by
  intro a s
  refine ⟨fun y ha hs hy hsy hval => answersR_sqrt_of_eq ?_ s, fun h => ⟨_, answersR_sqrt a s, ?_⟩⟩
  · rw [val_of_signOf_zero ha hs, val_of_signOf_zero hy hsy] at hval
    cases hz : isZero a with
    | true =>
      have hzy : isZero y = true := by
        rw [← abs_val_eq_zero_iff hy, ← mul_self_eq_zero (M₀ := ℚ), hval, abs_val_eq_zero_iff ha, hz]
      rw [sqrtValue_of_isZero hz, eq_signedZero hs ((magUnits_eq_zero_iff a).mpr hz),
        eq_signedZero hsy ((magUnits_eq_zero_iff y).mpr hzy)]
    | false =>
      have hnormal := isNormal_of_sq hy (hval ▸ (abs_val_bounds ha hz).1)
      exact (nearestRoot_of_sq hsy hnormal hval).sqrtValue_eq ha hz hs
  · rw [(nanRule_sqrtValue a).isNaN_iff]
    cases hnan : isNaN a with
    | true => exact .inl (by simp [hasNaNOperand, floatOperands, hnan])
    | false =>
      obtain ⟨hs, hne⟩ := h.resolve_left (by simp [hnan])
      have hz : isZero a = false := Bool.eq_false_iff.mpr fun hz => hne
        ((eq_signedZero hs ((magUnits_eq_zero_iff a).mpr hz)).trans (by decide))
      exact .inr (by simp [invalidOperation, hs, hnan, hz])

/-! ### The square of a normal pattern -/

/-- The unit that rounding takes is at most the unit of the last place of a normal result; it is half of that when the significand
was carried. -/
theorem RoundsUnits.le_of_isNormal {s : BitVec 1} {Q : ℚ} {r : Word} {k n : ℕ} (hr : RoundsUnits s Q r k n)
    (hnormal : isNormal r = true) : k ≤ expNat r - 1 := by
  rcases hr.normal with h0 | hfull
  · omega
  · have hn : 2 ^ 23 ≤ n := by
      have hge := (le_div_iff₀ (by positivity)).mpr hfull
      have hhalf := (abs_le.mp (exact_rneInt_spec (Q / 2 ^ k)).1).1
      rw [← hr.rounded, Int.cast_natCast] at hhalf
      have hgt : ((2 ^ 23 : ℕ) : ℚ) < (n + 1 : ℕ) := by
        push_cast
        linarith
      exact Nat.lt_succ_iff.mp (by exact_mod_cast hgt)
    have hlt : 2 ^ 23 * 2 ^ k < 2 ^ 24 * 2 ^ (expNat r - 1) := by
      calc 2 ^ 23 * 2 ^ k ≤ n * 2 ^ k := Nat.mul_le_mul_right _ hn
        _ = normalSignificand r * 2 ^ (expNat r - 1) :=
          hr.magnitude.symm.trans (magUnits_of_exp_pos ((isNormal_iff r).mp hnormal).1)
        _ < 2 ^ 24 * 2 ^ (expNat r - 1) := Nat.mul_lt_mul_of_pos_right (normalSignificand_lt r) (by positivity)
    rw [← pow_add, ← pow_add, Nat.pow_lt_pow_iff_right (by omega)] at hlt
    omega

/-- A normal result of rounding is within half a unit of its last place. -/
theorem RoundsUnits.abs_sub_le {s : BitVec 1} {Q : ℚ} {r : Word} {k n : ℕ} (hr : RoundsUnits s Q r k n)
    (hnormal : isNormal r = true) : |(magUnits r : ℚ) - Q| ≤ 2 ^ (expNat r - 1) / 2 := by
  have hpos : (0 : ℚ) < 2 ^ k := by positivity
  have hhalf := (exact_rneInt_spec (Q / 2 ^ k)).1
  rw [← hr.rounded, Int.cast_natCast] at hhalf
  calc |(magUnits r : ℚ) - Q| = |n - Q / 2 ^ k| * 2 ^ k := by
        rw [hr.magnitude, ← abs_of_pos hpos, ← abs_mul, abs_of_pos hpos, sub_mul, div_mul_cancel₀ Q hpos.ne', Nat.cast_mul,
          Nat.cast_pow, Nat.cast_ofNat]
    _ ≤ 1 / 2 * 2 ^ (expNat r - 1) := by
        gcongr
        · norm_num
        · exact hr.le_of_isNormal hnormal
    _ = 2 ^ (expNat r - 1) / 2 := one_div_mul_eq_div _ _

/-- A value `M × 2^d` of 24 bits within half a unit of its last place of the square of a 24-bit `m` has a root less than a half
away from `m`: the bounds leave only `d = 23` and `d = 24`, and then the half unit, 2^22 or 2^23, is below `m`. -/
theorem root_bounds_of_near_square {m M : ℚ} (hm : 2 ^ 23 ≤ m) (hm' : m ≤ 2 ^ 24 - 1) (hM : 2 ^ 23 ≤ M)
    (hM' : M ≤ 2 ^ 24 - 1) {d : ℤ} (h : |M * 2 ^ d - m ^ 2| ≤ 2 ^ d / 2) :
    2 ^ 46 ≤ M * 2 ^ d ∧ (2 * m - 1) ^ 2 < 4 * (M * 2 ^ d) ∧ 4 * (M * 2 ^ d) < (2 * m + 1) ^ 2 := by
  have hsq : m ^ 2 ≤ (2 ^ 24 - 1) ^ 2 := by gcongr
  have hsq' : (2 ^ 23) ^ 2 ≤ m ^ 2 := by gcongr
  have hlow : 2 ^ 23 * 2 ^ d ≤ M * 2 ^ d := by gcongr
  have hup : M * 2 ^ d ≤ (2 ^ 24 - 1) * 2 ^ d := by gcongr
  obtain ⟨hnear, hnear'⟩ := abs_le.mp h
  have hd : d ≤ 24 := by
    by_contra hd
    have hulp : (2 : ℚ) ^ 25 ≤ 2 ^ d := by
      exact_mod_cast zpow_le_zpow_right₀ (one_le_two (α := ℚ)) (by omega : ((25 : ℕ) : ℤ) ≤ d)
    linarith
  have hd' : 23 ≤ d := by
    by_contra hd'
    have hulp : (2 : ℚ) ^ d ≤ 2 ^ 22 := by
      exact_mod_cast zpow_le_zpow_right₀ (one_le_two (α := ℚ)) (by omega : d ≤ (22 : ℕ))
    linarith
  obtain rfl | rfl : d = 23 ∨ d = 24 := by omega
  · have hulp : (2 : ℚ) ^ (23 : ℤ) = 2 ^ 23 := by norm_num
    rw [hulp] at *
    exact ⟨by linarith, by linarith, by linarith⟩
  · have hulp : (2 : ℚ) ^ (24 : ℤ) = 2 ^ 24 := by norm_num
    rw [hulp] at *
    have hgt : 2 ^ 23 + 1 < m := by
      by_contra hle
      have hsmall : m ^ 2 ≤ (2 ^ 23 + 1) ^ 2 := by
        gcongr
        exact not_lt.mp hle
      linarith
    exact ⟨by linarith, by linarith, by linarith⟩

/-- A normal `RoundRNE` has the sign given, and is within half a unit of its last place of the exact magnitude. -/
theorem roundRNE_of_isNormal {s : BitVec 1} {num den : ℕ} (hd : 0 < den) (h : isNormal (roundRNE s num den) = true) :
    signOf (roundRNE s num den) = s ∧
      |(|Exact.val (roundRNE s num den)| - num / den)| ≤ 2 ^ ((expNat (roundRNE s num den) : ℤ) - 150) / 2 := by
  have hov : num < overflowThreshold * den := by
    by_contra hov
    have hpos : 0 < overflowThreshold * den := Nat.mul_pos (by decide) hd
    rw [roundRNE_overflow (hpos.trans_le (not_lt.mp hov)) (not_lt.mp hov), not_isNormal_signedInf] at h
    exact Bool.false_ne_true h
  obtain ⟨k, n, hr⟩ := exists_roundsUnits_roundRNE s hd hov
  refine ⟨hr.sign, ?_⟩
  have hnear := hr.abs_sub_le h
  have hunit : (0 : ℚ) < 2 ^ 149 := by positivity
  obtain ⟨j, hj⟩ := Nat.exists_eq_add_one.mpr ((isNormal_iff _).mp h).1
  rw [hj, Nat.add_sub_cancel] at hnear
  calc |(|Exact.val (roundRNE s num den)| - num / den)|
      = |(magUnits (roundRNE s num den) : ℚ) - num / den * 2 ^ 149| / 2 ^ 149 := by
        rw [abs_val_eq_magUnits hr.finite, ← abs_of_pos hunit, ← abs_div, abs_of_pos hunit, sub_div,
          mul_div_cancel_right₀ _ hunit.ne']
    _ ≤ 2 ^ j / 2 / 2 ^ 149 := by gcongr
    _ = 2 ^ ((expNat (roundRNE s num den) : ℤ) - 150) / 2 := by
        rw [hj, show ((j + 1 : ℕ) : ℤ) - 150 = (j : ℕ) - (149 : ℕ) by omega, zpow_sub₀ two_ne_zero, zpow_natCast,
          zpow_natCast, div_right_comm]

/-- The square of a finite pattern, rounded, when that is normal. -/
theorem mulValue_self_of_isNormal {x : Word} (hx : isFinite x = true) (hr : isNormal (mulValue x x) = true) :
    signOf (mulValue x x) = 0#1 ∧
      |(|Exact.val (mulValue x x)| - |Exact.val x| ^ 2)| ≤ 2 ^ ((expNat (mulValue x x) : ℤ) - 150) / 2 := by
  have hsquare : ((magUnits x * magUnits x : ℕ) : ℚ) / (unitsPerOne * unitsPerOne : ℕ) = |Exact.val x| ^ 2 := by
    rw [abs_val_eq_magUnits hx, sq, div_mul_div_comm, unitsPerOne]
    norm_cast
  rw [mulValue_of_isFinite hx hx, BitVec.xor_self] at *
  rw [← hsquare]
  exact roundRNE_of_isNormal (by decide) hr

/-- A positive normal is nearest to the root of its rounded square. -/
theorem nearestRoot_mulValue_self {x : Word} (hs : signOf x = 0#1) (hx : isNormal x = true)
    (hr : isNormal (mulValue x x) = true) : NearestRoot |Exact.val (mulValue x x)| x := by
  obtain ⟨-, hnear⟩ := mulValue_self_of_isNormal (isFinite_of_isNormal hx) hr
  generalize mulValue x x = r at *
  rw [abs_val_of_isNormal hr, abs_val_of_isNormal hx] at hnear
  obtain ⟨hm, hm'⟩ := normalSignificand_bounds (K := ℚ) x
  obtain ⟨hM, hM'⟩ := normalSignificand_bounds (K := ℚ) r
  obtain ⟨d, hd⟩ : ∃ d : ℤ, (expNat r : ℤ) - 150 = d + 2 * ((expNat x : ℤ) - 150) := ⟨_, (sub_add_cancel _ _).symm⟩
  have hulp : (0 : ℚ) < 2 ^ (2 * ((expNat x : ℤ) - 150)) := by positivity
  have hscale : scaledRadicand |Exact.val r| x = normalSignificand r * 2 ^ d := by
    rw [scaledRadicand, abs_val_of_isNormal hr, hd, zpow_add₀ two_ne_zero, ← mul_assoc, mul_div_cancel_right₀ _ hulp.ne']
  have hsquare : (normalSignificand x * 2 ^ ((expNat x : ℤ) - 150) : ℚ) ^ 2 =
      (normalSignificand x : ℚ) ^ 2 * 2 ^ (2 * ((expNat x : ℤ) - 150)) := by
    rw [mul_pow, mul_comm 2, zpow_mul, zpow_ofNat]
  rw [hsquare, hd, zpow_add₀ two_ne_zero, ← mul_assoc, ← sub_mul, abs_mul, abs_of_pos hulp, mul_div_right_comm,
    mul_le_mul_iff_left₀ hulp] at hnear
  obtain ⟨hbinade, hlow, hup⟩ := root_bounds_of_near_square hm hm' hM hM' hnear
  exact ⟨hs, hx, hscale ▸ hbinade, hscale ▸ hlow, hscale ▸ hup⟩

/-- Settles O46: the result of MUL that is normal has `x` as the pattern nearest to its root. -/
theorem sqrtOfSquareGivesBack : Obligations.SqrtOfSquareGivesBack := by
  intro x s hs hx
  refine ⟨mulValue x x, answersR_of_exec rfl, fun hr => answersR_sqrt_of_eq ?_ s⟩
  have hsign := (mulValue_self_of_isNormal (isFinite_of_isNormal hx) hr).1
  exact (nearestRoot_mulValue_self hs hx hr).sqrtValue_eq (isFinite_of_isNormal hr) (not_isZero_of_isNormal hr) hsign

end Sys2Proof.Machine

/-! PROOFS. The family of 46_fp_comparator, the bit-level rules: the NaN test (R230), and EQ, NE, LT, LE, GT and GE as the
spec writes them (R231 to R237). -/

namespace Sys2Proof.Machine

/-! ### The NaN test, which every comparison makes first -/

/-- An answer is a matter of whether the proposition holds, not of how it is put. -/
theorem AnswersT.congr {i : Instr} {s : State} {P Q : Prop} (h : AnswersT i s P) (hPQ : P ↔ Q) : AnswersT i s Q :=
  propext hPQ ▸ h

theorem NoNaN.symm {a b : Word} (h : NoNaN a b) : NoNaN b a := And.symm h

theorem noNaN_iff_not_nan (a b : Word) : NoNaN a b ↔ ¬ (isNaN a = true ∨ isNaN b = true) := by
  simp only [NoNaN, not_or, Bool.not_eq_true]

theorem unlessNaN_iff (a b : Word) (v : Bool) : unlessNaN a b v = true ↔ NoNaN a b ∧ v = true := by
  simp [unlessNaN, NoNaN]

/-- A comparison answers that no operand is a NaN and that its relation holds. -/
theorem answersT_unlessNaN {i : Instr} {s : State} {a b : Word} {v : Bool} {P : Prop}
    (h : exec i s = driveT (unlessNaN a b v) s) (hP : v = true ↔ P) : AnswersT i s (NoNaN a b ∧ P) :=
  answersT_of_exec h ((unlessNaN_iff a b v).trans (and_congr_right' hP))

/-- With a NaN operand a comparison answers false. -/
theorem answersT_false_of_nan {i : Instr} {s : State} {a b : Word} {v : Bool}
    (h : exec i s = driveT (unlessNaN a b v) s) (hnan : isNaN a = true ∨ isNaN b = true) : AnswersT i s False :=
  (answersT_unlessNaN h Iff.rfl).congr (iff_false_intro fun hv => (noNaN_iff_not_nan a b).mp hv.1 hnan)

/-- Settles O48: the NaN test comes before the relation of each comparison. -/
theorem comparisonsAreFalseUnderNaN : Obligations.ComparisonsAreFalseUnderNaN := fun _ _ _ hnan =>
  ⟨answersT_false_of_nan rfl hnan, answersT_false_of_nan rfl hnan, answersT_false_of_nan rfl hnan,
    answersT_false_of_nan rfl hnan, answersT_false_of_nan rfl hnan, answersT_false_of_nan rfl hnan⟩

/-! ### The relations as the spec writes them -/

/-- A negated relation (46_fp_comparator R233, R236, R237). -/
theorem not_eq_true_iff_of_iff {v : Bool} {P : Prop} (h : v = true ↔ P) : (!v) = true ↔ ¬ P := by
  rw [Bool.not_eq_true', ← Bool.not_eq_true, h]

theorem bothZero_iff_rule (a b : Word) : bothZero a b = true ↔ BothZeroRule a b := by
  rw [bothZero, beq_iff_eq, BitVec.toNat_eq, BitVec.toNat_shiftLeft, Nat.shiftLeft_eq, pow_one]
  rfl

theorem before_iff_rule (a b : Word) : before a b = true ↔ BeforeRule a b := by
  unfold before BeforeRule
  rcases signOf_cases a with hs | hs
  · simp [hs, mag]
  · simp [hs, mag]

theorem eqBits_iff_rule (a b : Word) : eqBits a b = true ↔ a = b ∨ BothZeroRule a b := by
  rw [eqBits, Bool.or_eq_true, beq_iff_eq, bothZero_iff_rule]

theorem ltBits_iff_rule (a b : Word) : ltBits a b = true ↔ LtRule a b := by
  unfold ltBits LtRule
  rw [← bothZero_iff_rule, ← before_iff_rule]
  split
  case isTrue hs => simp [hs]
  case isFalse hs => simp [not_not.mp hs]

theorem leBits_iff_rule (a b : Word) : leBits a b = true ↔ LeRule a b := by
  unfold leBits LeRule
  rw [← bothZero_iff_rule, ← before_iff_rule]
  split
  case isTrue hs => simp [hs]
  case isFalse hs => simp [not_not.mp hs, mag]

/-! ### The statements -/

/-- Settles O49: EQ drives the equality of the patterns or of zeros, NE its negation. -/
theorem eqAndNeFollowTheirRules : Obligations.EqAndNeFollowTheirRules := fun a b c _ =>
  ⟨decode_requestBits 0x7#4 a b c, decode_requestBits 0x8#4 a b c, answersT_unlessNaN rfl (eqBits_iff_rule a b),
    answersT_unlessNaN rfl (not_eq_true_iff_of_iff (eqBits_iff_rule a b))⟩

/-- Settles O50: LT and LE drive the relations of their rules. -/
theorem ltAndLeFollowTheirRules : Obligations.LtAndLeFollowTheirRules := fun a b c _ =>
  ⟨decode_requestBits 0x9#4 a b c, decode_requestBits 0xA#4 a b c, answersT_unlessNaN rfl (ltBits_iff_rule a b),
    answersT_unlessNaN rfl (leBits_iff_rule a b)⟩

/-- Settles O51: GT drives the negation of LE's relation, and GE that of LT's. -/
theorem gtAndGeFollowTheirRules : Obligations.GtAndGeFollowTheirRules := fun a b c _ =>
  ⟨decode_requestBits 0xB#4 a b c, decode_requestBits 0xC#4 a b c,
    answersT_unlessNaN rfl (not_eq_true_iff_of_iff (leBits_iff_rule a b)),
    answersT_unlessNaN rfl (not_eq_true_iff_of_iff (ltBits_iff_rule a b))⟩

end Sys2Proof.Machine

/-! PROOFS. The family of 46_fp_comparator, the laws: the comparisons are those of one integer key, the magnitude with its sign,
which gives their trichotomy (R238); the exact value rises with the key (R239). -/

namespace Sys2Proof.Machine

/-! ### The key that the comparisons compare -/

/-- The 31 non-sign bits with the sign of bit 31: a sign and magnitude, in which both zeros are 0. -/
def signedMag (x : Word) : ℤ := if signOf x = 1#1 then -mag x else mag x

theorem signedMag_of_positive {x : Word} (h : signOf x = 0#1) : signedMag x = mag x := by simp [signedMag, h]

theorem signedMag_of_negative {x : Word} (h : signOf x = 1#1) : signedMag x = -mag x := by simp [signedMag, h]

theorem natAbs_signedMag (x : Word) : (signedMag x).natAbs = mag x := by
  unfold signedMag
  split
  · rw [Int.natAbs_neg, Int.natAbs_natCast]
  · exact Int.natAbs_natCast _

theorem mag_eq_mod (x : Word) : mag x = x.toNat % 2 ^ 31 := by
  rw [mag_eq, expNat_eq, fracNat_eq]
  omega

theorem bothZeroRule_iff_mag (a b : Word) : BothZeroRule a b ↔ mag a = 0 ∧ mag b = 0 := by
  have hshift (n : ℕ) : n * 2 % 2 ^ 32 = 0 ↔ n % 2 ^ 31 = 0 := by omega
  rw [BothZeroRule, hshift, BitVec.toNat_or, Nat.or_mod_two_pow, Nat.or_eq_zero_iff, mag_eq_mod, mag_eq_mod]

theorem beforeRule_iff_mag (a b : Word) :
    BeforeRule a b ↔ (signOf a = 0#1 ∧ mag a < mag b) ∨ (signOf a = 1#1 ∧ mag b < mag a) := Iff.rfl

theorem eq_iff_sign_mag (a b : Word) : a = b ↔ signOf a = signOf b ∧ mag a = mag b :=
  ⟨fun h => ⟨congrArg signOf h, congrArg mag h⟩, fun h => eq_of_mag h.1 h.2⟩

/-! Each relation is read by the four combinations of signs, in each of which the keys are the magnitudes or their negations. -/

/-- EQ compares the keys for equality. -/
theorem eqBits_iff_signedMag (a b : Word) : eqBits a b = true ↔ signedMag a = signedMag b := by
  rw [eqBits_iff_rule, bothZeroRule_iff_mag, eq_iff_sign_mag, signedMag, signedMag]
  split_ifs <;> bv_omega

/-- LT compares the keys by `<`. -/
theorem ltBits_iff_signedMag (a b : Word) : ltBits a b = true ↔ signedMag a < signedMag b := by
  rw [ltBits_iff_rule, LtRule, bothZeroRule_iff_mag, beforeRule_iff_mag, signedMag, signedMag]
  split_ifs <;> bv_omega

/-- LE compares the keys by `≤`. -/
theorem leBits_iff_signedMag (a b : Word) : leBits a b = true ↔ signedMag a ≤ signedMag b := by
  rw [leBits_iff_rule, LeRule, bothZeroRule_iff_mag, beforeRule_iff_mag, ← mag, ← mag, signedMag, signedMag]
  split_ifs <;> bv_omega

/-! ### What the comparisons answer, by the key -/

/-- Without a NaN operand a comparison answers its relation. -/
theorem answersT_of_noNaN {a b : Word} (hno : NoNaN a b) {i : Instr} {s : State} {v : Bool} {P : Prop}
    (h : exec i s = driveT (unlessNaN a b v) s) (hP : v = true ↔ P) : AnswersT i s P :=
  (answersT_unlessNaN h hP).congr (and_iff_right hno)

section

variable {a b : Word} (hno : NoNaN a b) (s : State)
include hno

theorem answersT_eq : AnswersT (.eq a b) s (signedMag a = signedMag b) :=
  answersT_of_noNaN hno rfl (eqBits_iff_signedMag a b)

theorem answersT_ne : AnswersT (.ne a b) s (signedMag a ≠ signedMag b) :=
  answersT_of_noNaN hno rfl (not_eq_true_iff_of_iff (eqBits_iff_signedMag a b))

theorem answersT_lt : AnswersT (.lt a b) s (signedMag a < signedMag b) :=
  answersT_of_noNaN hno rfl (ltBits_iff_signedMag a b)

theorem answersT_le : AnswersT (.le a b) s (signedMag a ≤ signedMag b) :=
  answersT_of_noNaN hno rfl (leBits_iff_signedMag a b)

theorem answersT_gt : AnswersT (.gt a b) s (signedMag b < signedMag a) :=
  answersT_of_noNaN hno rfl ((not_eq_true_iff_of_iff (leBits_iff_signedMag a b)).trans not_le)

theorem answersT_ge : AnswersT (.ge a b) s (signedMag b ≤ signedMag a) :=
  answersT_of_noNaN hno rfl ((not_eq_true_iff_of_iff (ltBits_iff_signedMag a b)).trans not_lt)

end

/-- Settles O52: with `lt`, `eq` and `gt` the three ways in which two keys can compare; a NaN operand is O48. -/
theorem comparatorIsTotal : Obligations.ComparatorIsTotal := by
  refine fun a b s => ⟨fun hno => ?_, fun hnan => ?_⟩
  · exact ⟨signedMag a < signedMag b, signedMag a = signedMag b, signedMag b < signedMag a, answersT_lt hno s,
      answersT_eq hno s, answersT_gt hno s, by omega, answersT_ne hno s, (answersT_le hno s).congr (by omega),
      (answersT_ge hno s).congr (by omega), answersT_gt hno.symm s, (answersT_ge hno.symm s).congr (by omega)⟩
  · rw [noNaN_iff_not_nan, not_not] at hnan
    obtain ⟨heq, hne, hlt, hle, hgt, hge⟩ := comparisonsAreFalseUnderNaN a b s hnan
    exact ⟨hlt, heq, hgt, hne, hle, hge⟩

/-! ### The exact value rises with the key -/

theorem abs_val_lt_iff_mag {a b : Word} (ha : isFinite a = true) (hb : isFinite b = true) :
    |Exact.val a| < |Exact.val b| ↔ mag a < mag b := by
  have hfa := fracNat_lt a
  have hfb := fracNat_lt b
  rw [mag_eq, mag_eq]
  rcases Nat.lt_trichotomy (expNat a) (expNat b) with h | h | h
  · exact iff_of_true (abs_val_lt_of_expNat_lt ha hb h) (by omega)
  · rw [abs_val_lt_iff_of_expNat_eq ha hb h]
    omega
  · exact iff_of_false (abs_val_lt_of_expNat_lt hb ha h).not_gt (by omega)

theorem mag_eq_zero_iff (x : Word) : mag x = 0 ↔ isZero x = true := by
  rw [mag_eq, isZero_iff]
  omega

/-- Finite values compare as the keys do: by magnitude between equal signs; between different ones, the negative is the smaller,
since the keys are not both 0. -/
theorem val_lt_of_signedMag_lt {a b : Word} (ha : isFinite a = true) (hb : isFinite b = true)
    (h : signedMag a < signedMag b) : Exact.val a < Exact.val b := by
  have hnonneg := abs_nonneg (Exact.val a)
  have hnonneg' := abs_nonneg (Exact.val b)
  have hzero := (abs_val_eq_zero_iff ha).trans (mag_eq_zero_iff a).symm
  have hzero' := (abs_val_eq_zero_iff hb).trans (mag_eq_zero_iff b).symm
  rw [val_eq_withSign ha, val_eq_withSign hb, withSign, withSign]
  unfold signedMag at h
  split_ifs at h ⊢
  · exact neg_lt_neg ((abs_val_lt_iff_mag hb ha).mpr (by omega))
  · have hne : ¬ (|Exact.val a| = 0 ∧ |Exact.val b| = 0) := by
      rw [hzero, hzero']
      omega
    exact lt_of_le_of_ne (by linarith) fun heq => hne ⟨by linarith, by linarith⟩
  · omega
  · exact (abs_val_lt_iff_mag ha hb).mpr (by omega)

/-- The extended value and the key of a pattern that is not a NaN: the infinities are at the ends of both. -/
theorem xv_cases {x : Word} (h : isNaN x = false) :
    (isFinite x = true ∧ -0x7F800000 < signedMag x ∧ signedMag x < 0x7F800000 ∧
        Exact.xv x = ((Exact.val x : WithTop ℚ) : WithBot (WithTop ℚ))) ∨
      (signedMag x = 0x7F800000 ∧ Exact.xv x = ((⊤ : WithTop ℚ) : WithBot (WithTop ℚ))) ∨
      (signedMag x = -0x7F800000 ∧ Exact.xv x = ⊥) := by
  have hmag := mag_eq x
  have habs := natAbs_signedMag x
  have hfrac := fracNat_lt x
  rcases finite_inf_or_nan x with hx | hx | hx
  · have hexp := (isFinite_iff x).mp hx
    have hxv : Exact.xv x = _ := if_neg (by simp [not_isInf_of_isFinite hx])
    exact .inl ⟨hx, by omega, by omega, hxv⟩
  · obtain ⟨hexp, hzero⟩ := (isInf_iff x).mp hx
    rcases signOf_cases x with hs | hs
    · exact .inr (.inl ⟨by rw [signedMag_of_positive hs]; omega, by simp [Exact.xv, hx, hs]⟩)
    · exact .inr (.inr ⟨by rw [signedMag_of_negative hs]; omega, by simp [Exact.xv, hx, hs]⟩)
  · simp [hx] at h

theorem xv_lt_of_signedMag_lt {a b : Word} (hno : NoNaN a b) (h : signedMag a < signedMag b) : Exact.xv a < Exact.xv b := by
  obtain ⟨hna, hnb⟩ := hno
  have hcases := xv_cases hnb
  obtain ⟨ha, hlow, hup, hxa⟩ | ⟨htop, hxa⟩ | ⟨hbot, hxa⟩ := xv_cases hna
  · obtain ⟨hb, -, -, hxb⟩ | ⟨-, hxb⟩ | ⟨hbot, -⟩ := hcases
    · rw [hxa, hxb, WithBot.coe_lt_coe, WithTop.coe_lt_coe]
      exact val_lt_of_signedMag_lt ha hb h
    · rw [hxa, hxb, WithBot.coe_lt_coe]
      exact WithTop.coe_lt_top _
    · omega
  · omega
  · obtain ⟨-, -, -, hxb⟩ | ⟨-, hxb⟩ | ⟨hbot', -⟩ := hcases
    · rw [hxa, hxb]
      exact WithBot.bot_lt_coe _
    · rw [hxa, hxb]
      exact WithBot.bot_lt_coe _
    · omega

theorem xv_of_mag_zero {x : Word} (h : mag x = 0) : Exact.xv x = ((0 : WithTop ℚ) : WithBot (WithTop ℚ)) := by
  have hz := (mag_eq_zero_iff x).mp h
  have hfinite := (isFinite_iff_zero_subnormal_or_normal x).mpr (.inl hz)
  simp [Exact.xv, Exact.val, hz, not_isInf_of_isFinite hfinite]

/-- Equal keys are one pattern or two zeros. -/
theorem xv_eq_of_signedMag_eq {a b : Word} (h : signedMag a = signedMag b) : Exact.xv a = Exact.xv b := by
  rw [← eqBits_iff_signedMag, eqBits_iff_rule, bothZeroRule_iff_mag] at h
  rcases h with rfl | ⟨ha, hb⟩
  · rfl
  · rw [xv_of_mag_zero ha, xv_of_mag_zero hb]

/-- Values compare as the keys do. -/
theorem cmp_signedMag {a b : Word} (hno : NoNaN a b) :
    cmp (signedMag a) (signedMag b) = cmp (Exact.xv a) (Exact.xv b) := by
  rcases lt_trichotomy (signedMag a) (signedMag b) with h | h | h
  · rw [h.cmp_eq_lt, (xv_lt_of_signedMag_lt hno h).cmp_eq_lt]
  · rw [h.cmp_eq_eq, (xv_eq_of_signedMag_eq h).cmp_eq_eq]
  · rw [h.cmp_eq_gt, (xv_lt_of_signedMag_lt hno.symm h).cmp_eq_gt]

/-- Settles O53: the comparisons are those of the keys, and the extended values compare as the keys do. -/
theorem comparatorComparesValues : Obligations.ComparatorComparesValues := by
  intro a b s hno
  have hcmp := cmp_signedMag hno
  have hcmp' := cmp_signedMag hno.symm
  have heq := eq_iff_eq_of_cmp_eq_cmp hcmp
  exact ⟨(answersT_eq hno s).congr heq, (answersT_ne hno s).congr heq.not,
    (answersT_lt hno s).congr (lt_iff_lt_of_cmp_eq_cmp hcmp), (answersT_le hno s).congr (le_iff_le_of_cmp_eq_cmp hcmp),
    (answersT_gt hno s).congr (lt_iff_lt_of_cmp_eq_cmp hcmp'), (answersT_ge hno s).congr (le_iff_le_of_cmp_eq_cmp hcmp')⟩

end Sys2Proof.Machine

/-! PROOFS. The family of 47_int_conversion, TO_INT32: the value rule (R250) over the exact rationals. -/

namespace Sys2Proof.Machine

/-! ### The rounded integer of a signed rational -/

/-- An integer within a half of `y`, and even when it is a half away, is `rne_int(y)`: two integers that are both a half away
differ by 1, and are not both even. -/
theorem exact_rneInt_unique {y : ℚ} {n : ℤ} (hnear : |(n : ℚ) - y| ≤ 1 / 2) (heven : |(n : ℚ) - y| = 1 / 2 → n % 2 = 0) :
    Exact.rneInt y = n := by
  obtain ⟨hnear', heven'⟩ := exact_rneInt_spec y
  have htri : |((n - Exact.rneInt y : ℤ) : ℚ)| ≤ |(n : ℚ) - y| + |(Exact.rneInt y : ℚ) - y| := by
    rw [Int.cast_sub, abs_sub_comm (Exact.rneInt y : ℚ) y]
    exact abs_sub_le _ _ _
  by_contra hne
  have hone : (1 : ℚ) ≤ |((n - Exact.rneInt y : ℤ) : ℚ)| := by
    exact_mod_cast Int.one_le_abs (sub_ne_zero.mpr (Ne.symm hne))
  have hle : |((n - Exact.rneInt y : ℤ) : ℚ)| ≤ 1 := by linarith
  have hle' : |n - Exact.rneInt y| ≤ 1 := by exact_mod_cast hle
  have hparity := heven (by linarith)
  have hparity' := heven' (by linarith)
  have := abs_le.mp hle'
  omega

theorem exact_rneInt_intCast (n : ℤ) : Exact.rneInt (n : ℚ) = n :=
  exact_rneInt_unique (by norm_num) (by norm_num)

theorem exact_rneInt_neg (y : ℚ) : Exact.rneInt (-y) = -Exact.rneInt y := by
  have hdist : |((-Exact.rneInt y : ℤ) : ℚ) - -y| = |(Exact.rneInt y : ℚ) - y| := by
    rw [Int.cast_neg, neg_sub_neg, abs_sub_comm]
  obtain ⟨hnear, heven⟩ := exact_rneInt_spec y
  refine exact_rneInt_unique (hdist ▸ hnear) fun h => ?_
  have := heven (hdist ▸ h)
  omega

/-! ### The value rule over the exact rationals -/

theorem toInt32Int_eq_exact (a : Word) : toInt32Int a = Exact.toInt32 a := by
  refine ite_congr rfl (fun _ => rfl) fun hnan => ite_congr rfl (fun _ => rfl) fun hinf => ?_
  rw [val_eq_units ((finite_inf_or_nan a).resolve_right (not_or.mpr ⟨hinf, hnan⟩)), rneInt_eq_exact _ (by decide)]
  rfl

theorem answersR_toInt32 (a : Word) (s : State) : AnswersR (.toInt32 a) s (BitVec.ofInt 32 (Exact.toInt32 a)) :=
  toInt32Int_eq_exact a ▸ answersR_of_exec rfl

theorem answersR_toInt32_of_eq {a : Word} {n : ℤ} (h : Exact.toInt32 a = n) (s : State) :
    AnswersR (.toInt32 a) s (BitVec.ofInt 32 n) := h ▸ answersR_toInt32 a s

/-- Settles O54: the units that the model rounds are those of the rational value. -/
theorem toInt32GivesTheRoundedInteger : Obligations.ToInt32GivesTheRoundedInteger := fun a b c s =>
  ⟨decode_requestBits 0xE#4 a b c, answersR_toInt32 a s⟩

end Sys2Proof.Machine

/-! PROOFS. The family of 47_int_conversion, the laws of TO_INT32 (R252). -/

namespace Sys2Proof.Machine

theorem exact_toInt32_of_isNaN {a : Word} (h : isNaN a = true) : Exact.toInt32 a = 2 ^ 31 - 1 := if_pos h

theorem exact_toInt32_of_isFinite {a : Word} (h : isFinite a = true) :
    Exact.toInt32 a = clampInt (Exact.rneInt (Exact.val a)) (-2 ^ 31) (2 ^ 31 - 1) := by
  simp [Exact.toInt32, clampInt, not_isNaN_of_isFinite h, not_isInf_of_isFinite h]

theorem clampInt_of_mem {x lo hi : ℤ} (hlo : lo ≤ x) (hhi : x ≤ hi) : clampInt x lo hi = x := by
  rw [clampInt, if_neg hlo.not_gt, if_neg hhi.not_gt]

/-- In the range of law (a) nothing saturates: the rounded integer is an int32. -/
theorem exact_rneInt_mem_int32 {y : ℚ} (hlow : -2 ^ 31 ≤ y) (hup : y < 2 ^ 31 - 1 / 2) :
    -2 ^ 31 ≤ Exact.rneInt y ∧ Exact.rneInt y < 2 ^ 31 := by
  obtain ⟨hge, hle⟩ := abs_le.mp (exact_rneInt_spec y).1
  have hlt : (-2 ^ 31 - 1 : ℤ) < Exact.rneInt y := by
    rw [← Int.cast_lt (R := ℚ)]
    push_cast
    linarith
  have hlt' : Exact.rneInt y < (2 ^ 31 : ℤ) := by
    rw [← Int.cast_lt (R := ℚ)]
    push_cast
    linarith
  exact ⟨by omega, hlt'⟩

theorem exact_toInt32_of_mem {a : Word} (ha : isFinite a = true) (hlow : -2 ^ 31 ≤ Exact.val a)
    (hup : Exact.val a < 2 ^ 31 - 1 / 2) : Exact.toInt32 a = Exact.rneInt (Exact.val a) := by
  obtain ⟨hge, hlt⟩ := exact_rneInt_mem_int32 hlow hup
  rw [exact_toInt32_of_isFinite ha, clampInt_of_mem hge (by omega)]

/-- Below exponent field 158 a magnitude is at most the greatest significand in units of 2^7, and from 158 on it is at least
2^31. -/
theorem abs_val_le_or_two_pow_le {a : Word} (ha : isFinite a = true) : |Exact.val a| ≤ 2 ^ 31 - 128 ∨ 2 ^ 31 ≤ |Exact.val a| := by
  rw [abs_val_eq_tripleValue ha]
  rcases Nat.lt_or_ge (expNat a) 158 with h | h
  · left
    have hsig : (addAligned (expNat a) (fracNat a) : ℚ) ≤ 0xFFFFFF * 64 := by
      have hlt := addAligned_lt a
      have hdvd := dvd_addAligned (expNat a) (fracNat a)
      exact_mod_cast (by omega : addAligned (expNat a) (fracNat a) ≤ 0xFFFFFF * 64)
    have hpow : (2 : ℚ) ^ ((expNat a : ℤ) - 156) ≤ 2 ^ (1 : ℤ) := zpow_le_zpow_right₀ (by norm_num) (by omega)
    calc tripleValue (expNat a) (addAligned (expNat a) (fracNat a)) ≤ 0xFFFFFF * 64 * 2 ^ (1 : ℤ) := by
          unfold tripleValue
          gcongr
      _ = 2 ^ 31 - 128 := by norm_num
  · right
    have hsig : 2 ^ 29 ≤ addAligned (expNat a) (fracNat a) := by
      have := addAligned_of_pos (by omega : 0 < expNat a) (fracNat a)
      omega
    calc (2 : ℚ) ^ 31 = 2 ^ ((31 : ℕ) : ℤ) := (zpow_natCast _ _).symm
      _ ≤ 2 ^ ((expNat a : ℤ) + ((29 : ℕ) - 156)) := zpow_le_zpow_right₀ (by norm_num) (by omega)
      _ ≤ tripleValue (expNat a) (addAligned (expNat a) (fracNat a)) := two_zpow_le_tripleValue hsig

theorem isFinite_xor_signBit (x : Word) : isFinite (x ^^^ 0x80000000#32) = isFinite x := by
  rw [isFinite, isFinite, expNat_xor_signBit]

theorem val_xor_signBit {a : Word} (ha : isFinite a = true) : Exact.val (a ^^^ 0x80000000#32) = -Exact.val a := by
  rw [val_eq_withSign ((isFinite_xor_signBit a).trans ha), signOf_xor_signBit, abs_val_xor_signBit, withSign_not, withSign_neg,
    ← val_eq_withSign ha]

/-- Settles O55: inside the range no value saturates, rounding is odd in its operand, and a NaN's sign is not looked at. -/
theorem lawsOfToInt32 : Obligations.LawsOfToInt32 := by
  intro a s
  refine ⟨fun ha hlow hup => ?_, fun ha ⟨hlow, hup⟩ => ?_, fun ha habs => ?_, fun hnan => ?_⟩
  · obtain ⟨hge, hlt⟩ := exact_rneInt_mem_int32 hlow hup
    rw [← exact_toInt32_of_mem ha hlow hup] at hge hlt
    refine ⟨Exact.toInt32 a, hge, hlt, answersR_toInt32 a s, ?_⟩
    rw [exact_toInt32_of_mem ha hlow hup, abs_sub_comm]
    exact exact_rneInt_spec _
  · have habs : |Exact.val a| = Exact.val a := abs_of_pos (by linarith)
    rcases abs_val_le_or_two_pow_le ha with h | h <;> linarith
  · obtain ⟨hlow, hup⟩ := abs_lt.mp habs
    have hneg : Exact.toInt32 (a ^^^ 0x80000000#32) = -Exact.toInt32 a := by
      rw [exact_toInt32_of_mem ((isFinite_xor_signBit a).trans ha) (by rw [val_xor_signBit ha]; linarith)
        (by rw [val_xor_signBit ha]; linarith), exact_toInt32_of_mem ha (by linarith) hup, val_xor_signBit ha, exact_rneInt_neg]
    exact ⟨_, answersR_toInt32 a s, BitVec.ofInt_neg ▸ answersR_toInt32_of_eq hneg s⟩
  · have hnan' : isNaN (a ^^^ 0x80000000#32) = true := (isNaN_xor_signBit a).trans hnan
    exact ⟨_, answersR_toInt32_of_eq (exact_toInt32_of_isNaN hnan) s, answersR_toInt32_of_eq (exact_toInt32_of_isNaN hnan') s⟩

end Sys2Proof.Machine

/-! PROOFS. The family of 47_int_conversion, the datapath of TO_INT32 (R251): the shifted significand, rounded by its remainder,
gives the value rule. -/

namespace Sys2Proof.Machine

theorem roundToIntegral_of_le {e : ℕ} (he : 150 ≤ e) (m : ℕ) : roundToIntegral e m = m * 2 ^ (e - 150) := if_pos he

/-- The comparison of the remainder with half the divisor is rounding to nearest even. -/
theorem roundToIntegral_of_lt {e : ℕ} (he : e < 150) (m : ℕ) : roundToIntegral e m = rneNat m (2 ^ (150 - e)) := by
  obtain ⟨k, hk⟩ : ∃ k, 150 - e = k + 1 := Nat.exists_eq_add_one.mpr (by omega)
  have hhalf : 2 ^ (k + 1) = 2 * 2 ^ k := pow_succ' 2 k
  rw [roundToIntegral, if_neg he.not_ge, hk, rneNat]
  dsimp only
  rw [Nat.add_sub_cancel]
  split_ifs <;> omega

/-- The datapath rounds a significand to the nearest integer of its value. -/
theorem roundToIntegral_eq_exact (e m : ℕ) : (roundToIntegral e m : ℤ) = Exact.rneInt (m * 2 ^ ((e : ℤ) - 150) : ℚ) := by
  rcases Nat.lt_or_ge e 150 with he | he
  · rw [roundToIntegral_of_lt he, ← exact_rneInt_div m (by positivity), show (e : ℤ) - 150 = -((150 - e : ℕ) : ℤ) by omega,
      zpow_neg, zpow_natCast, div_eq_mul_inv, Nat.cast_pow, Nat.cast_ofNat]
  · rw [roundToIntegral_of_le he, show (e : ℤ) - 150 = ((e - 150 : ℕ) : ℤ) by omega, zpow_natCast]
    exact_mod_cast (exact_rneInt_intCast ((m * 2 ^ (e - 150) : ℕ) : ℤ)).symm

/-- The integer that `to_int32_core` rounds a magnitude to; a subnormal is far below a half. -/
def integralMagnitude (a : Word) : ℕ := if expNat a = 0 then 0 else roundToIntegral (expNat a) (2 ^ 23 + fracNat a)

theorem integralMagnitude_eq_exact {a : Word} (ha : isFinite a = true) :
    (integralMagnitude a : ℤ) = Exact.rneInt |Exact.val a| := by
  rw [integralMagnitude]
  split_ifs with he
  · have hfrac : (fracNat a : ℚ) < 2 ^ 23 := by exact_mod_cast fracNat_lt a
    have hsmall : (fracNat a / 2 ^ 149 : ℚ) < 1 / 2 := by
      rw [div_lt_iff₀ (by positivity)]
      linarith
    have hnonneg : (0 : ℚ) ≤ fracNat a / 2 ^ 149 := by positivity
    rw [abs_val_eq_magUnits ha, magUnits_of_exp_zero he]
    exact (exact_rneInt_of_near (by push_cast; linarith) (by push_cast; linarith)).symm
  · rw [abs_val_of_isNormal ((isNormal_iff a).mpr ⟨Nat.pos_of_ne_zero he, (isFinite_iff a).mp ha⟩), roundToIntegral_eq_exact,
      normalSignificand]

theorem exact_rneInt_val {a : Word} (ha : isFinite a = true) :
    Exact.rneInt (Exact.val a) = if signOf a = 1#1 then -(integralMagnitude a : ℤ) else integralMagnitude a := by
  rw [integralMagnitude_eq_exact ha, ← exact_rneInt_neg]
  conv_lhs => rw [val_eq_withSign ha, withSign]
  exact apply_ite Exact.rneInt _ _ _

/-- Down to -2^31, which is one pattern whether in range or saturated. -/
theorem ofInt_clampInt_neg (n : ℕ) : BitVec.ofInt 32 (clampInt (-n) (-2 ^ 31) (2 ^ 31 - 1)) =
    if 2 ^ 31 ≤ n then 0x80000000#32 else int32Word (-n) := by
  split_ifs with h
  · have hclamp : clampInt (-n) (-2 ^ 31) (2 ^ 31 - 1) = -2 ^ 31 := by
      rw [clampInt]
      split_ifs <;> omega
    rw [hclamp]
    rfl
  · rw [clampInt_of_mem (by omega) (by omega), int32Word]

theorem ofInt_clampInt_natCast (n : ℕ) : BitVec.ofInt 32 (clampInt n (-2 ^ 31) (2 ^ 31 - 1)) =
    if 2 ^ 31 - 1 < n then 0x7FFFFFFF#32 else BitVec.ofNat 32 n := by
  split_ifs with h
  · have hclamp : clampInt n (-2 ^ 31) (2 ^ 31 - 1) = 2 ^ 31 - 1 := by
      rw [clampInt]
      split_ifs <;> omega
    rw [hclamp]
    rfl
  · rw [clampInt_of_mem (by omega) (by omega), BitVec.ofInt_natCast]

theorem toInt32Core_of_isFinite {a : Word} (ha : isFinite a = true) :
    toInt32Core a = BitVec.ofInt 32 (Exact.toInt32 a) := by
  rw [exact_toInt32_of_isFinite ha, exact_rneInt_val ha, toInt32Core, if_neg (by simp [not_isNaN_of_isFinite ha]),
    if_neg ((isFinite_iff_ne a).mp ha)]
  by_cases hs : signOf a = 1#1
  · rw [if_pos hs, if_pos hs, ofInt_clampInt_neg]
    rfl
  · rw [if_neg hs, if_neg hs, ofInt_clampInt_natCast]
    rfl

/-- Settles O56: the special cases are those of the value rule, and the datapath rounds the magnitude of a finite operand. -/
theorem toInt32DatapathGivesTheValueRule : Obligations.ToInt32DatapathGivesTheValueRule := by
  intro a
  rcases finite_inf_or_nan a with ha | ha | ha
  · exact toInt32Core_of_isFinite ha
  · have hnan := not_isNaN_of_isInf ha
    have hexp := ((isInf_iff a).mp ha).1
    rcases signOf_cases a with hs | hs <;> simp [toInt32Core, Exact.toInt32, ha, hnan, hexp, hs]
  · rw [exact_toInt32_of_isNaN ha, toInt32Core, if_pos ha]
    rfl

end Sys2Proof.Machine

/-! PROOFS. The family of 47_int_conversion, FROM_INT32: the value rule (R255), and its datapath (R256). -/

namespace Sys2Proof.Machine

/-! ### The integer of an operand -/

/-- Two's complement: the sign bit counts -2^32 (30_encoding R68). -/
theorem toInt_cases (a : Word) : (signOf a = 0#1 ∧ a.toNat < 2 ^ 31 ∧ a.toInt = a.toNat) ∨
    (signOf a = 1#1 ∧ 2 ^ 31 ≤ a.toNat ∧ a.toInt = (a.toNat : ℤ) - 2 ^ 32) := by
  have hlt := a.isLt
  have hsign := signOf_toNat a
  rw [BitVec.toInt_eq_toNat_cond]
  rcases signOf_cases a with hs | hs
  · rw [hs, BitVec.toNat_ofNat] at hsign
    exact .inl ⟨hs, by omega, if_pos (by omega)⟩
  · rw [hs, BitVec.toNat_ofNat] at hsign
    exact .inr ⟨hs, by omega, if_neg (by omega)⟩

theorem toInt_neg_iff_signOf (a : Word) : a.toInt < 0 ↔ signOf a = 1#1 := by
  have hlt := a.isLt
  obtain ⟨hs, hlow, hint⟩ | ⟨hs, hhigh, hint⟩ := toInt_cases a
  · exact iff_of_false (by omega) (by simp [hs])
  · exact iff_of_true (by omega) hs

theorem toInt_eq_zero_iff (a : Word) : a.toInt = 0 ↔ a = 0#32 := by
  rw [← BitVec.toInt_inj, BitVec.toInt_zero]

/-- The magnitude that the datapath starts from. -/
theorem natAbs_toInt (a : Word) : a.toInt.natAbs = if signOf a = 1#1 then (-a).toNat else a.toNat := by
  have hlt := a.isLt
  obtain ⟨hs, hlow, hint⟩ | ⟨hs, hhigh, hint⟩ := toInt_cases a
  · rw [if_neg (by simp [hs]), hint, Int.natAbs_natCast]
  · rw [if_pos hs, BitVec.toNat_neg]
    omega

theorem natAbs_toInt_lt {a : Word} (h : a ≠ 0x80000000#32) : a.toInt.natAbs < 2 ^ 31 := by
  have hne : a.toNat ≠ 2 ^ 31 := fun h' => h (BitVec.eq_of_toNat_eq h')
  rw [BitVec.toInt_eq_toNat_cond]
  split_ifs <;> omega

theorem natAbs_toInt_lt_overflowThreshold (x : Word) : x.toInt.natAbs < overflowThreshold := by
  have hthr : 2 ^ 32 < overflowThreshold := by decide
  have := x.isLt
  rcases toInt_cases x with ⟨-, -, hint⟩ | ⟨-, -, hint⟩ <;> omega

theorem toInt_eq_withSign (a : Word) : (a.toInt : ℚ) = withSign (signOf a) a.toInt.natAbs := by
  rw [withSign, Nat.cast_natAbs, Int.cast_abs]
  split_ifs with hs
  · rw [abs_of_neg (by exact_mod_cast (toInt_neg_iff_signOf a).mpr hs), neg_neg]
  · rw [abs_of_nonneg (by exact_mod_cast not_lt.mp (mt (toInt_neg_iff_signOf a).mp hs))]

/-! ### The value rule -/

theorem fromInt32Value_eq_exact (a : Word) : fromInt32Value a = Exact.fromInt32 a := by
  rw [fromInt32Value, Exact.fromInt32, int32Of_eq_toInt, integerRoundingIsRoundRNE _ _ 1 Nat.one_pos, Nat.cast_one, div_one,
    Nat.cast_natAbs, Int.cast_abs]

/-- The integer's magnitude rounded once, with the operand's sign bit; 0 is no exception, because its sign bit is 0. -/
theorem exact_fromInt32_eq (a : Word) : Exact.fromInt32 a = roundRNE (signOf a) a.toInt.natAbs 1 := by
  have hsign : (if a.toInt < 0 then 1#1 else 0#1) = signOf a := by
    rcases signOf_cases a with hs | hs <;> simp [toInt_neg_iff_signOf, hs]
  rw [← fromInt32Value_eq_exact, fromInt32Value, int32Of_eq_toInt, hsign]
  split_ifs with h0
  · rw [(toInt_eq_zero_iff a).mp h0]
    rfl
  · rfl

theorem answersR_fromInt32 (a : Word) (s : State) : AnswersR (.fromInt32 a) s (Exact.fromInt32 a) :=
  fromInt32Value_eq_exact a ▸ answersR_of_exec rfl

theorem answersR_fromInt32_of_eq {a r : Word} (h : Exact.fromInt32 a = r) (s : State) : AnswersR (.fromInt32 a) s r :=
  h ▸ answersR_fromInt32 a s

/-- Settles O57: the integer that the model rounds is the operand in two's complement. -/
theorem fromInt32GivesTheRoundedValue : Obligations.FromInt32GivesTheRoundedValue := fun a b c s =>
  ⟨decode_requestBits 0xF#4 a b c, answersR_fromInt32 a s⟩

/-! ### The datapath -/

/-- Settles O59: -2^31 is the one magnitude that does not fit the significand of `norm_round_and_pack`. -/
theorem fromInt32DatapathGivesTheValueRule : Obligations.FromInt32DatapathGivesTheValueRule := by
  intro a
  rw [fromInt32Core, ← natAbs_toInt]
  split_ifs with h0 hmin
  · rw [h0]
    rfl
  · have hround : roundRNE (signOf 0x80000000#32) (BitVec.toInt 0x80000000#32).natAbs 1 = 0xCF000000#32 := by decide
    rw [hmin, exact_fromInt32_eq, hround]
  · have hpos : 0 < a.toInt.natAbs := Int.natAbs_pos.mpr (mt (toInt_eq_zero_iff a).mp h0)
    rw [normRoundAndPackIsRoundRNE _ _ _ hpos (natAbs_toInt_lt hmin), exact_fromInt32_eq,
      integerRoundingIsRoundRNE _ _ 1 Nat.one_pos]
    norm_num

end Sys2Proof.Machine

/-! PROOFS. The family of 47_int_conversion, the laws of FROM_INT32 (R257). -/

namespace Sys2Proof.Machine

/-! ### Which integers convert exactly -/

/-- An odd factor of at most 24 bits, times a power of two. -/
def FitsSignificand (m : ℕ) : Prop := ∃ k j : ℕ, m = 2 ^ k * j ∧ j % 2 = 1 ∧ j < 2 ^ 24

/-- A magnitude has at most 24 bits above its low zeros. -/
theorem exists_magUnits_eq_mul_two_pow (x : Word) : ∃ j i, j < 2 ^ 24 ∧ magUnits x = j * 2 ^ i := by
  have hf := fracNat_lt x
  rcases Nat.eq_zero_or_pos (expNat x) with he | he
  · exact ⟨fracNat x, 0, by omega, by rw [magUnits_of_exp_zero he, pow_zero, Nat.mul_one]⟩
  · exact ⟨_, _, by omega, magUnits_of_exp_pos he⟩

/-- A magnitude of 24 bits above its low zeros is not rounded: the last place is no coarser than the lowest of the 24 bits. -/
theorem RoundsUnits.magUnits_eq {s : BitVec 1} {r : Word} {j i k n : ℕ} (hr : RoundsUnits s (j * 2 ^ i : ℚ) r k n)
    (hj : j < 2 ^ 24) : magUnits r = j * 2 ^ i := by
  have hki : k ≤ i := by
    rcases hr.normal with h | h
    · omega
    · have hj' : (j : ℚ) < 2 ^ 24 := by exact_mod_cast hj
      have hlt : (2 ^ 23 * 2 ^ k : ℚ) < 2 ^ 24 * 2 ^ i := h.trans_lt (by gcongr)
      rw [← pow_add, ← pow_add, pow_lt_pow_iff_right₀ one_lt_two] at hlt
      omega
  obtain ⟨d, rfl⟩ := Nat.exists_eq_add_of_le hki
  have hquot : (j * 2 ^ (k + d) / 2 ^ k : ℚ) = ((j * 2 ^ d : ℕ) : ℤ) := by
    rw [pow_add]
    push_cast
    field_simp
  have hn := hr.rounded
  rw [hquot, exact_rneInt_intCast] at hn
  rw [hr.magnitude, Int.natCast_inj.mp hn, pow_add]
  ring

/-- An integer's magnitude rounds to a value equal to it exactly when it has at most 24 bits above its low zeros. -/
theorem abs_val_roundRNE_eq_iff (s : BitVec 1) {m : ℕ} (hm : 0 < m) (hov : m < overflowThreshold) :
    |Exact.val (roundRNE s m 1)| = m ↔ FitsSignificand m := by
  obtain ⟨i, n, hr⟩ := exists_roundsUnits_roundRNE s Nat.one_pos (by omega : m < overflowThreshold * 1)
  have hunits : |Exact.val (roundRNE s m 1)| = m ↔ magUnits (roundRNE s m 1) = m * 2 ^ 149 := by
    rw [abs_val_eq_magUnits hr.finite, div_eq_iff (by positivity)]
    exact_mod_cast Iff.rfl
  rw [hunits]
  constructor
  · intro hmag
    obtain ⟨j', i', hj', hmag'⟩ := exists_magUnits_eq_mul_two_pow (roundRNE s m 1)
    obtain ⟨k, j, hodd, rfl⟩ := Nat.exists_eq_two_pow_mul_odd hm.ne'
    have hdvd : j ∣ j' * 2 ^ i' := ⟨2 ^ k * 2 ^ 149, by rw [← hmag', hmag]; ring⟩
    have hdvd' : j ∣ j' := (hodd.coprime_two_right.pow_right i').dvd_of_dvd_mul_right hdvd
    have hpos : 0 < j' := Nat.pos_of_ne_zero fun h0 => by
      rw [hmag, h0, Nat.zero_mul] at hmag'
      exact absurd hmag' (by positivity)
    exact ⟨k, j, rfl, Nat.odd_iff.mp hodd, (Nat.le_of_dvd hpos hdvd').trans_lt hj'⟩
  · rintro ⟨k, j, rfl, -, hj⟩
    have hQ : (((2 ^ k * j : ℕ) : ℚ) / ((1 : ℕ) : ℚ) * 2 ^ 149) = j * 2 ^ (k + 149) := by
      push_cast
      ring
    rw [hQ] at hr
    rw [hr.magUnits_eq hj, pow_add]
    ring

/-- An odd factor of a number up to 2^24 is not 2^24. -/
theorem fitsSignificand_of_le {m : ℕ} (hm : 0 < m) (hle : m ≤ 2 ^ 24) : FitsSignificand m := by
  obtain ⟨k, j, hodd, rfl⟩ := Nat.exists_eq_two_pow_mul_odd hm.ne'
  have hj : j ≤ 2 ^ k * j := Nat.le_mul_of_pos_left j (Nat.two_pow_pos k)
  have hmod := Nat.odd_iff.mp hodd
  exact ⟨k, j, rfl, hmod, by omega⟩

theorem withSign_inj {s : BitVec 1} {x y : ℚ} : withSign s x = withSign s y ↔ x = y := by
  unfold withSign
  split_ifs
  · exact neg_inj
  · rfl

/-- FROM_INT32 answers a finite pattern with the sign bit of its operand. -/
theorem exact_fromInt32_finite (x : Word) :
    isFinite (Exact.fromInt32 x) = true ∧ signOf (Exact.fromInt32 x) = signOf x := by
  have hov := natAbs_toInt_lt_overflowThreshold x
  obtain ⟨k, n, hr⟩ := exists_roundsUnits_roundRNE (signOf x) Nat.one_pos (by omega : x.toInt.natAbs < overflowThreshold * 1)
  rw [exact_fromInt32_eq]
  exact ⟨hr.finite, hr.sign⟩

theorem val_fromInt32_eq_iff (x : Word) :
    Exact.val (Exact.fromInt32 x) = x.toInt ↔ x.toInt = 0 ∨ FitsSignificand x.toInt.natAbs := by
  obtain ⟨hfinite, hsign⟩ := exact_fromInt32_finite x
  have hsame : Exact.val (Exact.fromInt32 x) = x.toInt ↔ |Exact.val (Exact.fromInt32 x)| = x.toInt.natAbs := by
    conv_lhs => rw [val_eq_withSign hfinite, hsign, toInt_eq_withSign, withSign_inj]
  rw [hsame, exact_fromInt32_eq]
  rcases Nat.eq_zero_or_pos x.toInt.natAbs with h0 | hpos
  · rw [h0, roundRNE_zero, Nat.cast_zero]
    exact iff_of_true ((abs_val_eq_zero_iff (roundsUnits_zero _).finite).mpr (isZero_signedZero _))
      (.inl (Int.natAbs_eq_zero.mp h0))
  · rw [abs_val_roundRNE_eq_iff _ hpos (natAbs_toInt_lt_overflowThreshold x), or_iff_right (Int.natAbs_pos.mp hpos)]

/-! ### The round trip -/

theorem exact_toInt32_of_val_eq {r x : Word} (hr : isFinite r = true) (hval : Exact.val r = x.toInt) :
    Exact.toInt32 r = x.toInt := by
  have hlow := BitVec.le_toInt x
  have hup := BitVec.toInt_lt (x := x)
  rw [exact_toInt32_of_isFinite hr, hval, exact_rneInt_intCast, clampInt_of_mem (by omega) (by omega)]

/-! ### Negation -/

/-- What `RoundRNE` gives but for the sign does not depend on the sign. -/
theorem exists_roundRNE_eq_pattern (num : ℕ) {den : ℕ} (hd : 0 < den) :
    ∃ E F, E < 256 ∧ F < 2 ^ 23 ∧ ∀ s, roundRNE s num den = pattern s E F := by
  rcases Nat.eq_zero_or_pos num with rfl | hn
  · exact ⟨0, 0, by omega, by omega, fun s => by rw [roundRNE_zero, signedZero_eq_pattern]⟩
  · by_cases hov : overflowThreshold * den ≤ num
    · exact ⟨255, 0, by omega, by omega, fun s => by rw [roundRNE_overflow hn hov, signedInf_eq_pattern]⟩
    · obtain ⟨hup, hlow, hn24, hsub, -⟩ := roundRNE_range hn hd (not_le.mp hov)
      have hassemble (s : BitVec 1) := roundRNE_eq_assemble (s := s) hn (not_le.mp hov)
      generalize max (floorLog2 num den) (-126) = E at *
      generalize rneNat (scaledNum num (E - 23)) (scaledDen den (E - 23)) = n at *
      obtain ⟨e, rfl⟩ : ∃ e : ℕ, E = e - 126 := ⟨(E + 126).toNat, by omega⟩
      exact ⟨e + n / 2 ^ 23, n % 2 ^ 23, by omega, by omega,
        fun s => (hassemble s).trans (assembleRounded_eq_pattern hn24 fun h => by have := hsub h; omega)⟩

theorem pattern_not (s : BitVec 1) {E F : ℕ} (hE : E < 256) (hF : F < 2 ^ 23) :
    pattern (~~~s) E F = pattern s E F ^^^ 0x80000000#32 :=
  eq_of_fields (by rw [signOf_xor_signBit, signOf_pattern _ hE hF, signOf_pattern _ hE hF])
    (by rw [expNat_xor_signBit, expNat_pattern _ hE hF, expNat_pattern _ hE hF])
    (by rw [fracNat_xor_signBit, fracNat_pattern _ hE hF, fracNat_pattern _ hE hF])

theorem roundRNE_not (s : BitVec 1) (num : ℕ) {den : ℕ} (hd : 0 < den) :
    roundRNE (~~~s) num den = roundRNE s num den ^^^ 0x80000000#32 := by
  obtain ⟨E, F, hE, hF, hround⟩ := exists_roundRNE_eq_pattern num hd
  rw [hround, hround, pattern_not s hE hF]

theorem exact_fromInt32_neg {x : Word} (h0 : x ≠ 0x00000000#32) (hmin : x ≠ 0x80000000#32) :
    Exact.fromInt32 (-x) = Exact.fromInt32 x ^^^ 0x80000000#32 := by
  have hint : (-x).toInt = -x.toInt := BitVec.toInt_neg_of_ne_intMin hmin
  have hne : x.toInt ≠ 0 := mt (toInt_eq_zero_iff x).mp h0
  have hsign : signOf (-x) = ~~~signOf x := by
    rw [eq_not_iff_ne]
    intro hs
    have hneg : (-x).toInt < 0 ↔ x.toInt < 0 := by rw [toInt_neg_iff_signOf, toInt_neg_iff_signOf, hs]
    omega
  rw [exact_fromInt32_eq, exact_fromInt32_eq, hint, Int.natAbs_neg, hsign, roundRNE_not _ _ Nat.one_pos]

/-- Settles O58: up to 2^24 every magnitude fits the significand, and rounding does not look at the sign. -/
theorem lawsOfFromInt32 : Obligations.LawsOfFromInt32 := by
  intro x s
  refine ⟨fun hle => ?_, ⟨_, answersR_fromInt32 x s, ?_⟩, fun h0 hmin => ?_⟩
  · have hfits : x.toInt = 0 ∨ FitsSignificand x.toInt.natAbs := by
      rw [Int.abs_eq_natAbs] at hle
      rcases Nat.eq_zero_or_pos x.toInt.natAbs with h | h
      · exact .inl (Int.natAbs_eq_zero.mp h)
      · exact .inr (fitsSignificand_of_le h (by omega))
    have hint := exact_toInt32_of_val_eq (exact_fromInt32_finite x).1 ((val_fromInt32_eq_iff x).mpr hfits)
    have hans := answersR_toInt32_of_eq hint s
    rw [BitVec.ofInt_toInt] at hans
    exact ⟨_, answersR_fromInt32 x s, hans⟩
  · rw [val_fromInt32_eq_iff, FitsSignificand, Int.abs_eq_natAbs]
    exact_mod_cast Iff.rfl
  · exact ⟨_, answersR_fromInt32 x s, answersR_fromInt32_of_eq (exact_fromInt32_neg h0 hmin) s⟩

end Sys2Proof.Machine

/-! PROOFS. The families of 60_exceptions and 70_reset_and_hazards, the machine: no step stops (60_exceptions R270, R272), what
the turn of the block, of a requester and of a reset does (60_exceptions R283, 70_reset R300, R301, R306), and the state right
after reset (R304, R305). -/

namespace Sys2Proof.Machine

/-! ### The block's turn -/

theorem blockTurn_of_idle {s : State} (h : s.inFlight = []) : blockTurn s = .next s := by simp [blockTurn, h]

theorem blockTurn_of_oldest {s : State} {p : Pending} {rest : List Pending} (h : s.inFlight = p :: rest) :
    blockTurn s = delivered p (exec (decode p.bits) { s with inFlight := rest }) := by simp [blockTurn, h]

/-- The response of a request that no requester of the model issued is delivered to nobody (log 19). -/
theorem delivered_of_none {p : Pending} (h : p.requester = none) (o : Host.Outcome State Fault Refusal) :
    delivered p o = o := by
  cases o with
  | next s => simp [delivered, deliver_none s h]
  | fault r => rfl
  | refused r => rfl

theorem blockTurn_completes (s : State) : ∃ t, blockTurn s = .next t := by
  cases h : s.inFlight with
  | nil => exact ⟨s, blockTurn_of_idle h⟩
  | cons p rest =>
    obtain ⟨t, ht⟩ := exec_completes (decode p.bits) { s with inFlight := rest }
    exact ⟨deliver p t, by rw [blockTurn_of_oldest h, ht]; rfl⟩

/-! ### The step, by the turn laid down -/

theorem step_of_turn {s : State} {turn : Turn} {turns : List Turn} (h : s.turns = turn :: turns) :
    step s = takeTurn { s with turns := turns } turn := by simp [step, systemStep, h]

theorem step_of_no_turn {s : State} (h : s.turns = []) : step s = defaultTurn s := by simp [step, systemStep, h]

/-- With a request in flight, the block's turn is one laid down, or that of a state with none laid down (log 6). -/
theorem step_of_oldest {s : State} {p : Pending} {rest : List Pending} {turns : List Turn} (hflight : s.inFlight = p :: rest)
    (hturn : s.turns = .block :: turns ∨ (s.turns = [] ∧ turns = [])) :
    step s = delivered p (exec (decode p.bits) { s with inFlight := rest, turns := turns }) := by
  obtain hturn | ⟨hturn, rfl⟩ := hturn
  · rw [step_of_turn hturn]
    exact blockTurn_of_oldest hflight
  · have hstate : ({ s with inFlight := rest } : State) = { s with inFlight := rest, turns := [] } := by rw [← hturn]
    rw [step_of_no_turn hturn, defaultTurn, if_neg (by simp [hflight]), blockTurn_of_oldest hflight, hstate]

theorem step_of_requester {s : State} {k : Nat} {q : Requester} {turns : List Turn} (hturn : s.turns = .requester k :: turns)
    (hq : s.requesters[k]? = some q) :
    step s = .next ((requesterMove k q { s with turns := turns }).getD { s with turns := turns }) := by
  rw [step_of_turn hturn, takeTurn, requesterTurn]
  simp only [hq]

theorem step_of_reset {s : State} {turns : List Turn} (hturn : s.turns = .reset :: turns) :
    step s = .next (resetBlock { s with turns := turns }) := step_of_turn hturn

theorem takeTurn_completes (s : State) (turn : Turn) : ∃ t, takeTurn s turn = .next t := by
  cases turn with
  | block => exact blockTurn_completes s
  | requester k => exact ⟨_, rfl⟩
  | reset => exact ⟨_, rfl⟩

theorem defaultTurn_completes (s : State) : ∃ t, defaultTurn s = .next t := by
  unfold defaultTurn
  split
  · exact ⟨_, rfl⟩
  · exact blockTurn_completes s

theorem step_completes (s : State) : ∃ t, step s = .next t := by
  cases h : s.turns with
  | nil => exact step_of_no_turn h ▸ defaultTurn_completes s
  | cons turn turns => exact step_of_turn h ▸ takeTurn_completes _ turn

/-- A run goes on by what its first step answers. -/
theorem run_succ_of_step {s t : State} (h : step s = .next t) (n : Nat) :
    Sys2Proof.core.run (n + 1) s = Sys2Proof.core.run n t := by
  have hcore : Sys2Proof.core.step s = .next t := h
  simp only [Host.Core.run, hcore]

/-- Settles O7: whoever has the turn, the step answers a next state; a run by induction on its length. -/
theorem noStepEverStops : Obligations.NoStepEverStops := by
  refine ⟨exec_completes, step_completes, fun s n => ?_⟩
  induction n generalizing s with
  | zero => exact ⟨s, rfl⟩
  | succ n ih =>
    obtain ⟨t, ht⟩ := step_completes s
    obtain ⟨u, hu⟩ := ih t
    exact ⟨u, (run_succ_of_step ht n).trans hu⟩

/-! ### Delivering a response -/

theorem deliver_requesters_set {p : Pending} {k : Nat} {q : Requester} {s : State} (hp : p.requester = some k)
    (hq : s.requesters[k]? = some q) :
    (deliver p s).requesters = s.requesters.set k (receive s.inFlight k p.into s.response q) := by
  rw [deliver_some s hp, List.modify_eq_set_getElem?, hq]
  rfl

/-! ### A request placed from outside -/

/-- A number below 2^100 is placed as the request of its bits, in a table of at least 100 bits. -/
theorem withFetchWord_of_lt {nbits w : Nat} (hbits : 100 ≤ nbits) (hw : w < 2 ^ 100) (s : State) :
    s.withFetchWord nbits w = placeRequest (BitVec.ofNat 100 w) s := by
  rw [State.withFetchWord, tableNumber, Nat.mod_eq_of_lt (hw.trans_le (Nat.pow_le_pow_right (by omega) hbits))]

/-- The next step runs a request placed from outside, at the state itself, and delivers its response to nobody. -/
theorem step_withFetchWord {nbits w : Nat} (hbits : 100 ≤ nbits) (hw : w < 2 ^ 100) (s : State) :
    step (s.withFetchWord nbits w) = exec (decode (BitVec.ofNat 100 w)) s := by
  rw [withFetchWord_of_lt hbits hw, step_of_oldest (placeRequest_inFlight _ s) (.inl (placeRequest_turns _ s)),
    delivered_of_none rfl]
  rfl

/-- Settles O6: the block's turn, the requester that takes the response, and a request placed from outside. -/
theorem stepRunsTheOldestRequest : Obligations.StepRunsTheOldestRequest := by
  refine ⟨fun s p rest turns hflight hturn => step_of_oldest hflight hturn, fun p s => deliver_none s, fun p s k q hp hq => ?_,
    fun s w hw => step_withFetchWord (by omega) hw s⟩
  exact ⟨deliver_inFlight p s, deliver_turns p s, deliver_response p s, _, deliver_requesters_set hp hq, rfl, rfl, rfl⟩

/-! ### A requester's move, by the step it is at -/

section

variable {k : Nat} {q : Requester} (s : State)

theorem requesterMove_at_issue {op : BitVec 4} {a b c : StepOperand} {into : List (ResponseField × Nat)} {va vb vc : Word}
    (h : q.program[q.pos]? = some (.issue op a b c into)) (ha : evalOperand q.names a = some va)
    (hb : evalOperand q.names b = some vb) (hc : evalOperand q.names c = some vc) :
    requesterMove k q s = some (issueRequest k q (requestBits op va vb vc) into s) := by simp [requesterMove, h, ha, hb, hc]

theorem requesterMove_at_issue_waits {op : BitVec 4} {a b c : StepOperand} {into : List (ResponseField × Nat)}
    (h : q.program[q.pos]? = some (.issue op a b c into))
    (hwait : evalOperand q.names a = none ∨ evalOperand q.names b = none ∨ evalOperand q.names c = none) :
    requesterMove k q s = none := by
  rw [requesterMove, h]
  dsimp only
  split
  · rename_i ha hb hc
    simp [ha, hb, hc] at hwait
  · rfl

theorem requesterMove_at_assign {n : Nat} {v : StepOperand} (h : q.program[q.pos]? = some (.assign n v)) :
    requesterMove k q s = (evalOperand q.names v).map fun w =>
      setRequester k { q with pos := q.pos + 1, names := bindName n w q.names } s := by
  cases hv : evalOperand q.names v <;> simp [requesterMove, h, hv]

theorem requesterMove_at_branch {v : StepOperand} {is : Word} {target : Nat}
    (h : q.program[q.pos]? = some (.branch v is target)) :
    requesterMove k q s = (evalOperand q.names v).map fun w =>
      setRequester k { q with pos := if w = is then target else q.pos + 1 } s := by
  cases hv : evalOperand q.names v <;> simp [requesterMove, h, hv]

theorem requesterMove_at_reset (h : q.program[q.pos]? = some .reset) :
    requesterMove k q s = some (setRequester k { q with pos := q.pos + 1 } (resetBlock s)) := by simp [requesterMove, h]

theorem requesterMove_at_stop (h : q.program[q.pos]? = some .stop) :
    requesterMove k q s = some (setRequester k { q with pos := q.program.length } s) := by simp [requesterMove, h]

theorem requesterMove_past_end (h : q.program[q.pos]? = none) : requesterMove k q s = none := by simp [requesterMove, h]

end

/-! ### The names a response binds -/

theorem supersededBy_iff (younger : List Pending) (k n : Nat) :
    supersededBy younger k n = true ↔ ∃ y ∈ younger, y.requester = some k ∧ ∃ d ∈ y.into, d.2 = n := by
  simp [supersededBy]

theorem bindAll_append (x : Response) (into into' : List (ResponseField × Nat)) (names : List (Nat × Word)) :
    bindAll x (into ++ into') names = bindAll x into' (bindAll x into names) := List.foldl_append

/-- A name is bound to the last field listed with it. -/
theorem lookupName_bindAll_last {x : Response} {before after : List (ResponseField × Nat)} {f : ResponseField} {n : Nat}
    (hlast : ∀ d ∈ after, d.2 ≠ n) (names : List (Nat × Word)) :
    lookupName n (bindAll x (before ++ (f, n) :: after) names) = some (x.get f) := by
  rw [bindAll_append]
  exact (lookupName_bindAll_of_not_mem hlast).trans ((lookupName_bindName n n _ _).trans (if_pos rfl))

/-- A name that a younger request lists, or that the request does not list, keeps what it is bound to. -/
theorem lookupName_receive_kept {younger : List Pending} {k n : Nat} {into : List (ResponseField × Nat)} (x : Response)
    (q : Requester) (h : supersededBy younger k n = true ∨ ∀ d ∈ into, d.2 ≠ n) :
    lookupName n (receive younger k into x q).names = lookupName n q.names := by
  refine lookupName_bindAll_of_not_mem fun d hd hn => ?_
  obtain ⟨hmem, hnot⟩ := List.mem_filter.mp hd
  obtain h | h := h
  · simp [hn, h] at hnot
  · exact h d hmem hn

/-- Any other name is bound to the last field listed with it. -/
theorem lookupName_receive_bound {younger : List Pending} {k n : Nat} {before after : List (ResponseField × Nat)}
    {f : ResponseField} (x : Response) (q : Requester) (h : supersededBy younger k n = false) (hlast : ∀ d ∈ after, d.2 ≠ n) :
    lookupName n (receive younger k (before ++ (f, n) :: after) x q).names = some (x.get f) := by
  rw [receive, List.filter_append, List.filter_cons, if_pos (by simp [h])]
  exact lookupName_bindAll_last (fun d hd => hlast d (List.mem_of_mem_filter hd)) q.names

/-- Settles O11: the turn is the move of the step the requester is at; then the names that its response binds. -/
theorem requestersStepAndBindNames : Obligations.RequestersStepAndBindNames := by
  refine ⟨fun s k q turns hturn hq => ?_, fun s p k q hp hq => ?_⟩
  · have hstep := step_of_requester hturn hq
    refine ⟨fun op a b c into h => ⟨fun hwait => ?_, fun va vb vc ha hb hc => ?_⟩, fun n v h => ⟨fun hv => ?_, fun w hv => ?_⟩,
      fun v is target h => ⟨fun hv => ?_, fun hv => ?_, fun w hv hne => ?_⟩, fun h => ?_, fun h => ?_, fun h => ?_⟩
    -- an issue step
    · rw [hstep, requesterMove_at_issue_waits _ h hwait, Option.getD_none]
    · rw [requesterMove_at_issue _ h ha hb hc] at hstep
      exact ⟨_, hstep, rfl, rfl, rfl, _, rfl, rfl, rfl, rfl, fun n => lookupName_unbindAll n into q.names⟩
    -- an assign step
    · rw [hstep, requesterMove_at_assign _ h, hv, Option.map_none, Option.getD_none]
    · rw [requesterMove_at_assign _ h, hv] at hstep
      exact ⟨_, hstep, rfl, rfl, rfl, fun m => lookupName_bindName m n w q.names⟩
    -- a branch step
    · rw [hstep, requesterMove_at_branch _ h, hv, Option.map_none, Option.getD_none]
    · rw [hstep, requesterMove_at_branch _ h, hv, Option.map_some, if_pos rfl]
      rfl
    · rw [hstep, requesterMove_at_branch _ h, hv, Option.map_some, if_neg hne]
      rfl
    -- a reset step, a stop, and past the end
    · rw [requesterMove_at_reset _ h] at hstep
      exact ⟨_, hstep, rfl, rfl, rfl⟩
    · rw [hstep, requesterMove_at_stop _ h]
      rfl
    · rw [hstep, requesterMove_past_end _ h, Option.getD_none]
  · refine ⟨receive s.inFlight k p.into s.response q, by simp [deliver_some s hp, hq], fun n => ?_⟩
    dsimp only
    rw [← supersededBy_iff]
    refine ⟨lookupName_receive_kept s.response q, fun hnot before after f hinto hlast => ?_⟩
    rw [hinto, lookupName_receive_bound s.response q (Bool.eq_false_of_not_eq_true hnot) hlast]

/-! ### Reset -/

/-- Settles O13: nothing is in flight right after reset, and there is no requester. -/
theorem invariantHoldsAtReset : Obligations.InvariantHoldsAtReset := ⟨by simp, by simp⟩

/-- Settles O10: the reset empties the queue, and no operation looks at the state for the fields it drives. -/
theorem resetCancelsRequestsInFlight : Obligations.ResetCancelsRequestsInFlight := fun _ _ hturn =>
  ⟨_, step_of_reset hturn, rfl, rfl, rfl, fun _ _ _ hu hv => exec_get_eq hu hv⟩

/-- Settles O12: the first request is run at the state of reset, within the frame of its operation. -/
theorem nothingInFlightAtReset : Obligations.NothingInFlightAtReset := by
  refine ⟨rfl, rfl, rfl, fun w hw => ?_⟩
  obtain ⟨u, hu⟩ := exec_completes (decode (BitVec.ofNat 100 w)) State.reset
  obtain ⟨hflight, -⟩ := exec_sameSystem hu
  exact ⟨u, u, (step_withFetchWord (by omega) hw _).trans hu, hu, hflight, fun _ _ => rfl, fun _ _ hv => exec_get_eq hu hv⟩

end Sys2Proof.Machine

/-! PROOFS. The family of 60_exceptions, the refusals of the internal units (R273; 92_eei_decisions D29). -/

namespace Sys2Proof.Machine

/-- Settles O24: the first, second and last unit test their precondition and nothing else; inside theirs, the two rounding units
answer `RoundRNE`. -/
theorem unitsRefuseOutsidePreconditions : Obligations.UnitsRefuseOutsidePreconditions := by
  refine ⟨fun s E F => ?_, fun f => ?_, fun s e sig => ⟨?_, fun h => ?_⟩, fun s e sig => ⟨?_, fun h => ?_⟩, fun a b => ?_⟩
  · simp [packRaw]
  · simp [normSubnormal]
  -- round_and_pack
  · rintro ⟨r, hr⟩ ⟨hsig, hnorm⟩
    simp [roundAndPack_eq hsig hnorm] at hr
  · exact ⟨_, if_pos (by omega)⟩
  -- norm_round_and_pack
  · rintro ⟨r, hr⟩ ⟨h0, hsig⟩
    simp [normRoundAndPackIsRoundRNE _ _ _ h0 hsig] at hr
  · exact ⟨_, if_neg h⟩
  · simp [propagateNan]

end Sys2Proof.Machine

/-! PROOFS. The family of 60_exceptions, the IEEE conditions (R271): each only shapes the response. -/

namespace Sys2Proof.Machine

/-! ### Invalid operations and conversions -/

theorem isArithmetic_of_invalidOperation {i : Instr} (h : invalidOperation i = true) : isArithmetic i = true := by
  cases i with
  | add | sub | mul | div | sqrt => rfl
  | _ => simp [invalidOperation] at h

theorem answersR_of_invalidOperation {i : Instr} (h : arises i .invalidOperation = true) (s : State) :
    AnswersR i s Config.defaultNan :=
  (nanResultIffNanOperandOrInvalid i s (isArithmetic_of_invalidOperation h)).2.1 h

/-- TO_INT32 rounds the value in units of 2^-149 to the integer that the rational value rounds to. -/
theorem rneInt_units_eq_exact {a : Word} (ha : isFinite a = true) :
    rneInt (units a) unitsPerOne = Exact.rneInt (Exact.val a) := by
  rw [rneInt_eq_exact _ (by decide), val_eq_units ha]

/-- A rounded integer outside the range of an int32 saturates on the side of its sign, which is the operand's. -/
theorem exact_toInt32_of_outOfRange {a : Word} (ha : isFinite a = true)
    (h : Exact.rneInt (Exact.val a) < -2 ^ 31 ∨ 2 ^ 31 ≤ Exact.rneInt (Exact.val a)) :
    Exact.toInt32 a = if signOf a = 1#1 then -2 ^ 31 else 2 ^ 31 - 1 := by
  rw [exact_rneInt_val ha] at h
  rw [exact_toInt32_of_isFinite ha, exact_rneInt_val ha, clampInt]
  split_ifs at h ⊢ <;> omega

/-- An invalid conversion gives the end of the range on the operand's side, the upper one for a NaN. -/
theorem exact_toInt32_of_invalidConversion {a : Word} (h : arises (.toInt32 a) .invalidConversion = true) :
    Exact.toInt32 a = if isNaN a = false ∧ signOf a = 1#1 then -2 ^ 31 else 2 ^ 31 - 1 := by
  rcases finite_inf_or_nan a with ha | ha | ha
  · have hnan := not_isNaN_of_isFinite ha
    have hout : Exact.rneInt (Exact.val a) < -2 ^ 31 ∨ 2 ^ 31 ≤ Exact.rneInt (Exact.val a) := by
      simpa [arises, hnan, not_isInf_of_isFinite ha, rneInt_units_eq_exact ha] using h
    simpa [hnan] using exact_toInt32_of_outOfRange ha hout
  · simp [Exact.toInt32, not_isNaN_of_isInf ha, ha]
  · simp [exact_toInt32_of_isNaN ha, ha]

theorem answersR_of_invalidConversion {a : Word} (h : arises (.toInt32 a) .invalidConversion = true) (s : State) :
    AnswersR (.toInt32 a) s (if isNaN a = false ∧ signOf a = 1#1 then 0x80000000#32 else 0x7FFFFFFF#32) := by
  have hans := answersR_toInt32_of_eq (exact_toInt32_of_invalidConversion h) s
  split_ifs at hans ⊢
  · exact hans
  · exact hans

/-! ### NaN operands and zero divisors -/

theorem answersR_of_signalingOperand {i : Instr} (h : arises i .signalingOperand = true) (s : State) :
    ∃ r, AnswersR i s r ∧ classify r = .quietNaN := by
  obtain ⟨harith, hsig⟩ : isArithmetic i = true ∧ (floatOperands i).any isSignaling = true := by simpa [arises] using h
  obtain ⟨x, hx, hxsig⟩ := List.any_eq_true.mp hsig
  have hnan : hasNaNOperand i = true := List.any_eq_true.mpr ⟨x, hx, isNaN_of_isSignaling hxsig⟩
  obtain ⟨r, hans, hrule⟩ := exists_nanRule harith
  exact ⟨r, hans s, (hrule.classify_of_isNaN (hrule.isNaN_iff.mpr (.inl hnan))).1⟩

theorem answersT_of_nanComparison {i : Instr} (h : arises i .nanComparison = true) (s : State) : AnswersT i s False := by
  obtain ⟨hcmp, hnan⟩ : isComparison i = true ∧ hasNaNOperand i = true := by simpa [arises] using h
  cases i with
  | eq a b | ne a b | lt a b | le a b | gt a b | ge a b =>
    have hor : isNaN a = true ∨ isNaN b = true := by simpa [hasNaNOperand, floatOperands] using hnan
    exact answersT_false_of_nan rfl hor
  | _ => simp [isComparison] at hcmp

theorem answersR_of_divisionByZero {a b : Word} (h : arises (.div a b) .divisionByZero = true) (s : State) :
    AnswersR (.div a b) s (pattern (signOf a ^^^ signOf b) 0xFF 0) := by
  obtain ⟨⟨ha, hza⟩, hzb⟩ : (isFinite a = true ∧ isZero a = false) ∧ isZero b = true := by simpa [arises] using h
  have hb : isFinite b = true := (isFinite_iff_zero_subnormal_or_normal b).mpr (.inl hzb)
  have hval : divValue a b = signedInf (signOf a ^^^ signOf b) := by
    simp [divValue, not_isNaN_of_isFinite, not_isInf_of_isFinite, ha, hb, hza, hzb]
  rw [← signedInf_eq_pattern, ← hval]
  exact answersR_of_exec rfl

/-! ### Conditions of an exact magnitude -/

theorem exists_exactMagnitude_of_any {i : Instr} {p : Nat × Nat → Bool} (h : (exactMagnitude i).any p = true) :
    ∃ num den, exactMagnitude i = some (num, den) ∧ p (num, den) = true := by
  cases hmag : exactMagnitude i with
  | none => simp [hmag] at h
  | some q => exact ⟨q.1, q.2, rfl, by simpa [hmag] using h⟩

theorem arises_underflow_of_exactMagnitude {i : Instr} {num den : Nat} (h : exactMagnitude i = some (num, den)) :
    arises i .underflow = underflows num den := by simp [arises, h]

/-- SQRT and TO_INT32, which have inexact rules of their own, have no exact magnitude. -/
theorem arises_inexact_of_exactMagnitude {i : Instr} {num den : Nat} (h : exactMagnitude i = some (num, den)) :
    arises i .inexact = roundsInexactly num den := by
  cases i with
  | sqrt | toInt32 => simp [exactMagnitude] at h
  | _ => simp [arises, h]

theorem answersR_of_overflow {i : Instr} (h : arises i .overflow = true) (s : State) :
    ∃ r, AnswersR i s r ∧ isInf r = true := by
  obtain ⟨num, den, hmag, hov⟩ := exists_exactMagnitude_of_any h
  obtain ⟨r, hans, hinf⟩ := overflowIsAlwaysInfinity.2 i s num den hmag
  exact ⟨r, hans, hinf.mpr hov⟩

/-! ### Underflow: the response -/

/-- The patterns up to 2^-126, which is `2^23` units of 2^-149. -/
theorem zero_subnormal_or_least_normal {x : Word} (h : magUnits x ≤ 2 ^ 23) :
    isZero x = true ∨ isSubnormal x = true ∨ (expNat x = 1 ∧ fracNat x = 0) := by
  rw [isZero_iff, isSubnormal_iff]
  rcases Nat.eq_zero_or_pos (expNat x) with he | he
  · omega
  · rw [magUnits_of_exp_pos he] at h
    rcases Nat.eq_zero_or_pos (expNat x - 1) with he' | he'
    · rw [he', pow_zero] at h
      omega
    · have hpow : 2 ^ 1 ≤ 2 ^ (expNat x - 1) := Nat.pow_le_pow_right (by omega) he'
      have hmul := Nat.mul_le_mul_left (2 ^ 23 + fracNat x) hpow
      omega

/-- Below 2^-126 the rounding is to whole units, and at most up to 2^-126. -/
theorem magUnits_roundRNE_le_of_small (sign : BitVec 1) {num den : Nat} (hd : 0 < den) (hsmall : num * 2 ^ 126 < den) :
    magUnits (roundRNE sign num den) ≤ 2 ^ 23 := by
  obtain ⟨-, hmag, -⟩ := underflowIsGradual sign num den hd hsmall
  have hQ : (num / den * 2 ^ 149 : ℚ) < 2 ^ 23 := by
    have hsmall' : (num * 2 ^ 126 : ℚ) < den := by exact_mod_cast hsmall
    rw [div_mul_eq_mul_div, div_lt_iff₀ (by exact_mod_cast hd)]
    linarith
  have hnear := (abs_le.mp (exact_rneInt_spec (num / den * 2 ^ 149)).1).2
  rw [← hmag] at hnear
  have hlt : (magUnits (roundRNE sign num den) : ℚ) < (2 ^ 23 + 1 : ℕ) := by
    push_cast at hnear ⊢
    linarith
  exact Nat.le_of_lt_succ (by exact_mod_cast hlt)

/-- An operation whose exact magnitude is below 2^-126 answers at most 2^-126 (R129). -/
theorem answersR_of_small {i : Instr} {num den : Nat} (h : exactMagnitude i = some (num, den)) (hsmall : num * 2 ^ 126 < den)
    (s : State) : ∃ r, AnswersR i s r ∧ magUnits r ≤ 2 ^ 23 := by
  obtain ⟨hd, sign, hans⟩ := answersR_of_exactMagnitude h
  exact ⟨_, hans s, magUnits_roundRNE_le_of_small sign hd hsmall⟩

theorem answersR_of_underflow {i : Instr} (h : arises i .underflow = true) (s : State) :
    ∃ r, AnswersR i s r ∧ magUnits r ≤ 2 ^ 23 := by
  obtain ⟨num, den, hmag, hunder⟩ := exists_exactMagnitude_of_any h
  exact answersR_of_small hmag (lt_of_underflows (answersR_of_exactMagnitude hmag).1 hunder) s

/-! ### Underflow: when it arises -/

/-- The significand that a fraction rounds to in its own binade, with no bound on the exponent. -/
def unboundedSignificand (num den : Nat) : Nat :=
  rneNat (scaledNum num (floorLog2 num den - 23)) (scaledDen den (floorLog2 num den - 23))

theorem roundedExponent_eq (num den : Nat) : roundedExponent num den =
    if unboundedSignificand num den = 2 ^ 24 then floorLog2 num den + 1 else floorLog2 num den := rfl

theorem exact_roundUnbounded_eq {num den : Nat} (hn : 0 < num) (hd : 0 < den) :
    Exact.roundUnbounded (num / den : ℚ) = unboundedSignificand num den * 2 ^ (floorLog2 num den - 23) := by
  rw [Exact.roundUnbounded, ← floorLog2_eq_log hn hd, ← scaled_eq num hd, exact_rneInt_div _ (scaledDen_pos hd _),
    Int.cast_natCast, unboundedSignificand]

/-- A power of two at or above the last place of a significand of 24 bits, in units of that place. -/
theorem two_zpow_eq_mul_lastPlace {E F : ℤ} {k : ℕ} (h : F = k + (E - 23)) : (2 : ℚ) ^ F = 2 ^ k * 2 ^ (E - 23) :=
  h ▸ two_zpow_natCast_add k (E - 23)

/-- The significand has 24 bits, or is 2^24 when the rounding carries out. -/
theorem unboundedSignificand_bounds {num den : Nat} (hn : 0 < num) (hd : 0 < den) :
    2 ^ 23 ≤ unboundedSignificand num den ∧ unboundedSignificand num den ≤ 2 ^ 24 := by
  obtain ⟨hlow, hup⟩ := floorLog2_spec hn hd
  rw [unboundedSignificand]
  generalize floorLog2 num den = E at *
  have hdpos := scaledDen_pos hd (E - 23)
  have hdposq : (0 : ℚ) < scaledDen den (E - 23) := by exact_mod_cast hdpos
  have hlow' : (2 ^ 23 * scaledDen den (E - 23) : ℚ) ≤ scaledNum num (E - 23) := by
    rwa [← le_div_iff₀ hdposq, scaled_eq num hd, le_div_iff₀ (by positivity), ← two_zpow_eq_mul_lastPlace (F := E) (by omega)]
  have hup' : (scaledNum num (E - 23) : ℚ) ≤ 2 ^ 24 * scaledDen den (E - 23) := by
    rw [← div_le_iff₀ hdposq, scaled_eq num hd, div_le_iff₀ (by positivity),
      ← two_zpow_eq_mul_lastPlace (F := E + 1) (by omega)]
    exact hup.le
  rw [← rneNat_of_mul (2 ^ 23) hdpos, ← rneNat_of_mul (2 ^ 24) hdpos]
  exact ⟨rneNat_mono hdpos (by exact_mod_cast hlow'), rneNat_mono hdpos (by exact_mod_cast hup')⟩

/-- The rounded magnitude lies in the binade of the rounded exponent. -/
theorem roundUnbounded_binade {num den : Nat} (hn : 0 < num) (hd : 0 < den) :
    (2 : ℚ) ^ roundedExponent num den ≤ Exact.roundUnbounded (num / den : ℚ) ∧
      Exact.roundUnbounded (num / den : ℚ) < 2 ^ (roundedExponent num den + 1) := by
  obtain ⟨hlow, hup⟩ := unboundedSignificand_bounds hn hd
  rw [exact_roundUnbounded_eq hn hd, roundedExponent_eq]
  generalize floorLog2 num den = E
  generalize unboundedSignificand num den = n at *
  have hplace : (0 : ℚ) < 2 ^ (E - 23) := by positivity
  have h24 : (2 : ℚ) ^ (E + 1) = 2 ^ 24 * 2 ^ (E - 23) := two_zpow_eq_mul_lastPlace (by omega)
  split_ifs with hcarry
  · have h25 : (2 : ℚ) ^ (E + 1 + 1) = 2 ^ 25 * 2 ^ (E - 23) := two_zpow_eq_mul_lastPlace (by omega)
    rw [h24, h25, hcarry]
    push_cast
    exact ⟨le_rfl, by linarith⟩
  · have h23 : (2 : ℚ) ^ E = 2 ^ 23 * 2 ^ (E - 23) := two_zpow_eq_mul_lastPlace (by omega)
    have hlowq : (2 ^ 23 : ℚ) ≤ n := by exact_mod_cast hlow
    have hupq : (n : ℚ) < 2 ^ 24 := by exact_mod_cast lt_of_le_of_ne hup hcarry
    rw [h23, h24]
    exact ⟨by gcongr, by gcongr⟩

/-- The test on the rounded exponent is the test on the rounded magnitude (10_state R21; log 25). -/
theorem underflows_iff_roundUnbounded (num : Nat) {den : Nat} (hd : 0 < den) :
    underflows num den = true ↔ num ≠ 0 ∧ Exact.roundUnbounded (num / den : ℚ) < 2 ^ (-126 : ℤ) := by
  rw [underflows, Bool.and_eq_true, decide_eq_true_eq, decide_eq_true_eq]
  refine and_congr_right fun hn => ?_
  obtain ⟨hlow, hup⟩ := roundUnbounded_binade (Nat.pos_of_ne_zero hn) hd
  constructor
  · exact fun hE => hup.trans_le (zpow_le_zpow_right₀ (by norm_num) hE)
  · exact fun hq => (zpow_lt_zpow_iff_right₀ (by norm_num)).mp (hlow.trans_lt hq)

/-! ### Inexact results -/

theorem signOf_roundRNE (s : BitVec 1) (num : Nat) {den : Nat} (hd : 0 < den) : signOf (roundRNE s num den) = s := by
  obtain ⟨E, F, hE, hF, hround⟩ := exists_roundRNE_eq_pattern num hd
  rw [hround, signOf_pattern s hE hF]

/-- The magnitude that `RoundRNE` gives does not depend on the sign. -/
theorem magUnits_roundRNE_congr (s t : BitVec 1) (num : Nat) {den : Nat} (hd : 0 < den) :
    magUnits (roundRNE s num den) = magUnits (roundRNE t num den) := by
  obtain ⟨E, F, hE, hF, hround⟩ := exists_roundRNE_eq_pattern num hd
  rw [hround, hround]
  simp only [magUnits, expNat_pattern _ hE hF, fracNat_pattern _ hE hF]

theorem abs_val_eq_div_iff {x : Word} (hx : isFinite x = true) (num : Nat) {den : Nat} (hd : 0 < den) :
    |Exact.val x| = num / den ↔ magUnits x * den = num * unitsPerOne := by
  have hd' : (den : ℚ) ≠ 0 := by exact_mod_cast hd.ne'
  rw [abs_val_eq_magUnits hx, div_eq_div_iff (by positivity) hd', unitsPerOne]
  exact_mod_cast Iff.rfl

/-- A magnitude is rounded inexactly when the result is an infinity or of another magnitude. -/
theorem roundsInexactly_iff (sign : BitVec 1) (num : Nat) {den : Nat} (hd : 0 < den) :
    roundsInexactly num den = true ↔ isInf (roundRNE sign num den) = true ∨ |Exact.val (roundRNE sign num den)| ≠ num / den := by
  rw [roundsInexactly, Bool.or_eq_true, decide_eq_true_eq, ← isInf_roundRNE_iff sign num hd,
    magUnits_roundRNE_congr 0#1 sign num hd]
  rcases finite_inf_or_nan (roundRNE sign num den) with hr | hr | hr
  · rw [Ne, Ne, abs_val_eq_div_iff hr num hd]
  · simp only [hr, true_or]
  · simp [roundRNE_not_nan sign num hd] at hr

/-- An operation answers its exact magnitude rounded once, and is inexact when that is another magnitude (R126). -/
theorem answersR_rounded {i : Instr} {num den : Nat} (h : exactMagnitude i = some (num, den)) (s : State) :
    ∃ r, AnswersR i s r ∧ r = Exact.roundRNE (signOf r) (num / den : ℚ) ∧
      (arises i .inexact = true ↔ isInf r = true ∨ |Exact.val r| ≠ num / den) := by
  obtain ⟨hd, sign, hans⟩ := answersR_of_exactMagnitude h
  refine ⟨_, hans s, ?_, ?_⟩
  · rw [signOf_roundRNE sign num hd, integerRoundingIsRoundRNE sign num den hd]
  · rw [arises_inexact_of_exactMagnitude h, roundsInexactly_iff sign num hd]

theorem val_nonneg_of_signOf_zero {x : Word} (hx : isFinite x = true) (hs : signOf x = 0#1) : 0 ≤ Exact.val x := by
  rw [val_of_signOf_zero hx hs]
  exact abs_nonneg _

/-- A positive pattern is the root of a positive one when its square is, in units of 2^-149. -/
theorem val_eq_sqrt_iff {x a : Word} (hx : isFinite x = true) (hxs : signOf x = 0#1) (ha : isFinite a = true)
    (has : signOf a = 0#1) :
    (Exact.val x : ℝ) = Real.sqrt (Exact.val a : ℝ) ↔ magUnits x * magUnits x = magUnits a * unitsPerOne := by
  have hx0 : (0 : ℝ) ≤ Exact.val x := by exact_mod_cast val_nonneg_of_signOf_zero hx hxs
  have ha0 : (0 : ℝ) ≤ Exact.val a := by exact_mod_cast val_nonneg_of_signOf_zero ha has
  have hsq : Exact.val a = Exact.val x * Exact.val x ↔ magUnits x * magUnits x = magUnits a * unitsPerOne := by
    rw [val_of_signOf_zero hx hxs, val_of_signOf_zero ha has, abs_val_eq_magUnits hx, abs_val_eq_magUnits ha, div_mul_div_comm,
      div_eq_div_iff (by positivity) (by positivity), unitsPerOne, ← Nat.cast_inj (R := ℚ)]
    push_cast
    exact ⟨fun h => by linarith, fun h => by linarith⟩
  rw [eq_comm, Real.sqrt_eq_iff_mul_self_eq ha0 hx0, ← hsq]
  exact_mod_cast Iff.rfl

theorem answersR_sqrt_rounded {a : Word} (ha : isFinite a = true) (hz : isZero a = false) (hs : signOf a = 0#1) (s : State) :
    ∃ r, AnswersR (.sqrt a) s r ∧ r = Exact.roundRNE 0#1 (Real.sqrt (Exact.val a : ℝ)) ∧
      (arises (.sqrt a) .inexact = true ↔ (Exact.val r : ℝ) ≠ Real.sqrt (Exact.val a : ℝ)) := by
  obtain ⟨x, hx, -⟩ := exists_nearestRoot ha hz
  have hval := hx.sqrtValue_eq ha hz hs
  refine ⟨x, answersR_sqrt_of_eq hval s, ?_, ?_⟩
  · rw [val_of_signOf_zero ha hs, hx.exact_roundRNE_eq]
  · rw [Ne, val_eq_sqrt_iff (isFinite_of_isNormal hx.normal) hx.sign ha hs]
    simp [arises, ha, hz, hs, hval]

theorem arises_inexact_toInt32_iff {a : Word} (ha : isFinite a = true) :
    arises (.toInt32 a) .inexact = true ↔ (Exact.rneInt (Exact.val a) : ℚ) ≠ Exact.val a := by
  have hexact : (Exact.rneInt (Exact.val a) : ℚ) = Exact.val a ↔ Exact.rneInt (Exact.val a) * unitsPerOne = units a := by
    conv_lhs => rhs; rw [val_eq_units ha]
    rw [eq_div_iff (by norm_num [unitsPerOne])]
    exact_mod_cast Iff.rfl
  rw [Ne, hexact]
  simp [arises, ha, rneInt_units_eq_exact ha]

/-- Nothing but an operation that rounds is inexact. -/
theorem rounds_of_inexact {i : Instr} (h : arises i .inexact = true) :
    (∃ num den, exactMagnitude i = some (num, den)) ∨
      (∃ a, i = .sqrt a ∧ isFinite a = true ∧ isZero a = false ∧ signOf a = 0#1) ∨ ∃ a, i = .toInt32 a ∧ isFinite a = true := by
  cases hmag : exactMagnitude i with
  | some q => exact .inl ⟨q.1, q.2, rfl⟩
  | none =>
    cases i with
    | sqrt a =>
      simp only [arises, Bool.and_eq_true, Bool.not_eq_true', beq_iff_eq] at h
      obtain ⟨⟨⟨ha, hz⟩, hs⟩, -⟩ := h
      exact .inr (.inl ⟨a, rfl, ha, hz, hs⟩)
    | toInt32 a =>
      simp only [arises, Bool.and_eq_true] at h
      obtain ⟨ha, -⟩ := h
      exact .inr (.inr ⟨a, rfl, ha⟩)
    | _ => simp [arises, hmag] at h

/-- Settles O60, row by row of R271: an underflow gives at most 2^-126, and a rounding is inexact when it changes the
magnitude. -/
theorem conditionsShapeOnlyTheResponse : Obligations.ConditionsShapeOnlyTheResponse := by
  intro i s
  refine ⟨fun h => answersR_of_invalidOperation h s, ?_, fun h => answersR_of_signalingOperand h s, ?_,
    fun h => answersR_of_overflow h s, fun h => ?_, fun num den hmag => ⟨?_, fun _ hsmall => ?_⟩,
    fun h => answersT_of_nanComparison h s, fun num den hmag => answersR_rounded hmag s, ?_, ?_, rounds_of_inexact⟩
  · rintro a rfl h
    exact answersR_of_invalidConversion h s
  · rintro a b rfl h
    exact answersR_of_divisionByZero h s
  · obtain ⟨r, hans, hr⟩ := answersR_of_underflow h s
    exact ⟨r, hans, zero_subnormal_or_least_normal hr⟩
  · rw [arises_underflow_of_exactMagnitude hmag, underflows_iff_roundUnbounded num (answersR_of_exactMagnitude hmag).1]
  · obtain ⟨r, hans, hr⟩ := answersR_of_small hmag hsmall s
    exact ⟨r, hans, zero_subnormal_or_least_normal hr⟩
  · rintro a rfl ha hz hs
    exact answersR_sqrt_rounded ha hz hs s
  · rintro a rfl ha
    exact ⟨answersR_toInt32 a s, arises_inexact_toInt32_iff ha⟩

end Sys2Proof.Machine
